-- ==== Sys2Proof/Word.lean ====
section
/-! DEFINITION. The words SHC works with: bytes, 32-bit command and register words, and the narrowing to 32 bits. -/

namespace Sys2Proof

/-- A byte of SRC or SNK, and a byte value of the alphabet (R5 `NVAL`, R60). -/
abbrev Byte := BitVec 8

/-- A 32-bit word: a command word and the width of a register access (R6 `REG_DATA_BITS`). -/
abbrev Word := BitVec 32

/-- `low32(x)`, that is `x & 0xFFFFFFFF` (R251). -/
abbrev low32 (x : Nat) : Word := BitVec.ofNat 32 x

end Sys2Proof
end

