-- ==== Sys2Proof/Config.lean ====
section
/-! DEFINITION. What the source or an implementation fixes: the constants of R5 and R1, the open parameters of R7, the
schedule of the lanes (R133, R265), and the free values of what the spec leaves unspecified (R23 item 3, R253, R281). -/

namespace Sys2Proof.Config

/-- `MAXLEN` (R5): capacity of a bit vector and largest representable code length. -/
abbrev maxLen : Nat := 16

/-- `WINDOW_BITS` (R5): width of the decode lookahead window. -/
abbrev windowBits : Nat := 8

/-- `SIZE_BYTES` (R5): bytes of the original-size field. -/
abbrev sizeBytes : Nat := 8

/-- `HDR_BYTES` (R5): header size, 8 + 256. -/
abbrev hdrBytes : Nat := 264

/-- `HDR_BITS` (R5): bit offset of the first body bit, 264 × 8. -/
abbrev hdrBits : Nat := 2112

/-- The Kraft sum of a complete code, `2 ^ MAXLEN` (R14 "Kraft sum K"). -/
abbrev kraftOne : Nat := 65536

/-- The value the `ID` register reads (R1, R25). -/
abbrev idWord : Word := 0x53484331

/-- The parameters R7 leaves open and asks a model to take as arguments.
They are configuration, not architectural state; `State` carries them so that every statement about
every state is a statement about every value of them (log entry 2). -/
structure Params where
  /-- `PAGE_BYTES`, at least 1. -/
  pageBytes : Nat
  /-- `ENC_PAR_MIN`: paged encode is engaged when `SRC_SIZE ≥ ENC_PAR_MIN`. -/
  encParMin : Nat
  /-- `DEC_PAR_MIN`: paged decode is engaged when `SNK_SIZE ≥ DEC_PAR_MIN`. -/
  decParMin : Nat
  /-- `LANES`, at least 1. -/
  lanes : Nat
  deriving DecidableEq, Repr

/-- The constraints of R7 on the open parameters. -/
abbrev Params.legal (p : Params) : Prop := 1 ≤ p.pageBytes ∧ 1 ≤ p.lanes

/-- How the lanes take up and perform one fork-join of a paged command.
R133 and R265 leave the assignment of pages to lanes, the order of the tasks and the interleaving of the lanes
unconstrained; each is a list of numbers here, read by `Machine/Lanes.lean`, and every choice is reached by some list
(log entry 3). -/
structure LaneOrder where
  /-- Entry `k`, modulo `LANES`, is the lane that runs page `k` (0 beyond the end of the list). -/
  assign : List Nat
  /-- Picks that put the pages in the order in which the lanes take them up. -/
  order  : List Nat
  /-- Picks that say which lane goes next: with its next access to SNK, or with its reduction (R132). -/
  turns  : List Nat
  deriving DecidableEq, Repr

/-- The schedule of a paged command: of the counting pass of `FT.SCANP`, and of the writing pass of `ENC.BODYP` or
`DEC.BODYP`, which a macro runs one after the other (R100, R265). -/
structure Schedule where
  count : LaneOrder
  body  : LaneOrder
  deriving DecidableEq, Repr

/-- FREE VALUE (R253, R281; U4, U5 "any value"): the byte that sink address `a` holds after the `n`-th event that leaves the
sink region unspecified. -/
opaque freeSinkByte (n a : Nat) : Byte

/-- FREE VALUE (R23 item 3; U7 "any value"): the word that the `n`-th unspecified register read returns. -/
opaque freeReadWord (n : Nat) : Word

end Sys2Proof.Config
end

