-- ==== Sys2Proof/Syntax.lean ====
section
/-! DEFINITION. The 26 commands of SHC-1.0 (R96), one constructor per row of spec/opcode_table.json. -/

namespace Sys2Proof

/-- The command set (R96). `len` is the C1 operand `W[4:0]`, `v` the C2 operand `W[7:0]` (R92, R93). -/
inductive Instr where
  | nop
  | srst
  | bvZero (len : BitVec 5)
  | bvNext (len : BitVec 5)
  | bvCopy
  | bvLdc (v : Byte)
  | ftClr
  | ftScan
  | ftScanp
  | pmRun
  | cbBuild
  | encAlloc
  | encHdr
  | encBody
  | encBodyp
  | encPut (v : Byte)
  | encodep
  | encode
  | decHdr
  | decTbl
  | decAlloc
  | decBody
  | decBodyp
  | decGet
  | decodep
  | decode
  deriving DecidableEq, Repr

/-- The three operand formats of R92: none, a length, a byte value. -/
inductive Format where
  | c0
  | c1
  | c2
  deriving DecidableEq, Repr

end Sys2Proof
end

