-- ==== Sys2Proof/WellFormed.lean ====
section
/-! DEFINITION. Which instructions are legal: the one operand check of the command set, `len ≤ 16` for format C1 (R92, R97 step 3). -/

namespace Sys2Proof

/-- The C1 operand is a legal length: 0..16 legal, 17..31 illegal (R92). -/
abbrev legalLen (len : BitVec 5) : Bool := len.toNat ≤ Config.maxLen

/-- Every operand is one its format calls legal (R92, R97 step 3). -/
def Instr.wellFormed : Instr → Bool
  | .bvZero len => legalLen len
  | .bvNext len => legalLen len
  | .bvLdc _ | .encPut _ => true
  | .nop | .srst | .bvCopy => true
  | .ftClr | .ftScan | .ftScanp => true
  | .pmRun | .cbBuild => true
  | .encAlloc | .encHdr | .encBody | .encBodyp | .encodep | .encode => true
  | .decHdr | .decTbl | .decAlloc | .decBody | .decBodyp | .decGet | .decodep | .decode => true

end Sys2Proof
end

