-- ==== Sys2Proof/Decode.lean ====
section
/-! DEFINITION. The decoder, total on every 32-bit word (R101), its rejections by name in the order of R97, and the encoder
(the word of a line is `match | operand`, R98). -/

namespace Sys2Proof

/-- Why a word is no command (R95), in the order of R97 steps 1 to 3. -/
inductive DecodeError where
  /-- `OP` is not one of the 26 opcodes of R96. -/
  | unassignedOpcode
  /-- A bit the format marks "must be 0" is 1. -/
  | mustBeZero
  /-- Format C1 and `W[4:0] > 16`. -/
  | lengthRange
  deriving DecidableEq, Repr

/-- Format C0 (R92): bits 23:0 must be 0. -/
def decodeC0 (w : Word) (i : Instr) : Except DecodeError Instr :=
  if w.extractLsb' 0 24 = 0 then .ok i else .error .mustBeZero

/-- Format C1 (R92): bits 23:5 must be 0, `len = W[4:0]` at most 16. -/
def decodeC1 (w : Word) (mk : BitVec 5 → Instr) : Except DecodeError Instr :=
  if w.extractLsb' 5 19 = 0 then
    if legalLen (w.extractLsb' 0 5) then .ok (mk (w.extractLsb' 0 5)) else .error .lengthRange
  else .error .mustBeZero

/-- Format C2 (R92): bits 23:8 must be 0, `v = W[7:0]`. -/
def decodeC2 (w : Word) (mk : Byte → Instr) : Except DecodeError Instr :=
  if w.extractLsb' 8 16 = 0 then .ok (mk (w.extractLsb' 0 8)) else .error .mustBeZero

/-- The command a word is (R96), or why it is none (R95, R97 steps 1 to 3). Bits 31:24 are the opcode (R90). -/
def decode (w : Word) : Except DecodeError Instr :=
  match (w.extractLsb' 24 8).toNat with
  | 0x00 => decodeC0 w .nop
  | 0x01 => decodeC0 w .srst
  | 0x10 => decodeC1 w .bvZero
  | 0x11 => decodeC1 w .bvNext
  | 0x12 => decodeC0 w .bvCopy
  | 0x13 => decodeC2 w .bvLdc
  | 0x20 => decodeC0 w .ftClr
  | 0x21 => decodeC0 w .ftScan
  | 0x22 => decodeC0 w .ftScanp
  | 0x30 => decodeC0 w .pmRun
  | 0x40 => decodeC0 w .cbBuild
  | 0x50 => decodeC0 w .encAlloc
  | 0x51 => decodeC0 w .encHdr
  | 0x52 => decodeC0 w .encBody
  | 0x53 => decodeC0 w .encBodyp
  | 0x54 => decodeC2 w .encPut
  | 0x5E => decodeC0 w .encodep
  | 0x5F => decodeC0 w .encode
  | 0x60 => decodeC0 w .decHdr
  | 0x61 => decodeC0 w .decTbl
  | 0x62 => decodeC0 w .decAlloc
  | 0x63 => decodeC0 w .decBody
  | 0x64 => decodeC0 w .decBodyp
  | 0x65 => decodeC0 w .decGet
  | 0x6E => decodeC0 w .decodep
  | 0x6F => decodeC0 w .decode
  | _ => .error .unassignedOpcode

/-- The `match` column of R96: the word of the command with operand 0. -/
def matchWord : Instr → Word
  | .nop => 0x00000000
  | .srst => 0x01000000
  | .bvZero _ => 0x10000000
  | .bvNext _ => 0x11000000
  | .bvCopy => 0x12000000
  | .bvLdc _ => 0x13000000
  | .ftClr => 0x20000000
  | .ftScan => 0x21000000
  | .ftScanp => 0x22000000
  | .pmRun => 0x30000000
  | .cbBuild => 0x40000000
  | .encAlloc => 0x50000000
  | .encHdr => 0x51000000
  | .encBody => 0x52000000
  | .encBodyp => 0x53000000
  | .encPut _ => 0x54000000
  | .encodep => 0x5E000000
  | .encode => 0x5F000000
  | .decHdr => 0x60000000
  | .decTbl => 0x61000000
  | .decAlloc => 0x62000000
  | .decBody => 0x63000000
  | .decBodyp => 0x64000000
  | .decGet => 0x65000000
  | .decodep => 0x6E000000
  | .decode => 0x6F000000

/-- The format of a command (R96). -/
def formatOf : Instr → Format
  | .bvZero _ | .bvNext _ => .c1
  | .bvLdc _ | .encPut _ => .c2
  | .nop | .srst | .bvCopy => .c0
  | .ftClr | .ftScan | .ftScanp => .c0
  | .pmRun | .cbBuild => .c0
  | .encAlloc | .encHdr | .encBody | .encBodyp | .encodep | .encode => .c0
  | .decHdr | .decTbl | .decAlloc | .decBody | .decBodyp | .decGet | .decodep | .decode => .c0

/-- The `mask` column of R96, which the format fixes: 1 on the opcode and on the bits that must be 0. -/
def maskWord : Format → Word
  | .c0 => 0xFFFFFFFF
  | .c1 => 0xFFFFFFE0
  | .c2 => 0xFFFFFF00

/-- The operand field of a command, unshifted and not sign-extended (R93). -/
def operandWord : Instr → Word
  | .bvZero len | .bvNext len => len.zeroExtend 32
  | .bvLdc v | .encPut v => v.zeroExtend 32
  | .nop | .srst | .bvCopy => 0
  | .ftClr | .ftScan | .ftScanp => 0
  | .pmRun | .cbBuild => 0
  | .encAlloc | .encHdr | .encBody | .encBodyp | .encodep | .encode => 0
  | .decHdr | .decTbl | .decAlloc | .decBody | .decBodyp | .decGet | .decodep | .decode => 0

/-- The command word of an instruction: `match | operand` (R98). -/
def encode (i : Instr) : Word := matchWord i ||| operandWord i

/-- The mnemonic of a command (R96). -/
def mnemonic : Instr → String
  | .nop => "NOP"
  | .srst => "SRST"
  | .bvZero _ => "BV.ZERO"
  | .bvNext _ => "BV.NEXT"
  | .bvCopy => "BV.COPY"
  | .bvLdc _ => "BV.LDC"
  | .ftClr => "FT.CLR"
  | .ftScan => "FT.SCAN"
  | .ftScanp => "FT.SCANP"
  | .pmRun => "PM.RUN"
  | .cbBuild => "CB.BUILD"
  | .encAlloc => "ENC.ALLOC"
  | .encHdr => "ENC.HDR"
  | .encBody => "ENC.BODY"
  | .encBodyp => "ENC.BODYP"
  | .encPut _ => "ENC.PUT"
  | .encodep => "ENCODEP"
  | .encode => "ENCODE"
  | .decHdr => "DEC.HDR"
  | .decTbl => "DEC.TBL"
  | .decAlloc => "DEC.ALLOC"
  | .decBody => "DEC.BODY"
  | .decBodyp => "DEC.BODYP"
  | .decGet => "DEC.GET"
  | .decodep => "DECODEP"
  | .decode => "DECODE"

/-- The line that lists a command (R98): the mnemonic, then for C1 and C2 one space and the operand in decimal. -/
def listing (i : Instr) : String :=
  match formatOf i with
  | .c0 => mnemonic i
  | .c1 | .c2 => mnemonic i ++ " " ++ Nat.repr (operandWord i).toNat

/-- The decoder on a word whose bits are numbered as spec/opcode_table.json numbers them; a command is one 32-bit word
(R90), so bits at and above `nbits` are 0. -/
def decodeTableWord (nbits w : Nat) : Option Instr :=
  match decode (BitVec.ofNat 32 (w % 2 ^ nbits)) with
  | .ok i => some i
  | .error _ => none

end Sys2Proof
end

