-- ==== Sys2Proof/Machine/State.lean ====
section
/-! DEFINITION. The architectural state of SHC (R20, R24), the two byte memories it is attached to (R60), the host's moves, and the
state after reset (R280). -/

namespace Sys2Proof.Machine

/-- Why the machine stops with no next state. There is no constructor: "No behaviour in this spec is `stuck`: every command
terminates (rule R297)" (93_implementation_defined.md). SHC's own faults (R250) are recorded in `State.faultCause` and lead to a
next state. -/
inductive Fault where
  deriving DecidableEq, Repr

/-- Why a step has no meaning. -/
inductive Refusal where
  /-- Raised by `exec`'s arm of an instruction that has no meaning; no arm of this model raises it. Safe. -/
  | notModelled (mnemonic : String)
  /-- Raised by a host move that reads or writes SRC or SNK while `BUSY = 1`: R290 (a) and U6 give it no meaning ("the model has
  no such host move"). No command raises it. Safe: nothing is claimed of what follows. -/
  | hostMemoryAccessWhileBusy
  deriving DecidableEq, Repr

/-- A byte memory: the listed bytes in rising address order, none of them 0x00; an unlisted address reads 0x00
(log entry 1). -/
abbrev Mem := List Host.Cell

/-- The canonical form of a memory: addresses strictly rising and inside the 32-bit space (R6 `AW`), no listed byte equal to
what an unlisted address reads as. -/
abbrev Mem.wf (m : Mem) : Prop :=
  m.Pairwise (fun c d => c.1 < d.1) ∧ ∀ c ∈ m, c.1 < 2 ^ 32 ∧ c.2 ≠ 0#8

/-- A table indexed by a byte value or by a window: 256 entries (R5 `NVAL`). -/
abbrev Table (α : Type) := Vector α 256

/-- A bit vector: a right-justified value and its length (R36, R110); also an entry of `CODE` (R43). -/
structure BV where
  val : BitVec 16
  len : BitVec 5
  deriving DecidableEq, Repr

/-- An entry of `DTBL`: the decoded byte value and the codeword length (R44). -/
structure DEntry where
  val : Byte
  len : BitVec 5
  deriving DecidableEq, Repr

/-- The seven sub-causes of `MALFORMED_HEADER` (R251). -/
inductive HeaderFlaw where
  | short
  | lenRange
  | emptyNonzero
  | kraft
  | bodyUnderrun
  | noCode
  | bodySize
  deriving DecidableEq, Repr

/-- The fault causes of R251, with the sub-cause where the cause has one. -/
inductive Cause where
  | none
  | illegalCmd
  | sequence
  | ioFailure
  | codeLengthOverflow
  | malformedHeader (flaw : HeaderFlaw)
  | lengthExceedsWindow
  | bvShiftNeg
  | bvOverflow
  | bvCopyEmpty
  | snkBounds
  | absentSymbol
  deriving DecidableEq, Repr

/-- What a `raise F(sub, info)` carries (R10, R252). -/
structure FaultRec where
  cause : Cause
  info  : Word
  deriving DecidableEq, Repr

/-- The flags of `STATUS` that are stored (R26); `BUSY` is `State.busy`. -/
structure Status where
  fault      : Bool
  expanded   : Bool
  codeV      : Bool
  dtblV      : Bool
  snkV       : Bool
  snkDec     : Bool
  hdrV       : Bool
  cmdDropped : Bool
  deriving DecidableEq, Repr

/-- What the outside world does to the machine: one action of the host, or of the `rst` input (R23, R60, R91, R99, R280). -/
inductive HostMove where
  /-- One register-port write. A write to `CMD` that is accepted runs to completion before the host's next move
  ("`WAIT` … implied after every command line", R99; "one atomic transition", R91). -/
  | write (addr : BitVec 13) (v : Word)
  /-- A write to `CMD` whose command is still running when the host makes its next moves: `BUSY` reads 1 until `wait`. -/
  | start (w : Word)
  /-- The host reads `STATUS` until `BUSY = 0` (R99 `WAIT`): a running command completes. -/
  | wait
  /-- One register-port read; the word read is left in `State.rdata`. -/
  | read (addr : BitVec 13)
  /-- The host writes one byte of SRC. -/
  | srcWrite (a : BitVec 32) (b : Byte)
  /-- The host writes one byte of SNK. -/
  | snkWrite (a : BitVec 32) (b : Byte)
  /-- The host reads one byte of SRC into `State.rdata`. -/
  | srcRead (a : BitVec 32)
  /-- The host reads one byte of SNK into `State.rdata`. -/
  | snkRead (a : BitVec 32)
  /-- The hard reset input `rst` (R280, R281). -/
  | hardReset
  /-- Not the host's: the schedule the lanes follow from now on, which nothing fixes (R265; log entry 3). -/
  | schedule (sch : Config.Schedule)
  deriving DecidableEq, Repr

/-- SHC, the memories it is attached to, and what its surroundings do next. -/
structure State where
  /-- `STATUS` but for `BUSY` (0x004, R26). -/
  status     : Status
  /-- `FAULT_CAUSE` (0x008, R27). -/
  faultCause : Cause
  /-- `FAULT_INFO` (0x00C, R28). -/
  faultInfo  : Word
  /-- `SRC_SIZE` (0x014, R30). -/
  srcSize    : Word
  /-- `SNK_CAP` (0x018, R31). -/
  snkCap     : Word
  /-- `SNK_SIZE` (0x01C, R32). -/
  snkSize    : Word
  /-- `ORIG` (0x020, 0x024, R33). -/
  orig       : BitVec 64
  /-- `BITPOS` (0x028, 0x02C, R34). -/
  bitpos     : BitVec 64
  /-- `OUTPOS` (0x030, R35). -/
  outpos     : Word
  /-- `BV` (0x034, R36). -/
  bv         : BV
  /-- `NSYM` (0x038, R37). -/
  nsym       : BitVec 9
  /-- `ENC_BITS` (0x03C, 0x040, R38). -/
  encBits    : BitVec 64
  /-- `FREQ[0..255]` (R41). -/
  freq       : Table Word
  /-- `LEN[0..255]` (R42). -/
  lens       : Table (BitVec 5)
  /-- `CODE[0..255]` (R43). -/
  code       : Table BV
  /-- `DTBL[0..255]` (R44). -/
  dtbl       : Table DEntry
  /-- The command word in flight: `STATUS.BUSY` is 1 exactly while there is one (R26, R91). -/
  running    : Option Word
  /-- The byte source memory SRC (R61); the host's, outside SHC. -/
  src        : Mem
  /-- The byte sink memory SNK (R62); the host's, outside SHC. -/
  snk        : Mem
  /-- The open parameters (R7); configuration, carried here (log entry 2). -/
  params     : Config.Params
  /-- The schedule the lanes follow in paged commands (R133, R265; log entry 3). -/
  sched      : Config.Schedule
  /-- The host's moves still to come, the next one first (log entry 4). -/
  host       : List HostMove
  /-- MODEL'S OWN: the word the host's last read returned (log entry 5). -/
  rdata      : Word
  /-- MODEL'S OWN: how many free values have been used (log entries 6, 7). -/
  free       : Nat
  deriving DecidableEq, Repr

/-- `STATUS.BUSY`, and the level output `busy` (R26 bit 0, R262). -/
abbrev State.busy (s : State) : Bool := s.running.isSome

/-- The level output `fault` (R262). -/
abbrev State.faultOut (s : State) : Bool := s.status.fault

/-- The state after hard reset: every register and table entry of R280 at 0, nothing in flight, nothing listed in either
memory, the parameters and the schedule at legal values no claim rests on (log entries 2, 3), no host move queued. -/
def State.reset : State where
  status     := ⟨false, false, false, false, false, false, false, false⟩
  faultCause := .none
  faultInfo  := 0
  srcSize    := 0
  snkCap     := 0
  snkSize    := 0
  orig       := 0
  bitpos     := 0
  outpos     := 0
  bv         := ⟨0, 0⟩
  nsym       := 0
  encBits    := 0
  freq       := Vector.replicate 256 0
  lens       := Vector.replicate 256 0
  code       := Vector.replicate 256 ⟨0, 0⟩
  dtbl       := Vector.replicate 256 ⟨0, 0⟩
  running    := none
  src        := []
  snk        := []
  params     := ⟨4, 0, 0, 2⟩
  sched      := ⟨⟨[], [], []⟩, ⟨[], [], []⟩⟩
  host       := []
  rdata      := 0
  free       := 0

end Sys2Proof.Machine
end

