-- ==== Sys2Proof/Machine/Ops.lean ====
section
/-! DEFINITION. The named operations: reading and writing the byte memories (R63 to R66, R79), reading and writing the tables, the
register updates of the commands, taking a fault (R252) and leaving the fault state (R241, R256, R280). -/

namespace Sys2Proof.Machine

/-! ### Byte memories -/

/-- The byte at an address (R10 `MemRead`). -/
def Mem.read : Mem → Nat → Byte
  | [], _ => 0#8
  | (k, b) :: m, a => if a = k then b else Mem.read m a

/-- Replace the byte at an address (R10 `MemWrite`), keeping the canonical form: 0x00 is what an unlisted address reads as. -/
def Mem.write : Mem → Nat → Byte → Mem
  | [], a, v => if v = 0#8 then [] else [(a, v)]
  | (k, b) :: m, a, v =>
    if a < k then (if v = 0#8 then (k, b) :: m else (a, v) :: (k, b) :: m)
    else if a = k then (if v = 0#8 then m else (a, v) :: m)
    else (k, b) :: Mem.write m a v

/-- The atomic read-modify-write of one byte (R66 `MemOr`). -/
def Mem.or (m : Mem) (a : Nat) (v : Byte) : Mem := m.write a (m.read a ||| v)

/-- Zero-fill of addresses `0 .. n − 1`; bytes at and above `n` are not touched (R79). -/
def Mem.zeroBelow (n : Nat) (m : Mem) : Mem := m.filter (fun c => n ≤ c.1)

/-- Addresses `0 .. n − 1` take the bytes `f` gives; bytes at and above `n` are unchanged. -/
def Mem.fillBelow (n : Nat) (f : Nat → Byte) (m : Mem) : Mem :=
  (List.range n).filterMap (fun a => if f a = 0#8 then none else some (a, f a)) ++ m.zeroBelow n

/-- One access of SHC to SNK that changes it. -/
inductive MemOp where
  | write (a : Nat) (v : Byte)
  | or (a : Nat) (v : Byte)
  deriving DecidableEq, Repr

/-- Perform one access. -/
def MemOp.apply (m : Mem) : MemOp → Mem
  | .write a v => m.write a v
  | .or a v => m.or a v

/-- Perform a sequence of accesses, one at a time in order (R68). -/
def applyOps (m : Mem) (ops : List MemOp) : Mem := ops.foldl MemOp.apply m

/-! ### Tables -/

/-- Entry `v` of a table (R10 `T[i]`): the first after `v` entries. `Table.at_eq` says it is `t[v]`; this form is quick in the kernel. -/
def Table.at {α : Type} (t : Table α) (v : Byte) : α :=
  (t.toArray.toList.drop v.toNat).head (by rw [Ne, List.drop_eq_nil_iff]; simpa using v.isLt)

/-- Write entry `v` of a table (R10 `T[i] <- v`). -/
def Table.put {α : Type} (t : Table α) (v : Byte) (x : α) : Table α := t.set v.toNat x v.isLt

/-- The table whose entry `v` is `f v`. -/
def Table.ofFn {α : Type} (f : Byte → α) : Table α := Vector.ofFn (fun i : Fin 256 => f (BitVec.ofFin i))

/-- A table with every entry `x`. -/
def Table.const {α : Type} (x : α) : Table α := Vector.replicate 256 x

/-- Write one entry for each pair, in order. -/
def Table.putAll {α : Type} (t : Table α) (ps : List (Byte × α)) : Table α := ps.foldl (fun t p => t.put p.1 p.2) t

/-- The byte values 0 .. 255 in ascending order. -/
def allBytes : List Byte := (List.range 256).map (BitVec.ofNat 8)

/-! ### SRC -/

/-- `SRC[a]` for the listed addresses, in the order of the list. Every rule reads SRC only below `SRC_SIZE` (R63). -/
def State.srcAt (s : State) (addrs : List Nat) : List Byte := addrs.map s.src.read

/-- `SRC[0 .. SRC_SIZE − 1]`, the input bytes in address order (R61, R131, R174). -/
def State.srcBytes (s : State) : List Byte := s.srcAt (List.range s.srcSize.toNat)

/-! ### Register updates of the commands -/

/-- `BV <- b` (R36: `BV.ZERO`, `BV.NEXT`, `BV.LDC`). -/
def State.setBv (s : State) (b : BV) : State := { s with bv := b }

/-- `FREQ <- t` (R41: `FT.CLR`, `FT.SCAN`, `FT.SCANP`). -/
def State.setFreq (s : State) (t : Table Word) : State := { s with freq := t }

/-- The writes of `PM.RUN` (R140): `LEN`, `NSYM`, `CODE_V <- 0`, `DTBL_V <- 0`. -/
def State.setLens (s : State) (t : Table (BitVec 5)) (n : Nat) : State :=
  { s with lens := t, nsym := BitVec.ofNat 9 n, status := { s.status with codeV := false, dtblV := false } }

/-- The writes of `CB.BUILD` (R162): `CODE`, `NSYM`, `CODE_V <- 1`, `DTBL_V <- 0`. -/
def State.setCode (s : State) (t : Table BV) (n : Nat) : State :=
  { s with code := t, nsym := BitVec.ofNat 9 n, status := { s.status with codeV := true, dtblV := false } }

/-- The writes of `ENC.ALLOC` (R170); `big` is the `EXPANDED` diagnostic (R176). -/
def State.allocEnc (s : State) (bits need : Nat) (big : Bool) : State :=
  { s with
    encBits := BitVec.ofNat 64 bits
    snkSize := low32 need
    snk := s.snk.zeroBelow need
    bitpos := BitVec.ofNat 64 Config.hdrBits
    status := { s.status with snkV := true, snkDec := false, expanded := big } }

/-- SNK after some accesses; no register changes (`BV.COPY`, `ENC.HDR`). -/
def State.setSnk (s : State) (m : Mem) : State := { s with snk := m }

/-- SNK after some accesses and the new `BITPOS` (`ENC.PUT`, `ENC.BODY`, `ENC.BODYP`). -/
def State.setSnkPos (s : State) (m : Mem) (pos : Nat) : State := { s with snk := m, bitpos := BitVec.ofNat 64 pos }

/-- The writes of `DEC.HDR` (R200): `ORIG`, `LEN`, `NSYM`, `HDR_V <- 1`, `CODE_V <- 0`, `DTBL_V <- 0`. -/
def State.loadHeader (s : State) (orig : Nat) (t : Table (BitVec 5)) (n : Nat) : State :=
  { s with
    orig := BitVec.ofNat 64 orig
    lens := t
    nsym := BitVec.ofNat 9 n
    status := { s.status with hdrV := true, codeV := false, dtblV := false } }

/-- The writes of `DEC.TBL` (R202): `DTBL`, `DTBL_V <- 1`. -/
def State.setDtbl (s : State) (t : Table DEntry) : State :=
  { s with dtbl := t, status := { s.status with dtblV := true } }

/-- The writes of `DEC.ALLOC` (R204). -/
def State.allocDec (s : State) : State :=
  { s with
    snkSize := s.orig.truncate 32
    snk := s.snk.zeroBelow (s.orig.truncate 32).toNat
    bitpos := BitVec.ofNat 64 Config.hdrBits
    outpos := 0
    status := { s.status with snkV := true, snkDec := true } }

/-- SNK after some accesses and the new cursors of the decoder (`DEC.GET`, `DEC.BODY`, `DEC.BODYP`). -/
def State.emit (s : State) (m : Mem) (out pos : Nat) : State :=
  { s with snk := m, outpos := BitVec.ofNat 32 out, bitpos := BitVec.ofNat 64 pos }

/-- The end of a command that did not fault: `STATUS.BUSY <- 0` (R91 step 3). -/
def State.retire (s : State) : State := { s with running := none }

/-- `STATUS.CMD_DROPPED <- 1`, and nothing else (R91 steps 1 and 2). -/
def State.dropCmd (s : State) : State := { s with status := { s.status with cmdDropped := true } }

/-- Acceptance of a command word: `STATUS.BUSY <- 1` (R91 step 3). -/
def State.accept (s : State) (w : Word) : State := { s with running := some w }

/-- The word a host read returns. -/
def State.setRdata (s : State) (w : Word) : State := { s with rdata := w }

/-- SNK addresses `0 .. n − 1` become unspecified: FREE VALUES (R253, R281; log entry 6). -/
def State.loseSink (s : State) (n : Nat) : State :=
  { s with snk := s.snk.fillBelow n (Config.freeSinkByte s.free), free := s.free + 1 }

/-! ### Taking a fault, and the way out -/

/-- A fault raised, and the state it is taken in: the state when the faulting command (for a macro: the faulting
sub-command) was accepted (R252). -/
structure Raised where
  fault : FaultRec
  state : State
  deriving DecidableEq, Repr

/-- The pseudocode of a command: the state it ends in, or the fault it raises. -/
abbrev Run := Except Raised State

/-- FAULT TAKING (R252): the cause and the information word are recorded, `FAULT <- 1`, `BUSY <- 0`, and nothing else. -/
def takeFault (f : FaultRec) (s : State) : State :=
  { s with
    faultCause := f.cause
    faultInfo := f.info
    running := none
    status := { s.status with fault := true } }

/-- A pure computation's fault, raised in state `s` (R10 `raise`). -/
def raiseIn {α : Type} (s : State) : Except FaultRec α → Except Raised α
  | .ok x => .ok x
  | .error f => .error ⟨f, s⟩

/-- How a command ends (R91 step 3, R252): `BUSY <- 0`, after its effect or after the fault is taken. A fault of SHC is a next
state. -/
def finish : Run → Host.Outcome State Fault Refusal
  | .ok s => .next s.retire
  | .error r => .next (takeFault r.fault r.state)

/-- The registers and tables at their reset values (R280), everything outside SHC as it was (R281): what `SRST` (R241) and hard
reset leave, and the only way out of the fault state (R256). -/
def State.resetRegs (s : State) : State :=
  { State.reset with
    src := s.src, snk := s.snk, params := s.params, sched := s.sched, host := s.host, rdata := s.rdata, free := s.free }

end Sys2Proof.Machine
end

