-- ==== Sys2Proof/Machine/Operands.lean ====
section
/-! DEFINITION. What the commands operate on: bit offsets (R8, R9), the bit-vector functions (R110), the packing primitive (R115) and
the decode window (R209). The operand fields of a command word (R93) are read in Decode.lean. -/

namespace Sys2Proof.Machine

/-- `ceil8(x) = (x + 7) >> 3` (R8). -/
def ceil8 (x : Nat) : Nat := (x + 7) >>> 3

/-- The stream bit at offset `k` of a memory (R9): register-bit `7 − (k & 7)` of byte `k >> 3`. -/
def Mem.bit (m : Mem) (k : Nat) : Bool := (m.read (k >>> 3)).getLsbD (7 - k % 8)

/-- The invariant of a bit vector: `len ≤ 16` and `val < 2^len` (R36, R110). -/
abbrev BV.wf (b : BV) : Prop := b.len.toNat ≤ Config.maxLen ∧ b.val.toNat < 2 ^ b.len.toNat

/-- `bv_zero(len) = (0, len)` (R110). -/
def bvZero (len : BitVec 5) : BV := ⟨0, len⟩

/-- `bv_next` (R110): the canonical successor `(val + 1) << (nl − len)`, or `BV_SHIFT_NEG`, or `BV_OVERFLOW`. -/
def bvNext (b : BV) (nl : BitVec 5) : Except FaultRec BV :=
  if nl.toNat < b.len.toNat then .error ⟨.bvShiftNeg, low32 (nl.toNat <<< 8 ||| b.len.toNat)⟩
  else
    let t := (b.val.toNat + 1) <<< (nl.toNat - b.len.toNat)
    if t ≥ 1 <<< nl.toNat then .error ⟨.bvOverflow, low32 t⟩
    else .ok ⟨BitVec.ofNat 16 t, nl⟩

/-- `w24` of R115: the codeword left-justified in 16 bits, then shifted to its bit phase `p` in 24. -/
def packWindow (b : BV) (p : Nat) : BitVec 24 :=
  let w16 : BitVec 16 := b.val <<< (16 - b.len.toNat)
  (w16.zeroExtend 24) <<< (8 - p)

/-- `piece[j]` of R115. -/
def packPiece (b : BV) (p j : Nat) : Byte := (packWindow b p).extractLsb' (16 - 8 * j) 8

/-- `nb` of R115: how many bytes a codeword of `len` bits touches at bit offset `off`. -/
def packBytes (len off : Nat) : Nat := (off % 8 + len + 7) >>> 3

/-- The accesses of `Pack(val, len, off)`: one `MemOr` for each byte touched (R115). -/
def packOps (b : BV) (off : Nat) : List MemOp :=
  (List.range (packBytes b.len.toNat off)).map (fun j => .or (off >>> 3 + j) (packPiece b (off % 8) j))

/-- `Pack(val, len, off)` (R115): the bounds check, before any access, then the accesses. -/
def pack (size : Word) (m : Mem) (b : BV) (off : Nat) : Except FaultRec Mem :=
  if off >>> 3 + packBytes b.len.toNat off > size.toNat then
    .error ⟨.snkBounds, low32 (max (off >>> 3) size.toNat)⟩
  else .ok (applyOps m (packOps b off))

/-- `window(off)` (R209): the 8 stream bits at offsets `off .. off + 7` of SRC; a second byte at or beyond `SRC_SIZE` is taken
as 0x00 and not read. -/
def State.window (s : State) (off : Nat) : Byte :=
  let b := off >>> 3
  let hi := s.src.read b
  let lo : Byte := if b + 1 < s.srcSize.toNat then s.src.read (b + 1) else 0
  ((hi ++ lo) >>> (8 - off % 8)).truncate 8

end Sys2Proof.Machine
end

