-- ==== Sys2Proof/Machine/Flags.lean ====
section
/-! DEFINITION. The flags: the `STATUS` word (R26), the fault codes (R27, R251), the flag prerequisites and the `SEQUENCE` mask
(R97 step 4, R45), and the `EXPANDED` diagnostic (R176). -/

namespace Sys2Proof.Machine

/-- A flag as a word with one bit. -/
def bit (n : Nat) (b : Bool) : Word := if b then 1#32 <<< n else 0

/-- The `STATUS` register (R26); bits 31:9 read 0. -/
def State.statusWord (s : State) : Word :=
  bit 0 s.busy ||| bit 1 s.status.fault ||| bit 2 s.status.expanded ||| bit 3 s.status.codeV ||| bit 4 s.status.dtblV
    ||| bit 5 s.status.snkV ||| bit 6 s.status.snkDec ||| bit 7 s.status.hdrV ||| bit 8 s.status.cmdDropped

/-- The SUB code of a header flaw (R251). -/
def HeaderFlaw.code : HeaderFlaw → BitVec 4
  | .short => 1
  | .lenRange => 2
  | .emptyNonzero => 3
  | .kraft => 4
  | .bodyUnderrun => 5
  | .noCode => 6
  | .bodySize => 7

/-- `CAUSE`, `FAULT_CAUSE[7:0]` (R251). -/
def Cause.code : Cause → BitVec 8
  | .none => 0
  | .illegalCmd => 1
  | .sequence => 2
  | .ioFailure => 3
  | .codeLengthOverflow => 4
  | .malformedHeader _ => 5
  | .lengthExceedsWindow => 6
  | .bvShiftNeg => 7
  | .bvOverflow => 8
  | .bvCopyEmpty => 9
  | .snkBounds => 10
  | .absentSymbol => 11

/-- `SUB`, `FAULT_CAUSE[11:8]` (R251): 0 when the cause has none. -/
def Cause.sub : Cause → BitVec 4
  | .malformedHeader f => f.code
  | .none | .illegalCmd | .sequence | .ioFailure | .codeLengthOverflow | .lengthExceedsWindow => 0
  | .bvShiftNeg | .bvOverflow | .bvCopyEmpty | .snkBounds | .absentSymbol => 0

/-- The `FAULT_CAUSE` register (R27). -/
def Cause.word (c : Cause) : Word := (c.sub ++ c.code).zeroExtend 32

/-- A prerequisite on `STATUS` (R45 "req"): `need` has the bits that must be 1, `clear` those that must be 0. -/
structure Req where
  need  : Word
  clear : Word
  deriving DecidableEq, Repr

/-- The mask m of R97 step 4: the `STATUS` bits whose required value is not present. -/
def seqMask (r : Req) (s : State) : Word := (r.need &&& ~~~ s.statusWord) ||| (r.clear &&& s.statusWord)

/-- R97 step 4: `SEQUENCE(0, m)` when a prerequisite does not hold. -/
def require (r : Req) (s : State) : Except Raised Unit :=
  if seqMask r s = 0 then .ok () else .error ⟨⟨.sequence, seqMask r s⟩, s⟩

/-- `BV.COPY`: `SNK_V` (R113). -/
def reqSink : Req := ⟨0x020, 0⟩

/-- `BV.LDC`, `ENC.ALLOC`, `DEC.TBL`: `CODE_V` (R114, R170, R202). -/
def reqCode : Req := ⟨0x008, 0⟩

/-- `ENC.HDR`, `ENC.PUT`, `ENC.BODY`, `ENC.BODYP`: `CODE_V`, `SNK_V`, not `SNK_DEC` (R172, R173, R174, R183). -/
def reqEnc : Req := ⟨0x028, 0x040⟩

/-- `DEC.ALLOC`: `HDR_V` (R204). -/
def reqHdr : Req := ⟨0x080, 0⟩

/-- `DEC.GET`, `DEC.BODY`, `DEC.BODYP`: `DTBL_V`, `SNK_V`, `SNK_DEC` (R208, R210, R219). -/
def reqDec : Req := ⟨0x070, 0⟩

/-- The `EXPANDED` diagnostic (R176): the container is strictly larger than the input. -/
def expandedFlag (need : Nat) (srcSize : Word) : Bool := need > srcSize.toNat

end Sys2Proof.Machine
end

