-- ==== Sys2Proof/Machine/BitVectorUnit.lean ====
section
/-! DEFINITION. The bit-vector unit: BV.ZERO, BV.NEXT, BV.COPY, BV.LDC (40_bitvector.md). -/

namespace Sys2Proof.Machine

/-- R97 step 3 for a C1 command: `ILLEGAL_CMD(0, W)` when `len > 16`. The decoder already refuses such a word. -/
def requireLen (i : Instr) (len : BitVec 5) (s : State) : Except Raised Unit :=
  if legalLen len then .ok () else .error ⟨⟨.illegalCmd, encode i⟩, s⟩

/-- `BV.ZERO len` (R111). -/
def execBvZero (len : BitVec 5) (s : State) : Host.Outcome State Fault Refusal :=
  finish do
    requireLen (.bvZero len) len s
    .ok (s.setBv (bvZero len))

/-- `BV.NEXT len` (R112). -/
def execBvNext (len : BitVec 5) (s : State) : Host.Outcome State Fault Refusal :=
  finish do
    requireLen (.bvNext len) len s
    let b ← raiseIn s (bvNext s.bv len)
    .ok (s.setBv b)

/-- The pseudocode of `BV.COPY` (R113); `BITPOS` is not advanced. -/
def runBvCopy (s : State) : Run := do
  require reqSink s
  if s.bv.len = 0 then .error ⟨⟨.bvCopyEmpty, 0⟩, s⟩
  else
    let m ← raiseIn s (pack s.snkSize s.snk s.bv s.bitpos.toNat)
    .ok (s.setSnk m)

/-- `BV.COPY` (R113). -/
def execBvCopy (s : State) : Host.Outcome State Fault Refusal := finish (runBvCopy s)

/-- `BV.LDC v` (R114). -/
def execBvLdc (v : Byte) (s : State) : Host.Outcome State Fault Refusal :=
  finish do
    require reqCode s
    .ok (s.setBv (s.code.at v))

end Sys2Proof.Machine
end

