-- ==== Sys2Proof/Machine/Canonical.lean ====
section
/-! DEFINITION. The canonical code builder: CB.BUILD (43_canonical.md). -/

namespace Sys2Proof.Machine

/-- The values with a nonzero length, ascending (R12 "present for CB and DEC"). -/
def present (len : Byte → Nat) : List Byte := allBytes.filter (fun v => len v ≠ 0)

/-- The Kraft sum K = Σ over present v of `1 << (16 − len v)` (R14, R162). -/
def kraftSum (len : Byte → Nat) : Nat := ((present len).map (fun v => 1 <<< (Config.maxLen - len v))).sum

/-- Canonical order (R160): ascending `(len v, v)`. -/
abbrev canonicalLE (len : Byte → Nat) (a b : Byte) : Prop := len a < len b ∨ (len a = len b ∧ a.toNat ≤ b.toNat)

/-- The present values in canonical order, `c_0 .. c_{n−1}` (R160). -/
def canonicalOrder (len : Byte → Nat) : List Byte := (present len).insertionSort (canonicalLE len)

/-- `code_i = bv_next(code_{i−1}, l_i)` along a list of lengths, from `code_{i-1}` (R161). -/
def codeChain (prev : BV) : List (BitVec 5) → Except FaultRec (List BV)
  | [] => .ok []
  | l :: ls => do
    let c ← bvNext prev l
    let cs ← codeChain c ls
    .ok (c :: cs)

/-- `code_0 .. code_{n−1}` for the lengths in canonical order (R161). -/
def assignCodes : List (BitVec 5) → Except FaultRec (List BV)
  | [] => .ok []
  | l :: ls => do
    let cs ← codeChain (bvZero l) ls
    .ok (bvZero l :: cs)

/-- The length function of `LEN`. -/
def State.lenOf (s : State) (v : Byte) : Nat := (s.lens.at v).toNat

/-- The pseudocode of `CB.BUILD` (R162): the Kraft test first, then the codes. -/
def runCbBuild (s : State) : Run :=
  if kraftSum s.lenOf > Config.kraftOne then .error ⟨⟨.bvOverflow, low32 (kraftSum s.lenOf)⟩, s⟩
  else do
    let order := canonicalOrder s.lenOf
    let codes ← raiseIn s (assignCodes (order.map s.lens.at))
    .ok (s.setCode (Table.putAll (Table.const ⟨0, 0⟩) (order.zip codes)) (present s.lenOf).length)

/-- `CB.BUILD` (R162). -/
def execCbBuild (s : State) : Host.Outcome State Fault Refusal := finish (runCbBuild s)

end Sys2Proof.Machine
end

