-- ==== Sys2Proof/Machine/Control.lean ====
section
/-! DEFINITION. The control commands: NOP, SRST (46_control.md). -/

namespace Sys2Proof.Machine

/-- `NOP` (R240): nothing changes; `BUSY` falls. -/
def execNop (s : State) : Host.Outcome State Fault Refusal := finish (.ok s)

/-- `SRST` (R241): every register and table at its reset value; SRC and SNK not touched. -/
def execSrst (s : State) : Host.Outcome State Fault Refusal := finish (.ok s.resetRegs)

end Sys2Proof.Machine
end

