-- ==== Sys2Proof/Machine/Lanes.lean ====
section
/-! DEFINITION. Pages and lanes (R133, R265): the partition of a range into pages, the assignment of pages to lanes, and the order in
which the lanes take their turns, all read from `State.params` and `State.sched`. -/

namespace Sys2Proof.Machine

/-- `NP = ceil(S / PAGE_BYTES)` (R133). -/
def pageCount (size pageBytes : Nat) : Nat := (size + pageBytes - 1) / pageBytes

/-- The addresses of page `k`: `k·PAGE_BYTES .. min((k+1)·PAGE_BYTES, S) − 1` (R133). -/
def pageAddrs (size pageBytes k : Nat) : List Nat :=
  List.range' (k * pageBytes) (min ((k + 1) * pageBytes) size - k * pageBytes)

/-- Some queue's head, taken by turns: each turn names one of the queues that still hold something, modulo how many they are
(the first, when the turns are used up). `fuel` is the number of turns at most taken. -/
def interleave {α : Type} : Nat → List Nat → List (List α) → List α
  | 0, _, _ => []
  | fuel + 1, turns, queues =>
    let live := queues.filter (fun q => !q.isEmpty)
    let i := turns.headD 0 % live.length
    match live[i]? with
    | some (x :: rest) => x :: interleave fuel turns.tail (live.set i rest)
    | _ => []

/-- The lanes' accesses in the order in which they happen: each lane's own in its order, no order between lanes (R68). -/
def runLanes {α : Type} (turns : List Nat) (queues : List (List α)) : List α :=
  interleave queues.flatten.length turns queues

/-- The tasks in the order in which they are taken up. -/
def taskOrder {α : Type} (picks : List Nat) (tasks : List α) : List α :=
  interleave tasks.length picks (tasks.map (fun t => [t]))

/-- The lane that runs page `k`. -/
def laneOf (o : Config.LaneOrder) (lanes k : Nat) : Nat := o.assign.getD k 0 % lanes

/-- The pages lane `l` runs, in the order in which it takes them up, when there are `np` pages. -/
def lanePages (o : Config.LaneOrder) (lanes np l : Nat) : List Nat :=
  (taskOrder o.order (List.range np)).filter (fun k => laneOf o lanes k = l)

/-- One pass over `np` pages (R68, R265): each lane performs the accesses of its pages in order, and the lanes interleave. -/
def passOps (o : Config.LaneOrder) (lanes np : Nat) (pageOps : Nat → List MemOp) : List MemOp :=
  runLanes o.turns ((List.range lanes).map (fun l => (lanePages o lanes np l).flatMap pageOps))

end Sys2Proof.Machine
end

