-- ==== Sys2Proof/Machine/Decoder.lean ====
section
/-! DEFINITION. The decoder unit: DEC.HDR, DEC.TBL, DEC.ALLOC, DEC.GET, DEC.BODY, DEC.BODYP, DECODE, DECODEP (45_decoder.md). -/

namespace Sys2Proof.Machine

/-! ### Header -/

/-- The size field N: `Σ over a in 0 .. 7 of SRC[a] << (8a)` (R71, R200). -/
def State.hdrSize (s : State) : Nat :=
  ((List.range Config.sizeBytes).map (fun a => (s.src.read a).toNat <<< (8 * a))).sum

/-- `L[v] = SRC[8 + v]` (R72, R201). -/
def State.hdrLen (s : State) (v : Byte) : Nat := (s.src.read (Config.sizeBytes + v.toNat)).toNat

/-- Check 4 fails (R201): one present value whose length is not 1, or two or more with K ≠ 65536. -/
def State.hdrKraftBad (s : State) : Bool :=
  match present s.hdrLen with
  | [] => false
  | [v] => s.hdrLen v ≠ 1
  | _ => kraftSum s.hdrLen ≠ Config.kraftOne

/-- The header checks in order; the first that fails raises (R201). -/
def State.hdrCheck (s : State) : Except FaultRec Unit :=
  if s.srcSize.toNat < Config.hdrBytes then .error ⟨.malformedHeader .short, s.srcSize⟩
  else
    match allBytes.find? (fun v => s.hdrLen v > Config.maxLen) with
    | some v => .error ⟨.malformedHeader .lenRange, v.zeroExtend 32⟩
    | none =>
      if present s.hdrLen = [] ∧ s.hdrSize ≠ 0 then .error ⟨.malformedHeader .emptyNonzero, low32 s.hdrSize⟩
      else if s.hdrKraftBad then .error ⟨.malformedHeader .kraft, low32 (kraftSum s.hdrLen)⟩
      else
        match allBytes.find? (fun v => s.hdrLen v > Config.windowBits) with
        | some v => .error ⟨.lengthExceedsWindow, v.zeroExtend 32⟩
        | none => .ok ()

/-- The pseudocode of `DEC.HDR` (R200). -/
def runDecHdr (s : State) : Run := do
  raiseIn s s.hdrCheck
  .ok (s.loadHeader s.hdrSize (Table.ofFn (fun v => BitVec.ofNat 5 (s.hdrLen v))) (present s.hdrLen).length)

/-- `DEC.HDR` (R200). -/
def execDecHdr (s : State) : Host.Outcome State Fault Refusal := finish (runDecHdr s)

/-! ### Decode table -/

/-- The length function of `CODE`. -/
def State.codeLenOf (s : State) (v : Byte) : Nat := (s.code.at v).len.toNat

/-- `barrier = CODE[c].VAL << (8 − CODE[c].LEN)` (R202). -/
def barrier (c : BV) : Nat := c.val.toNat <<< (Config.windowBits - c.len.toNat)

/-- Entries `lo .. hi − 1` of the decode table take the value `e`. -/
def fillEntries (t : Table DEntry) (lo hi : Nat) (e : DEntry) : Table DEntry :=
  Table.ofFn (fun w => if lo ≤ w.toNat ∧ w.toNat < hi then e else t.at w)

/-- The fill loop of R202: from each symbol's barrier up to the next symbol's, the last through 255. -/
def fillTable (code : Table BV) : List Byte → Table DEntry → Table DEntry
  | [], t => t
  | [c], t => fillEntries t (barrier (code.at c)) 256 ⟨c, (code.at c).len⟩
  | c :: c' :: cs, t =>
    fillTable code (c' :: cs) (fillEntries t (barrier (code.at c)) (barrier (code.at c')) ⟨c, (code.at c).len⟩)

/-- The pseudocode of `DEC.TBL` (R202). -/
def runDecTbl (s : State) : Run := do
  require reqCode s
  let order := canonicalOrder s.codeLenOf
  match order.find? (fun c => s.codeLenOf c > Config.windowBits) with
  | some c => .error ⟨⟨.lengthExceedsWindow, c.zeroExtend 32⟩, s⟩
  | none => .ok (s.setDtbl (fillTable s.code order (Table.const ⟨0, 0⟩)))

/-- `DEC.TBL` (R202). -/
def execDecTbl (s : State) : Host.Outcome State Fault Refusal := finish (runDecTbl s)

/-! ### Sink allocation -/

/-- The pseudocode of `DEC.ALLOC` (R204). -/
def runDecAlloc (s : State) : Run := do
  require reqHdr s
  if s.orig.toNat > s.snkCap.toNat then .error ⟨⟨.ioFailure, low32 s.orig.toNat⟩, s⟩
  else .ok s.allocDec

/-- `DEC.ALLOC` (R204). -/
def execDecAlloc (s : State) : Host.Outcome State Fault Refusal := finish (runDecAlloc s)

/-! ### Body, sequential -/

/-- The checks and the lookup of `DEC.GET` at bit offset `off` (R208, R215): the table entry at the window, when a codeword lies
there inside SRC. -/
def State.lookup (s : State) (off : Nat) : Except FaultRec DEntry :=
  if off >>> 3 ≥ s.srcSize.toNat then .error ⟨.malformedHeader .bodyUnderrun, low32 off⟩
  else
    let w := s.window off
    let e := s.dtbl.at w
    if e.len = 0 then .error ⟨.malformedHeader .noCode, w.zeroExtend 32⟩
    else if off + e.len.toNat > 8 * s.srcSize.toNat then .error ⟨.malformedHeader .bodyUnderrun, low32 off⟩
    else .ok e

/-- The pseudocode of `DEC.GET` after its prerequisites (R208). -/
def getSymbol (s : State) : Except FaultRec State :=
  if s.outpos.toNat ≥ s.snkSize.toNat then .error ⟨.snkBounds, s.outpos⟩
  else do
    let e ← s.lookup s.bitpos.toNat
    .ok (s.emit (s.snk.write s.outpos.toNat e.val) (s.outpos.toNat + 1) (s.bitpos.toNat + e.len.toNat))

/-- The pseudocode of `DEC.GET` (R208). -/
def runDecGet (s : State) : Run := do
  require reqDec s
  raiseIn s (getSymbol s)

/-- `DEC.GET` (R208). -/
def execDecGet (s : State) : Host.Outcome State Fault Refusal := finish (runDecGet s)

/-- `while OUTPOS < SNK_SIZE: DEC.GET` (R210); each pass advances `OUTPOS` by one, so `SNK_SIZE` passes are enough. -/
def getSymbols : Nat → State → Except FaultRec State
  | 0, s => .ok s
  | fuel + 1, s =>
    if s.outpos.toNat < s.snkSize.toNat then do
      let s ← getSymbol s
      getSymbols fuel s
    else .ok s

/-- The final size check of `DEC.BODY` (R210): `ceil8(BITPOS) = SRC_SIZE`. -/
def bodySizeCheck (srcSize : Word) (pos : Nat) : Except FaultRec Unit :=
  if ceil8 pos ≠ srcSize.toNat then .error ⟨.malformedHeader .bodySize, low32 (ceil8 pos)⟩ else .ok ()

/-- `BITPOS <- 2112 ; OUTPOS <- 0`, as `DEC.BODY` begins (R210). -/
def State.rewindDec (s : State) : State := s.emit s.snk 0 Config.hdrBits

/-- The pseudocode of `DEC.BODY` after its prerequisites (R210). -/
def getBody (s : State) : Except FaultRec State := do
  let t ← getSymbols s.snkSize.toNat s.rewindDec
  bodySizeCheck t.srcSize t.bitpos.toNat
  .ok t

/-- The pseudocode of `DEC.BODY` (R210). On a fault the registers are as before and the sink region is unspecified (R253). -/
def runDecBody (s : State) : Run := do
  require reqDec s
  raiseIn (s.loseSink s.snkSize.toNat) (getBody s)

/-- `DEC.BODY` (R210). -/
def execDecBody (s : State) : Host.Outcome State Fault Refusal := finish (runDecBody s)

/-! ### Body, paged -/

/-- Pass 1 (R215) from symbol `i` at bit offset `off`, with `n` symbols to go: `PGOFF` of the pages that begin there, and the
end offset. -/
def State.discover (s : State) : Nat → Nat → Nat → Except FaultRec (List Nat × Nat)
  | 0, _, off => .ok ([], off)
  | n + 1, i, off => do
    let e ← s.lookup off
    let (pages, endOff) ← s.discover n (i + 1) (off + e.len.toNat)
    .ok (if i % s.params.pageBytes = 0 then off :: pages else pages, endOff)

/-- Pass 2 (R217), the writes of the symbols with the listed indices, the first at bit offset `off`. -/
def State.decodeOps (s : State) : Nat → List Nat → List MemOp
  | _, [] => []
  | off, i :: is =>
    let e := s.dtbl.at (s.window off)
    .write i e.val :: s.decodeOps (off + e.len.toNat) is

/-- The pseudocode of `DEC.BODYP` after its prerequisites and its threshold (R219). -/
def State.getBodyPaged (s : State) : Except FaultRec State := do
  let (pgoff, endOff) ← s.discover s.snkSize.toNat 0 Config.hdrBits
  bodySizeCheck s.srcSize endOff
  let ops := passOps s.sched.body s.params.lanes (pageCount s.snkSize.toNat s.params.pageBytes)
    (fun k => s.decodeOps (pgoff.getD k 0) (pageAddrs s.snkSize.toNat s.params.pageBytes k))
  .ok (s.emit (applyOps s.snk ops) s.snkSize.toNat endOff)

/-- The pseudocode of `DEC.BODYP` (R219). Every fault of the paged form is found before anything is written (R215, R253). -/
def runDecBodyp (s : State) : Run :=
  if s.snkSize.toNat < s.params.decParMin then runDecBody s
  else do
    require reqDec s
    raiseIn s s.getBodyPaged

/-- `DEC.BODYP` (R219). -/
def execDecBodyp (s : State) : Host.Outcome State Fault Refusal := finish (runDecBodyp s)

/-! ### Whole decode -/

/-- `DECODE` (R100, R220): five commands in one `BUSY` period; it stops at the first that faults. -/
def execDecode (s : State) : Host.Outcome State Fault Refusal :=
  finish do
    let s ← runDecHdr s
    let s ← runCbBuild s
    let s ← runDecTbl s
    let s ← runDecAlloc s
    runDecBody s

/-- `DECODEP` (R100, R221). -/
def execDecodep (s : State) : Host.Outcome State Fault Refusal :=
  finish do
    let s ← runDecHdr s
    let s ← runCbBuild s
    let s ← runDecTbl s
    let s ← runDecAlloc s
    runDecBodyp s

end Sys2Proof.Machine
end

