-- ==== Sys2Proof/Machine/Frequency.lean ====
section
/-! DEFINITION. The frequency-table unit: FT.CLR, FT.SCAN, FT.SCANP (41_frequency.md). -/

namespace Sys2Proof.Machine

/-- Count the bytes of a list into a table: `T[x] <- T[x] + 1` for each, in order (R131). -/
def countInto (t : Table Word) (xs : List Byte) : Table Word := xs.foldl (fun t x => t.put x (t.at x + 1)) t

/-- `FT.CLR` (R130). -/
def execFtClr (s : State) : Host.Outcome State Fault Refusal := finish (.ok (s.setFreq (Table.const 0)))

/-- The pseudocode of `FT.SCAN` (R131). -/
def runFtScan (s : State) : Run := .ok (s.setFreq (countInto (Table.const 0) s.srcBytes))

/-- `FT.SCAN` (R131). -/
def execFtScan (s : State) : Host.Outcome State Fault Refusal := finish (runFtScan s)

/-- The private table `C_L` of lane `l` after pass 1 of `FT.SCANP` (R132). -/
def State.laneCounts (s : State) (l : Nat) : Table Word :=
  countInto (Table.const 0)
    ((lanePages s.sched.count s.params.lanes (pageCount s.srcSize.toNat s.params.pageBytes) l).flatMap
      (fun k => s.srcAt (pageAddrs s.srcSize.toNat s.params.pageBytes k)))

/-- One lane's reduction, a critical section: `FREQ[v] <- FREQ[v] + C_L[v]` for every v (R132). -/
def addCounts (t c : Table Word) : Table Word := Table.ofFn (fun v => t.at v + c.at v)

/-- The pseudocode of `FT.SCANP` (R132): pass 1 by pages on lanes, then one reduction per lane in any order. -/
def runFtScanp (s : State) : Run :=
  if s.srcSize.toNat < s.params.encParMin then runFtScan s
  else
    .ok (s.setFreq
      ((taskOrder s.sched.count.turns ((List.range s.params.lanes).map s.laneCounts)).foldl addCounts (Table.const 0)))

/-- `FT.SCANP` (R132). -/
def execFtScanp (s : State) : Host.Outcome State Fault Refusal := finish (runFtScanp s)

end Sys2Proof.Machine
end

