-- ==== Sys2Proof/Machine/PackageMerge.lean ====
section
/-! DEFINITION. The package-merge length-assignment unit: PM.RUN (42_package_merge.md). -/

namespace Sys2Proof.Machine

/-- A merge item (R142): its weight, and how often each symbol of the symbol array is contained in it (a multiset, C1). -/
structure Item where
  weight : Nat
  cnt    : List Nat
  deriving DecidableEq, Repr

/-- The singleton of symbol `i` (R142), `ws` being the weights of the symbol array. -/
def singleton (ws : List Nat) (i : Nat) : Item :=
  ⟨ws.getD i 0, (List.range ws.length).map (fun j => if j = i then 1 else 0)⟩

/-- The package of two items (R142): weights and counts added. -/
def package (x y : Item) : Item := ⟨x.weight + y.weight, List.zipWith (· + ·) x.cnt y.cnt⟩

/-- One singleton per symbol, in symbol-array order (R145). -/
def singletons (ws : List Nat) : List Item := (List.range ws.length).map (singleton ws)

/-- `stable_sort_by_weight` (R146): ascending weight, equal weights in the order they had. -/
def sortByWeight (l : List Item) : List Item := l.insertionSort (fun x y => x.weight ≤ y.weight)

/-- Adjacent items packaged in order, an unpaired last one dropped (R145). -/
def pairUp : List Item → List Item
  | x :: y :: l => package x y :: pairUp l
  | _ => []

/-- One round (R145): packages first, then the fresh singletons. -/
def mergeRound (ws : List Nat) (l : List Item) : List Item := pairUp (sortByWeight l) ++ singletons ws

/-- `while |L| < cutoff` (R145), the test before each round; `fuel` bounds the number of rounds. -/
def mergeRounds (ws : List Nat) (cutoff : Nat) : Nat → List Item → List Item
  | 0, l => l
  | fuel + 1, l => if l.length < cutoff then mergeRounds ws cutoff fuel (mergeRound ws l) else l

/-- The working list when the loop of R145 ends. The list grows in every round, so `n` rounds are more than enough. -/
def mergedItems (ws : List Nat) : List Item := mergeRounds ws (2 * ws.length - 2) ws.length (singletons ws)

/-- The code length of each symbol of the symbol array with weights `ws` (R143, R144, R145, R147). -/
def lengths (ws : List Nat) : List Nat :=
  if ws.length = 0 then []
  else if ws.length = 1 then [1]
  else
    let sel := (sortByWeight (mergedItems ws)).take (2 * ws.length - 2)
    (List.range ws.length).map (fun i => (sel.map (fun x => x.cnt.getD i 0)).sum)

/-- The symbol array (R141): the values with `FREQ[v] > 0`, ascending. -/
def State.symbols (s : State) : List Byte := allBytes.filter (fun v => s.freq.at v ≠ 0)

/-- The weights of the symbol array (R141). -/
def State.weights (s : State) : List Nat := s.symbols.map (fun v => (s.freq.at v).toNat)

/-- The pseudocode of `PM.RUN` (R140), with the check of R151 before any write. -/
def runPmRun (s : State) : Run :=
  let newlen := lengths s.weights
  match (s.symbols.zip newlen).find? (fun p => p.2 > Config.maxLen) with
  | some p => .error ⟨⟨.codeLengthOverflow, p.1.zeroExtend 32⟩, s⟩
  | none =>
    .ok (s.setLens
      (Table.putAll (Table.const 0) ((s.symbols.zip newlen).map (fun p => (p.1, BitVec.ofNat 5 p.2))))
      s.symbols.length)

/-- `PM.RUN` (R140). -/
def execPmRun (s : State) : Host.Outcome State Fault Refusal := finish (runPmRun s)

end Sys2Proof.Machine
end

