-- ==== Sys2Proof/Machine/Encoder.lean ====
section
/-! DEFINITION. The encoder unit: ENC.ALLOC, ENC.HDR, ENC.PUT, ENC.BODY, ENC.BODYP, ENCODE, ENCODEP (44_encoder.md). -/

namespace Sys2Proof.Machine

/-! ### Sizing and header -/

/-- `bits = Σ over v of FREQ[v] · CODE[v].LEN`, exact (R170). -/
def State.bodyBits (s : State) : Nat := (allBytes.map (fun v => (s.freq.at v).toNat * (s.code.at v).len.toNat)).sum

/-- `need = 264 + ceil8(bits)` (R170). -/
def State.containerBytes (s : State) : Nat := Config.hdrBytes + ceil8 s.bodyBits

/-- The pseudocode of `ENC.ALLOC` (R170). -/
def runEncAlloc (s : State) : Run := do
  require reqCode s
  match allBytes.find? (fun v => s.freq.at v ≠ 0 ∧ (s.code.at v).len = 0) with
  | some v => .error ⟨⟨.absentSymbol, v.zeroExtend 32⟩, s⟩
  | none =>
    if s.containerBytes > s.snkCap.toNat then .error ⟨⟨.ioFailure, low32 s.containerBytes⟩, s⟩
    else .ok (s.allocEnc s.bodyBits s.containerBytes (expandedFlag s.containerBytes s.srcSize))

/-- `ENC.ALLOC` (R170). -/
def execEncAlloc (s : State) : Host.Outcome State Fault Refusal := finish (runEncAlloc s)

/-- The writes of `ENC.HDR` (R172, R71, R72): the size field, least significant byte first, then the 256 length bytes. -/
def State.headerOps (s : State) : List MemOp :=
  (List.range Config.sizeBytes).map (fun a => .write a (((s.srcSize.zeroExtend 64) >>> (8 * a)).truncate 8))
    ++ allBytes.map (fun v => .write (Config.sizeBytes + v.toNat) ((s.lens.at v).zeroExtend 8))

/-- The pseudocode of `ENC.HDR` (R172). -/
def runEncHdr (s : State) : Run := do
  require reqEnc s
  if s.snkSize.toNat < Config.hdrBytes then .error ⟨⟨.snkBounds, s.snkSize⟩, s⟩
  else .ok (s.setSnk (applyOps s.snk s.headerOps))

/-- `ENC.HDR` (R172). -/
def execEncHdr (s : State) : Host.Outcome State Fault Refusal := finish (runEncHdr s)

/-! ### Body, sequential -/

/-- The pseudocode of `ENC.PUT v` after its prerequisites (R173). -/
def putSymbol (s : State) (v : Byte) : Except FaultRec State :=
  let c := s.code.at v
  if c.len = 0 then .error ⟨.absentSymbol, v.zeroExtend 32⟩
  else do
    let m ← pack s.snkSize s.snk c s.bitpos.toNat
    .ok (s.setSnkPos m (s.bitpos.toNat + c.len.toNat))

/-- `ENC.PUT v` (R173). -/
def execEncPut (v : Byte) (s : State) : Host.Outcome State Fault Refusal :=
  finish do
    require reqEnc s
    raiseIn s (putSymbol s v)

/-- `BITPOS <- 2112`, as `ENC.BODY` begins (R174). -/
def State.rewindEnc (s : State) : State := s.setSnkPos s.snk Config.hdrBits

/-- The pseudocode of `ENC.BODY` after its prerequisites (R174). -/
def putBody (s : State) : Except FaultRec State := s.srcBytes.foldlM putSymbol s.rewindEnc

/-- The pseudocode of `ENC.BODY` (R174). On a fault the registers are as before and the sink region is unspecified (R253). -/
def runEncBody (s : State) : Run := do
  require reqEnc s
  raiseIn (s.loseSink s.snkSize.toNat) (putBody s)

/-- `ENC.BODY` (R174). -/
def execEncBody (s : State) : Host.Outcome State Fault Refusal := finish (runEncBody s)

/-! ### Body, paged -/

/-- The input bytes of page `k` (R133 with S = `SRC_SIZE`). -/
def State.encPage (s : State) (k : Nat) : List Byte :=
  s.srcAt (pageAddrs s.srcSize.toNat s.params.pageBytes k)

/-- Pass 1, `PGBITS[k]` (R179): occurrences counted by value, then `Σ count · CODE[v].LEN`. -/
def State.pageBits (s : State) (k : Nat) : Nat :=
  (allBytes.map (fun v => (s.encPage k).count v * (s.code.at v).len.toNat)).sum

/-- Pass 2, `PGOFF[k]` (R180): the prefix sum from 2112. -/
def State.pageOffset (s : State) : Nat → Nat
  | 0 => Config.hdrBits
  | k + 1 => s.pageOffset k + s.pageBits k

/-- The accesses that write some bytes' codes from bit offset `off` on (R181). -/
def codeOps (code : Table BV) : Nat → List Byte → List MemOp
  | _, [] => []
  | off, x :: xs => packOps (code.at x) off ++ codeOps code (off + (code.at x).len.toNat) xs

/-- Pass 3, the accesses of page `k` (R181). -/
def State.encPageOps (s : State) (k : Nat) : List MemOp := codeOps s.code (s.pageOffset k) (s.encPage k)

/-- `NP` for the encoder (R133, R178). -/
def State.encPages (s : State) : Nat := pageCount s.srcSize.toNat s.params.pageBytes

/-- The three passes of `ENC.BODYP` (R179 to R181, R183). -/
def State.putBodyPaged (s : State) : State :=
  s.setSnkPos (applyOps s.snk (passOps s.sched.body s.params.lanes s.encPages s.encPageOps)) (s.pageOffset s.encPages)

/-- The pseudocode of `ENC.BODYP` (R183): the fallback below the threshold, the fault `ENC.BODY` would raise, or the passes. -/
def runEncBodyp (s : State) : Run :=
  if s.srcSize.toNat < s.params.encParMin then runEncBody s
  else
    match runEncBody s with
    | .error r => .error r
    | .ok _ => .ok s.putBodyPaged

/-- `ENC.BODYP` (R183). -/
def execEncBodyp (s : State) : Host.Outcome State Fault Refusal := finish (runEncBodyp s)

/-! ### Whole encode -/

/-- `ENCODE` (R100, R184): six commands in one `BUSY` period; it stops at the first that faults. -/
def execEncode (s : State) : Host.Outcome State Fault Refusal :=
  finish do
    let s ← runFtScan s
    let s ← runPmRun s
    let s ← runCbBuild s
    let s ← runEncAlloc s
    let s ← runEncHdr s
    runEncBody s

/-- `ENCODEP` (R100, R185). -/
def execEncodep (s : State) : Host.Outcome State Fault Refusal :=
  finish do
    let s ← runFtScanp s
    let s ← runPmRun s
    let s ← runCbBuild s
    let s ← runEncAlloc s
    let s ← runEncHdr s
    runEncBodyp s

end Sys2Proof.Machine
end

