-- ==== Sys2Proof/Machine/Dispatch.lean ====
section
/-! DEFINITION. One arm per command (R96): what an accepted command does, from its acceptance to the fall of `BUSY` (R91 step 3). -/

namespace Sys2Proof.Machine

def exec (i : Instr) (s : State) : Host.Outcome State Fault Refusal :=
  match i with
  | .nop => Sys2Proof.Machine.execNop s
  | .srst => Sys2Proof.Machine.execSrst s
  | .bvZero len => Sys2Proof.Machine.execBvZero len s
  | .bvNext len => Sys2Proof.Machine.execBvNext len s
  | .bvCopy => Sys2Proof.Machine.execBvCopy s
  | .bvLdc v => Sys2Proof.Machine.execBvLdc v s
  | .ftClr => Sys2Proof.Machine.execFtClr s
  | .ftScan => Sys2Proof.Machine.execFtScan s
  | .ftScanp => Sys2Proof.Machine.execFtScanp s
  | .pmRun => Sys2Proof.Machine.execPmRun s
  | .cbBuild => Sys2Proof.Machine.execCbBuild s
  | .encAlloc => Sys2Proof.Machine.execEncAlloc s
  | .encHdr => Sys2Proof.Machine.execEncHdr s
  | .encBody => Sys2Proof.Machine.execEncBody s
  | .encBodyp => Sys2Proof.Machine.execEncBodyp s
  | .encPut v => Sys2Proof.Machine.execEncPut v s
  | .encodep => Sys2Proof.Machine.execEncodep s
  | .encode => Sys2Proof.Machine.execEncode s
  | .decHdr => Sys2Proof.Machine.execDecHdr s
  | .decTbl => Sys2Proof.Machine.execDecTbl s
  | .decAlloc => Sys2Proof.Machine.execDecAlloc s
  | .decBody => Sys2Proof.Machine.execDecBody s
  | .decBodyp => Sys2Proof.Machine.execDecBodyp s
  | .decGet => Sys2Proof.Machine.execDecGet s
  | .decodep => Sys2Proof.Machine.execDecodep s
  | .decode => Sys2Proof.Machine.execDecode s

end Sys2Proof.Machine
end

