-- ==== Sys2Proof/Machine/Port.lean ====
section
/-! DEFINITION. The register port (R23, R24), command issue (R91), hard reset (R280, R281) and the host's accesses to the memories
(R60, R78): what each move of the host does. -/

namespace Sys2Proof.Machine

/-- What a register address names (R24). -/
inductive Reg where
  | id
  | status
  | faultCause
  | faultInfo
  | cmd
  | srcSize
  | snkCap
  | snkSize
  | origLo
  | origHi
  | bitposLo
  | bitposHi
  | outpos
  | bv
  | nsym
  | encBitsLo
  | encBitsHi
  | reserved
  | freq (v : Byte)
  | len (v : Byte)
  | code (v : Byte)
  | dtbl (w : Byte)
  deriving DecidableEq, Repr

/-- The register map (R24). The two low bits of an address are taken as 0 (R23). -/
def regAt (addr : BitVec 13) : Reg :=
  let n := addr.toNat / 4
  if n < 0x100 then
    match n with
    | 0x00 => .id
    | 0x01 => .status
    | 0x02 => .faultCause
    | 0x03 => .faultInfo
    | 0x04 => .cmd
    | 0x05 => .srcSize
    | 0x06 => .snkCap
    | 0x07 => .snkSize
    | 0x08 => .origLo
    | 0x09 => .origHi
    | 0x0A => .bitposLo
    | 0x0B => .bitposHi
    | 0x0C => .outpos
    | 0x0D => .bv
    | 0x0E => .nsym
    | 0x0F => .encBitsLo
    | 0x10 => .encBitsHi
    | _ => .reserved
  else if n < 0x200 then .freq (BitVec.ofNat 8 n)
  else if n < 0x300 then .len (BitVec.ofNat 8 n)
  else if n < 0x400 then .code (BitVec.ofNat 8 n)
  else if n < 0x500 then .dtbl (BitVec.ofNat 8 n)
  else .reserved

/-- The image of a bit vector in `BV` and `CODE[v]` (R36, R43): `LEN` in bits 20:16, `VAL` in bits 15:0. -/
def BV.word (b : BV) : Word := (b.len ++ b.val).zeroExtend 32

/-- The image of a decode-table entry (R44): `LEN` in bits 12:8, `VAL` in bits 7:0. -/
def DEntry.word (e : DEntry) : Word := (e.len ++ e.val).zeroExtend 32

/-- What a read of a register returns while the value is specified (R23 to R44). -/
def State.readReg (s : State) : Reg → Word
  | .id => Config.idWord
  | .status => s.statusWord
  | .faultCause => s.faultCause.word
  | .faultInfo => s.faultInfo
  | .cmd => 0
  | .srcSize => s.srcSize
  | .snkCap => s.snkCap
  | .snkSize => s.snkSize
  | .origLo => s.orig.extractLsb' 0 32
  | .origHi => s.orig.extractLsb' 32 32
  | .bitposLo => s.bitpos.extractLsb' 0 32
  | .bitposHi => s.bitpos.extractLsb' 32 32
  | .outpos => s.outpos
  | .bv => s.bv.word
  | .nsym => s.nsym.zeroExtend 32
  | .encBitsLo => s.encBits.extractLsb' 0 32
  | .encBitsHi => s.encBits.extractLsb' 32 32
  | .reserved => 0
  | .freq v => s.freq.at v
  | .len v => (s.lens.at v).zeroExtend 32
  | .code v => (s.code.at v).word
  | .dtbl w => (s.dtbl.at w).word

/-- A host read (R23 items 1 to 3): `STATUS` at any time; any other register while `BUSY = 1` returns an unspecified word
(FREE VALUE; log entry 7). -/
def State.portRead (s : State) (addr : BitVec 13) : State :=
  if s.busy ∧ regAt addr ≠ .status then { s with rdata := Config.freeReadWord s.free, free := s.free + 1 }
  else s.setRdata (s.readReg (regAt addr))

/-- A host write to a register other than `CMD`, when it is not ignored for `BUSY` or `FAULT` (R23 items 6 and 7): only the
read-write registers store, and `LEN[v]` only a value in 0..16 (R42). -/
def State.writeReg (s : State) (r : Reg) (x : Word) : State :=
  match r with
  | .srcSize => { s with srcSize := x }
  | .snkCap => { s with snkCap := x }
  | .bitposLo => { s with bitpos := s.bitpos.extractLsb' 32 32 ++ x }
  | .bitposHi => { s with bitpos := x ++ s.bitpos.extractLsb' 0 32 }
  | .freq v => { s with freq := s.freq.put v x }
  | .len v =>
    if x.toNat ≤ Config.maxLen then
      { s with lens := s.lens.put v (x.truncate 5), status := { s.status with codeV := false, dtblV := false } }
    else s
  | .id | .status | .faultCause | .faultInfo | .cmd | .snkSize | .origLo | .origHi | .outpos | .bv | .nsym => s
  | .encBitsLo | .encBitsHi | .reserved | .code _ | .dtbl _ => s

/-- Execution of the accepted word `w` (R91 step 3, R97): `ILLEGAL_CMD(0, W)` for a word that is no command, else its command. -/
def runWord (w : Word) (s : State) : Host.Outcome State Fault Refusal :=
  match decode w with
  | .ok i => exec i s
  | .error _ => .next (takeFault ⟨.illegalCmd, w⟩ s)

/-- Whether a word written to `CMD` is accepted (R91): not while `BUSY = 1`, and while `FAULT = 1` only the exact `SRST` word. -/
def State.accepts (s : State) (w : Word) : Bool := !s.busy && (!s.status.fault || w == encode .srst)

/-- Command issue (R91), the command run to completion. -/
def issue (w : Word) (s : State) : Host.Outcome State Fault Refusal :=
  if s.accepts w then runWord w (s.accept w) else .next s.dropCmd

/-- Command issue (R91), the command left running. -/
def start (w : Word) (s : State) : State := if s.accepts w then s.accept w else s.dropCmd

/-- The running command completes (R91 step 3, R291); nothing happens when none is running. -/
def complete (s : State) : Host.Outcome State Fault Refusal :=
  match s.running with
  | some w => runWord w s
  | none => .next s

/-- Whether a command may write SNK (R45). -/
def writesSink : Instr → Bool
  | .bvCopy | .encAlloc | .encHdr | .encBody | .encBodyp | .encPut _ | .encodep | .encode => true
  | .decAlloc | .decBody | .decBodyp | .decGet | .decodep | .decode => true
  | .nop | .srst | .bvZero _ | .bvNext _ | .bvLdc _ | .ftClr | .ftScan | .ftScanp | .pmRun | .cbBuild => false
  | .decHdr | .decTbl => false

/-- The sink region a running command may have been writing, as a number of bytes from address 0: the region it found and the
one it would have left (R281; log entry 6). -/
def State.sinkAtRisk (s : State) : Nat :=
  match s.running with
  | none => 0
  | some w =>
    match decode w with
    | .error _ => 0
    | .ok i =>
      if writesSink i then
        match exec i s with
        | .next t => max s.snkSize.toNat t.snkSize.toNat
        | .fault _ | .refused _ => s.snkSize.toNat
      else 0

/-- Hard reset (R280, R281): the reset registers; a running command is aborted and the region it was writing is unspecified. -/
def State.hardReset (s : State) : State :=
  if s.sinkAtRisk = 0 then s.resetRegs else (s.loseSink s.sinkAtRisk).resetRegs

/-- A host write through the register port (R23 items 4 to 7). -/
def portWrite (addr : BitVec 13) (x : Word) (s : State) : Host.Outcome State Fault Refusal :=
  if regAt addr = .cmd then issue x s
  else if s.busy ∨ s.status.fault then .next s
  else .next (s.writeReg (regAt addr) x)

/-- A host access to SRC or SNK (R60): only while SHC is idle (R78, R290 (a)). -/
def whenIdle (s t : State) : Host.Outcome State Fault Refusal :=
  if s.busy then .refused .hostMemoryAccessWhileBusy else .next t

/-- One move of the host. -/
def hostMove (m : HostMove) (s : State) : Host.Outcome State Fault Refusal :=
  match m with
  | .write addr x => portWrite addr x s
  | .start w => .next (start w s)
  | .wait => complete s
  | .read addr => .next (s.portRead addr)
  | .srcWrite a b => whenIdle s { s with src := s.src.write a.toNat b }
  | .snkWrite a b => whenIdle s { s with snk := s.snk.write a.toNat b }
  | .srcRead a => whenIdle s (s.setRdata ((s.src.read a.toNat).zeroExtend 32))
  | .snkRead a => whenIdle s (s.setRdata ((s.snk.read a.toNat).zeroExtend 32))
  | .hardReset => .next s.hardReset
  | .schedule sch => .next { s with sched := sch }

/-- The next move taken off the queue. -/
def State.popHost (s : State) (rest : List HostMove) : State := { s with host := rest }

end Sys2Proof.Machine
end

