-- ==== Sys2Proof/Machine/Step.lean ====
section
/-! DEFINITION. One step: the next move of the host (log entry 4). SHC has no program counter and fetches nothing (R22, R77): its
commands arrive as host writes to `CMD`. -/

namespace Sys2Proof.Machine

/-- One step of the machine. With no move queued SHC is idle, and "all state survives idleness" (R266). -/
def step (s : State) : Host.Outcome State Fault Refusal :=
  match s.host with
  | [] => .next s
  | m :: rest => hostMove m (s.popHost rest)

/-- `s` with the write of the command word to `CMD` (register address 0x010, R91) as the host's next move. -/
def State.withFetchWord (s : State) (nbits w : Nat) : State :=
  { s with host := .write 0x010 (BitVec.ofNat 32 (w % 2 ^ nbits)) :: s.host }

end Sys2Proof.Machine
end

