-- ==== Sys2Proof/Safety.lean ====
section
/-! DEFINITION. The terms in which claims are made: the invariant of the machine, the canonical code in closed form (R161), codewords
as streams of bits (R9, R73), and the container (R70 to R74). No step of the machine uses this file. -/

namespace Sys2Proof.Machine

/-! ### The canonical code and the body, from the spec's closed forms -/

/-- `u` comes before `v` in canonical order (R160). -/
abbrev canonicalLT (len : Byte → Nat) (u v : Byte) : Prop := len u < len v ∨ (len u = len v ∧ u.toNat < v.toNat)

/-- `Σ over j < i of 2^(16 − l_j)`, the left-justified value of the code of `c_i = v` (R117, R161). -/
def codeStart (len : Byte → Nat) (v : Byte) : Nat :=
  (((present len).filter (fun u => canonicalLT len u v)).map (fun u => 2 ^ (Config.maxLen - len u))).sum

/-- The canonical codeword of `v` in closed form (R161), and (0, 0) for an absent value (R43). -/
def canonicalCode (len : Byte → Nat) (v : Byte) : BV :=
  if len v = 0 then ⟨0, 0⟩
  else ⟨BitVec.ofNat 16 (codeStart len v >>> (Config.maxLen - len v)), BitVec.ofNat 5 (len v)⟩

/-- Bit `i` of a codeword, counting 0 at the most significant of its `len` bits (R9, R116 (a)). -/
def BV.codeBit (b : BV) (i : Nat) : Bool := b.val.getLsbD (b.len.toNat - 1 - i)

/-- The bits of a codeword, most significant first. -/
def BV.bits (b : BV) : List Bool := (List.range b.len.toNat).map b.codeBit

/-- The concatenation of the codewords of some bytes, in order (R73). -/
def bodyStream (code : Byte → BV) (xs : List Byte) : List Bool := xs.flatMap (fun x => (code x).bits)

/-- A memory holds the container of `xs` under the code lengths `len` (R70 to R73), `size` bytes long.
Padding bits (R74) are not constrained. -/
structure HoldsContainer (m : Mem) (size : Nat) (len : Byte → Nat) (xs : List Byte) : Prop where
  /-- The total size is `264 + ceil8(B)` (R70). -/
  size_eq : size = Config.hdrBytes + ceil8 (bodyStream (canonicalCode len) xs).length
  /-- `byte[a] = (N >> (8a)) & 0xFF` (R71). -/
  sizeField : ∀ a < 8, (m.read a).toNat = xs.length >>> (8 * a) % 256
  /-- Byte `8 + v` holds the code length of `v` (R72). -/
  lenBytes : ∀ v : Byte, (m.read (8 + v.toNat)).toNat = len v
  /-- The codewords follow one another from bit offset 2112 (R73). -/
  body : ∀ k (h : k < (bodyStream (canonicalCode len) xs).length),
    m.bit (Config.hdrBits + k) = (bodyStream (canonicalCode len) xs)[k]

/-- The padding bits of a container are 0, as the encoder leaves them (R74). -/
def ZeroPadded (m : Mem) (size : Nat) (len : Byte → Nat) (xs : List Byte) : Prop :=
  ∀ k, Config.hdrBits + (bodyStream (canonicalCode len) xs).length ≤ k → k < 8 * size → m.bit k = false

/-- The lengths a header may carry for an input of `n` bytes (R201): none above 8; none present only with `n = 0`; one present
only with length 1; two or more only with Kraft sum 65536. -/
def HeaderLengthsValid (len : Byte → Nat) (n : Nat) : Prop :=
  (∀ v, len v ≤ 8) ∧
    ((present len = [] ∧ n = 0) ∨ (∃ v, present len = [v] ∧ len v = 1) ∨
      (2 ≤ (present len).length ∧ kraftSum len = Config.kraftOne))

/-- The bit offset of decoded symbol `i`: from 2112, each symbol advances it by its table entry's length (R210, R215). -/
def State.walk (s : State) : Nat → Nat
  | 0 => Config.hdrBits
  | i + 1 => s.walk i + (s.dtbl.at (s.window (s.walk i))).len.toNat

/-- The table entry decoded symbol `i` meets (R208, R210). -/
def State.walkEntry (s : State) (i : Nat) : DEntry := s.dtbl.at (s.window (s.walk i))

/-! ### What the tables of the spec say of a command -/

/-- The macro commands (R100). -/
def isMacro : Instr → Bool
  | .encode | .encodep | .decode | .decodep => true
  | .nop | .srst | .bvZero _ | .bvNext _ | .bvCopy | .bvLdc _ | .ftClr | .ftScan | .ftScanp | .pmRun | .cbBuild => false
  | .encAlloc | .encHdr | .encBody | .encBodyp | .encPut _ => false
  | .decHdr | .decTbl | .decAlloc | .decBody | .decBodyp | .decGet => false

/-- The bulk body commands, whose faults leave the sink region unspecified (R253). -/
def isBulk : Instr → Bool
  | .encBody | .encBodyp | .decBody | .decBodyp => true
  | .nop | .srst | .bvZero _ | .bvNext _ | .bvCopy | .bvLdc _ | .ftClr | .ftScan | .ftScanp | .pmRun | .cbBuild => false
  | .encAlloc | .encHdr | .encPut _ | .encode | .encodep => false
  | .decHdr | .decTbl | .decAlloc | .decGet | .decode | .decodep => false

/-- The fault causes of R251: each with its CAUSE and SUB numbers. -/
def causeNumbers : List (Cause × Nat × Nat) :=
  [(.none, 0, 0), (.illegalCmd, 1, 0), (.sequence, 2, 0), (.ioFailure, 3, 0), (.codeLengthOverflow, 4, 0),
    (.malformedHeader .short, 5, 1), (.malformedHeader .lenRange, 5, 2), (.malformedHeader .emptyNonzero, 5, 3),
    (.malformedHeader .kraft, 5, 4), (.malformedHeader .bodyUnderrun, 5, 5), (.malformedHeader .noCode, 5, 6),
    (.malformedHeader .bodySize, 5, 7), (.lengthExceedsWindow, 6, 0), (.bvShiftNeg, 7, 0), (.bvOverflow, 8, 0),
    (.bvCopyEmpty, 9, 0), (.snkBounds, 10, 0), (.absentSymbol, 11, 0)]

/-- The "req" column of R45: the `STATUS` bits a command requires, each with the value required. -/
def reqColumn : Instr → List (Nat × Bool)
  | .bvCopy => [(5, true)]
  | .bvLdc _ | .encAlloc | .decTbl => [(3, true)]
  | .encHdr | .encPut _ | .encBody | .encBodyp => [(3, true), (5, true), (6, false)]
  | .decAlloc => [(7, true)]
  | .decGet | .decBody | .decBodyp => [(4, true), (5, true), (6, true)]
  | .nop | .srst | .bvZero _ | .bvNext _ | .ftClr | .ftScan | .ftScanp | .pmRun | .cbBuild => []
  | .encode | .encodep | .decHdr | .decode | .decodep => []

/-- `t` is `s` after taking a fault (R252): the three fault fields and `BUSY`, and nothing else. -/
def FaultTaken (c : Cause) (info : Word) (s t : State) : Prop :=
  t = { s with faultCause := c, faultInfo := info, running := none, status := { s.status with fault := true } }

/-- `t` is `s` after a bulk body command's fault: the registers as after any fault, the sink region unspecified, every byte at
or above `SNK_SIZE` unchanged (R252, R253). -/
def BulkFaultTaken (c : Cause) (info : Word) (s t : State) : Prop :=
  FaultTaken c info { s with snk := t.snk, free := t.free } t ∧
    ∀ a, s.snkSize.toNat ≤ a → t.snk.read a = s.snk.read a

/-- One command after another, each accepted when the one before it has completed. -/
def execAll : List Instr → State → Host.Outcome State Fault Refusal
  | [], s => .next s
  | i :: is, s =>
    match exec i s with
    | .next t => execAll is t
    | .fault f => .fault f
    | .refused r => .refused r

/-- One command after another, stopping at the first that faults (R100). -/
def execUntilFault : List Instr → State → Host.Outcome State Fault Refusal
  | [], s => .next s
  | i :: is, s =>
    match exec i s with
    | .next t => if t.status.fault then .next t else execUntilFault is t
    | .fault f => .fault f
    | .refused r => .refused r

/-! ### The invariant -/

/-- Every field of a state holds what the spec says it can hold: the ranges the spec states for the registers and tables, the flags that
imply one another, and the canonical form of the memories. The premise of the statements about single commands. -/
structure State.Legal (s : State) : Prop where
  /-- SRC is in canonical form. -/
  src : s.src.wf
  /-- SNK is in canonical form. -/
  snk : s.snk.wf
  /-- The open parameters are legal (R7). -/
  params : s.params.legal
  /-- `LEN ≤ 16` and `VAL < 2^LEN` (R36). -/
  bv : s.bv.wf
  /-- Every `LEN` entry is in 0..16 (R42). -/
  lens : ∀ v, (s.lens.at v).toNat ≤ 16
  /-- Every `CODE` entry is a bit vector (R43, R110). -/
  code : ∀ v, (s.code.at v).wf
  /-- When `CODE_V = 1`, `CODE[v].LEN = LEN[v]` for every v (R43). -/
  codeLen : s.status.codeV = true → ∀ v, (s.code.at v).len = s.lens.at v
  /-- When `CODE_V = 1`, the lengths are not over-subscribed (R163). -/
  kraft : s.status.codeV = true → kraftSum s.lenOf ≤ Config.kraftOne
  /-- Every `DTBL` length is in 0..8 (R44). -/
  dtbl : ∀ w, (s.dtbl.at w).len.toNat ≤ 8
  /-- `DTBL_V = 1` only with `CODE_V = 1` (R26). -/
  dtblV : s.status.dtblV = true → s.status.codeV = true
  /-- `NSYM` is in 0..256 (R37). -/
  nsym : s.nsym.toNat ≤ 256
  /-- An encode sink holds at least a header (R172). -/
  encSink : s.status.snkV = true → s.status.snkDec = false → 264 ≤ s.snkSize.toNat
  /-- A decode sink is an allocated sink, after a valid header (R26, R204). -/
  decSink : s.status.snkDec = true → s.status.snkV = true ∧ s.status.hdrV = true
  /-- The decoder has emitted at most `SNK_SIZE` symbols (R35, R208). -/
  outpos : s.status.snkDec = true → s.outpos.toNat ≤ s.snkSize.toNat
  /-- With no fault recorded, `FAULT_CAUSE` and `FAULT_INFO` are 0 (R27, R28). -/
  noFault : s.status.fault = false → s.faultCause = .none ∧ s.faultInfo = 0
  /-- A recorded fault has a cause (R251). -/
  fault : s.status.fault = true → s.faultCause ≠ .none
  /-- In the fault state only `SRST` can be running (R91, R257). -/
  running : ∀ w, s.running = some w → s.status.fault = true → w = encode .srst

/-- The invariant of the machine: every field is legal, and the valid flags tell the truth of the tables (R26). -/
structure State.Inv (s : State) : Prop extends s.Legal where
  /-- When `CODE_V = 1`, `CODE` was built from the current `LEN` (R26 bit 3): it is the canonical code of `LEN` (R161, R162). -/
  codeBuilt : s.status.codeV = true → ∀ v, s.code.at v = canonicalCode s.lenOf v
  /-- When `DTBL_V = 1`, `DTBL` was built from the current `CODE` (R26 bit 4): every window that begins with the codeword of v holds v
  and its length (R202, R205). -/
  dtblBuilt : s.status.dtblV = true → ∀ v w : Byte, s.lenOf v ≠ 0 →
    w.toNat / 2 ^ (Config.windowBits - s.lenOf v) = (s.code.at v).val.toNat → s.dtbl.at w = ⟨v, s.lens.at v⟩
  /-- When `DTBL_V = 1`, no code is longer than the window (R202, R203). -/
  dtblShort : s.status.dtblV = true → ∀ v, s.lenOf v ≤ Config.windowBits
  /-- When `DTBL_V = 1` and no value is present, every entry of `DTBL` is (0, 0) (R44, R202). -/
  dtblEmpty : s.status.dtblV = true → present s.lenOf = [] → ∀ w, s.dtbl.at w = ⟨0, 0⟩

end Sys2Proof.Machine
end

