-- ==== Sys2Proof/Certificates/Slice0/Obligations.lean ====
section
/-! DEFINITION. The statements for the provers. Each formalises rules R<n> of spec/ as OBLIGATIONS.json records. -/

open Sys2Proof Sys2Proof.Machine

/-! ### Command words -/

/-- R96, R98: the word written for a legal command decodes to that command, operand included. -/
def Obligations.DecodeOfEncodeIsTheCommand : Prop :=
  ∀ i : Instr, i.wellFormed = true → decode (encode i) = .ok i

/-- R101, R96: every word that decodes is the word of a legal command, and of that one only. -/
def Obligations.DecodedWordIsItsCommandsWord : Prop :=
  ∀ (w : Word) (i : Instr), decode w = .ok i →
    i.wellFormed = true ∧ encode i = w ∧ ∀ j : Instr, j.wellFormed = true → encode j = w → j = i

/-- R96: W is command i iff `W & mask = match`, for C1 commands additionally `W[4:0] ≤ 16`. -/
def Obligations.CommandIffMaskMatches : Prop :=
  ∀ (w : Word) (i : Instr),
    (∃ j, decode w = .ok j ∧ matchWord j = matchWord i) ↔
      (w &&& maskWord (formatOf i) = matchWord i ∧ (formatOf i = .c1 → (w.extractLsb' 0 5).toNat ≤ 16))

/-- R92, R96: words written out from the encoding tables decode to their commands. -/
def Obligations.WrittenOutWordsDecode : Prop :=
  decode 0x00000000 = .ok .nop ∧ decode 0x01000000 = .ok .srst ∧ decode 0x11000003 = .ok (.bvNext 3) ∧
    decode 0x130000FF = .ok (.bvLdc 255) ∧ decode 0x21000000 = .ok .ftScan ∧ decode 0x30000000 = .ok .pmRun ∧
    decode 0x40000000 = .ok .cbBuild ∧ decode 0x54000061 = .ok (.encPut 0x61) ∧ decode 0x65000000 = .ok .decGet ∧
    decode 0x5D000000 = .error .unassignedOpcode ∧ decode 0x12000001 = .error .mustBeZero ∧
    decode 0x10000011 = .error .lengthRange

/-! ### Issue, faults, the fault state -/

/-- R91 step 3: a write of a command word to `CMD` while SHC is idle and not faulted (or the exact `SRST` word) runs that
command, with `BUSY = 1`; the word that `withFetchWord` places is run by the very next step. That the host's moves stand in a queue is the
model's choice (log entry 4). -/
def Obligations.StepRunsTheDecodedCommand : Prop :=
  (∀ (s : State) (addr : BitVec 13) (w : Word) (i : Instr) (rest : List HostMove),
    s.host = .write addr w :: rest → addr.toNat / 4 = 4 → s.running = none →
    (s.status.fault = false ∨ w = 0x01000000) → decode w = .ok i →
    step s = exec i { s with host := rest, running := some w }) ∧
  ∀ (s : State) (nbits w : Nat) (i : Instr),
    s.running = none → s.status.fault = false → decodeTableWord nbits w = some i →
    step (s.withFetchWord nbits w) = exec i { s with running := some (BitVec.ofNat 32 (w % 2 ^ nbits)) }

/-- R95, R97 steps 1 to 3: an accepted word that is no command raises `ILLEGAL_CMD(0, W)` and does nothing else. -/
def Obligations.IllegalWordRaisesIllegalCmd : Prop :=
  ∀ (s : State) (addr : BitVec 13) (w : Word) (rest : List HostMove),
    s.host = .write addr w :: rest → addr.toNat / 4 = 4 → s.running = none → s.status.fault = false →
    (∀ i : Instr, i.wellFormed = true → encode i ≠ w) →
    ∃ t, step s = .next t ∧ FaultTaken .illegalCmd w { s with host := rest } t

/-- R91 steps 1 and 2: a word written to `CMD` while `BUSY = 1`, or while `FAULT = 1` and not exactly the `SRST` word, is
dropped: `CMD_DROPPED <- 1`, nothing else changes. -/
def Obligations.DroppedWordSetsOnlyCmdDropped : Prop :=
  ∀ (s : State) (w : Word) (rest : List HostMove) (m : HostMove),
    ((∃ addr : BitVec 13, addr.toNat / 4 = 4 ∧ m = .write addr w) ∨ m = .start w) → s.host = m :: rest →
    ((∃ v, s.running = some v) ∨ (s.status.fault = true ∧ w ≠ 0x01000000)) →
    step s = .next { s with host := rest, status := { s.status with cmdDropped := true } }

/-- R256, R257, R252: in the fault state nothing but the `SRST` command and hard reset clears `FAULT`, and whatever else happens
the recorded cause and information word stay those of the first fault. -/
def Obligations.FaultStateIsLeftOnlyByReset : Prop :=
  ∀ s t : State, s.Legal → s.status.fault = true → step s = .next t →
    (t.status.fault = true ∧ t.faultCause = s.faultCause ∧ t.faultInfo = s.faultInfo) ∨
    (t.status.fault = false ∧ ∃ m rest, s.host = m :: rest ∧
      (m = .hardReset ∨ (m = .wait ∧ s.running = some 0x01000000) ∨
        ∃ addr : BitVec 13, addr.toNat / 4 = 4 ∧ m = .write addr 0x01000000))

/-- R252, R253: a command that is no macro and faults leaves every register, table entry and flag as it found it, but for the
three fault fields and `BUSY`; SNK too, except that a bulk body command leaves the region below `SNK_SIZE` unspecified. -/
def Obligations.FaultsArePrecise : Prop :=
  ∀ (i : Instr) (s t : State), isMacro i = false → s.status.fault = false → exec i s = .next t → t.status.fault = true →
    t.faultCause ≠ .none ∧
      (FaultTaken t.faultCause t.faultInfo s t ∨ (isBulk i = true ∧ BulkFaultTaken t.faultCause t.faultInfo s t))

/-- R97 step 4, R45, R254: with a flag prerequisite unmet the command raises `SEQUENCE` with exactly the mask of the wrong
`STATUS` bits, before anything else; with all met it never does. That SNK is unchanged after a `SEQUENCE` fault of `ENC.BODY`, `ENC.BODYP`,
`DEC.BODY` and `DEC.BODYP` is the model's reading, DEDUCED (log entry 6): R253 leaves SNK unspecified after a fault of the first three. -/
def Obligations.SequenceFaultIsExact : Prop :=
  ∀ (i : Instr) (s : State) (m : Word), i.wellFormed = true → isMacro i = false →
    (∀ n < 32, m.getLsbD n = true ↔ ∃ b, (n, b) ∈ reqColumn i ∧ s.statusWord.getLsbD n ≠ b) →
    (m ≠ 0 → ∃ t, exec i s = .next t ∧ FaultTaken .sequence m s t) ∧
    (m = 0 → ∀ t, exec i s = .next t → t.faultCause = s.faultCause ∨ t.faultCause ≠ .sequence)

/-- R297: every command terminates, with `BUSY = 0`; R290: the only moves of the host without a meaning are accesses to SRC and
SNK while a command runs. -/
def Obligations.EveryStepCompletes : Prop :=
  (∀ (i : Instr) (s : State), ∃ t, exec i s = .next t ∧ t.running = none) ∧
  ∀ s : State, (∃ t, step s = .next t) ∨
    (step s = .refused .hostMemoryAccessWhileBusy ∧ (∃ w, s.running = some w) ∧ ∃ m rest, s.host = m :: rest ∧
      ((∃ a b, m = .srcWrite a b) ∨ (∃ a b, m = .snkWrite a b) ∨ (∃ a, m = .srcRead a) ∨ ∃ a, m = .snkRead a))

/-- R100: a macro does what its sub-commands do one after the other, and stops at the first that faults. -/
def Obligations.MacrosAreTheirExpansions : Prop :=
  ∀ s : State, s.status.fault = false →
    exec .encode s = execUntilFault [.ftScan, .pmRun, .cbBuild, .encAlloc, .encHdr, .encBody] s ∧
    exec .encodep s = execUntilFault [.ftScanp, .pmRun, .cbBuild, .encAlloc, .encHdr, .encBodyp] s ∧
    exec .decode s = execUntilFault [.decHdr, .cbBuild, .decTbl, .decAlloc, .decBody] s ∧
    exec .decodep s = execUntilFault [.decHdr, .cbBuild, .decTbl, .decAlloc, .decBodyp] s

/-! ### The register port -/

/-- R23 items 1 to 3: a read changes nothing but the word the host gets; of `STATUS` at any time, and of any register while
idle, that word is the register's value. Where that word is left (`rdata`) is the model's choice (log entry 5). -/
def Obligations.ReadsChangeNoState : Prop :=
  ∀ (s : State) (addr : BitVec 13) (rest : List HostMove), s.host = .read addr :: rest →
    ∃ t, step s = .next t ∧ t = { s with host := rest, rdata := t.rdata, free := t.free } ∧
      (s.running = none → t.rdata = s.readReg (regAt addr)) ∧ (addr.toNat / 4 = 1 → t.rdata = s.statusWord)

/-- R24 to R44: the register map, with the images of the fields in their words; R251: the CAUSE and SUB numbers `FAULT_CAUSE` shows of every
fault. -/
def Obligations.RegisterMapReads : Prop :=
  ∀ (s : State) (addr : BitVec 13),
    let n := addr.toNat / 4
    let x := s.readReg (regAt addr)
    (n = 0 → x = 0x53484331) ∧
    (n = 1 → ∀ k < 32, x.getLsbD k =
      (k == 0 && s.running.isSome || k == 1 && s.status.fault || k == 2 && s.status.expanded || k == 3 && s.status.codeV ||
        k == 4 && s.status.dtblV || k == 5 && s.status.snkV || k == 6 && s.status.snkDec || k == 7 && s.status.hdrV ||
        k == 8 && s.status.cmdDropped)) ∧
    (n = 2 → ∃ cause sub, (s.faultCause, cause, sub) ∈ causeNumbers ∧ x.toNat = sub * 2 ^ 8 + cause) ∧ (n = 3 → x = s.faultInfo) ∧
    (n = 4 → x = 0) ∧ (n = 5 → x = s.srcSize) ∧ (n = 6 → x = s.snkCap) ∧ (n = 7 → x = s.snkSize) ∧
    (n = 8 → x.toNat = s.orig.toNat % 2 ^ 32) ∧ (n = 9 → x.toNat = s.orig.toNat / 2 ^ 32) ∧
    (n = 10 → x.toNat = s.bitpos.toNat % 2 ^ 32) ∧ (n = 11 → x.toNat = s.bitpos.toNat / 2 ^ 32) ∧
    (n = 12 → x = s.outpos) ∧ (n = 13 → x.toNat = s.bv.len.toNat * 2 ^ 16 + s.bv.val.toNat) ∧
    (n = 14 → x.toNat = s.nsym.toNat) ∧
    (n = 15 → x.toNat = s.encBits.toNat % 2 ^ 32) ∧ (n = 16 → x.toNat = s.encBits.toNat / 2 ^ 32) ∧
    (17 ≤ n → n < 0x100 → x = 0) ∧
    (∀ v : Byte, n = 0x100 + v.toNat → x = s.freq.at v) ∧
    (∀ v : Byte, n = 0x200 + v.toNat → x.toNat = (s.lens.at v).toNat) ∧
    (∀ v : Byte, n = 0x300 + v.toNat → x.toNat = (s.code.at v).len.toNat * 2 ^ 16 + (s.code.at v).val.toNat) ∧
    (∀ v : Byte, n = 0x400 + v.toNat → x.toNat = (s.dtbl.at v).len.toNat * 2 ^ 8 + (s.dtbl.at v).val.toNat) ∧
    (0x500 ≤ n → x = 0)

/-- R23 items 4, 6 and 7, R24, R30, R31, R34, R41, R42: what a host write to a register other than `CMD` does. -/
def Obligations.PortWritesStoreLegalBits : Prop :=
  ∀ (s : State) (addr : BitVec 13) (x : Word) (rest : List HostMove), s.host = .write addr x :: rest →
    addr.toNat / 4 ≠ 4 →
    let n := addr.toNat / 4
    let u : State := { s with host := rest }
    ((∃ w, s.running = some w) ∨ s.status.fault = true → step s = .next u) ∧
    (s.running = none → s.status.fault = false →
      (n = 5 → step s = .next { u with srcSize := x }) ∧
      (n = 6 → step s = .next { u with snkCap := x }) ∧
      (n = 10 → ∃ p, step s = .next { u with bitpos := p } ∧ p.toNat = s.bitpos.toNat / 2 ^ 32 * 2 ^ 32 + x.toNat) ∧
      (n = 11 → ∃ p, step s = .next { u with bitpos := p } ∧ p.toNat = x.toNat * 2 ^ 32 + s.bitpos.toNat % 2 ^ 32) ∧
      (∀ v : Byte, n = 0x100 + v.toNat → ∃ f, step s = .next { u with freq := f } ∧
        ∀ y, f.at y = if y = v then x else s.freq.at y) ∧
      (∀ v : Byte, n = 0x200 + v.toNat →
        (x.toNat ≤ 16 → ∃ l, step s = .next { u with lens := l, status := { s.status with codeV := false, dtblV := false } } ∧
          ∀ y, (l.at y).toNat = if y = v then x.toNat else (s.lens.at y).toNat) ∧
        (16 < x.toNat → step s = .next u)) ∧
      (n < 5 ∨ (6 < n ∧ n < 10) ∨ (11 < n ∧ n < 0x100) ∨ 0x300 ≤ n → step s = .next u))

/-- R60, R99: the host's writes to SRC and SNK while SHC is idle change that byte and nothing else. That they
are moves in a queue is the model's choice (log entry 4). -/
def Obligations.HostMemoryWrites : Prop :=
  ∀ (s : State) (a : BitVec 32) (b : Byte) (rest : List HostMove), s.Legal → s.running = none →
    (s.host = .srcWrite a b :: rest → ∃ t, step s = .next t ∧ t = { s with host := rest, src := t.src } ∧
      ∀ k, t.src.read k = if k = a.toNat then b else s.src.read k) ∧
    (s.host = .snkWrite a b :: rest → ∃ t, step s = .next t ∧ t = { s with host := rest, snk := t.snk } ∧
      ∀ k, t.snk.read k = if k = a.toNat then b else s.snk.read k)

/-! ### Reset -/

/-- R280, R24, R25: after hard reset `ID` reads its constant, every other register address reads 0, SHC is idle and the outputs
are low. -/
def Obligations.ResetRegistersReadZero : Prop :=
  State.reset.busy = false ∧ State.reset.faultOut = false ∧
    ∀ addr : BitVec 13, State.reset.readReg (regAt addr) = if addr.toNat / 4 = 0 then 0x53484331 else 0

/-- R241, R280, R281: `SRST`, and hard reset of an idle SHC, leave every register and table as after reset and touch nothing
outside SHC. -/
def Obligations.SrstAndHardResetRestoreResetState : Prop :=
  ∀ s : State,
    let clean : State := { State.reset with
      src := s.src, snk := s.snk, params := s.params, sched := s.sched, host := s.host, rdata := s.rdata, free := s.free }
    exec .srst s = .next clean ∧ (s.running = none → hostMove .hardReset s = .next clean)

/-- R281: a hard reset while a word runs, be it a command or not, leaves the reset registers and SRC; it leaves SNK when the word is no command,
or a command that never writes SNK (R45), and else SNK from the end of the region the command found or would have left. That this is
"the sink region the command was writing" is the model's choice (log entry 6). -/
def Obligations.HardResetAbortsTheRunningCommand : Prop :=
  ∀ (s : State) (w : Word), s.running = some w →
    ∃ u, hostMove .hardReset s = .next u ∧
      u = { State.reset with
        src := s.src, snk := u.snk, params := s.params, sched := s.sched, host := s.host, rdata := s.rdata, free := u.free } ∧
      ((∀ i, decode w ≠ .ok i) → u.snk = s.snk) ∧
      (∀ i, decode w = .ok i → i ∈ [.nop, .srst, .ftClr, .ftScan, .ftScanp, .pmRun, .cbBuild, .decHdr, .decTbl] ∨
        (∃ len, i = .bvZero len ∨ i = .bvNext len) ∨ (∃ v, i = .bvLdc v) → u.snk = s.snk) ∧
      ∀ i t, decode w = .ok i → exec i s = .next t →
        ∀ a, s.snkSize.toNat ≤ a → t.snkSize.toNat ≤ a → u.snk.read a = s.snk.read a

/-- The invariant holds after reset. -/
def Obligations.ResetMeetsTheInvariant : Prop := State.reset.Inv

/-- Every step (a command, a fault, a register access, a host access, a reset) keeps the legality of every field, and with it the invariant
that `CODE` and `DTBL` are what R26 says of them while their flags are set. -/
def Obligations.EveryStepKeepsTheInvariant : Prop :=
  ∀ s t : State, step s = .next t → (s.Legal → t.Legal) ∧ (s.Inv → t.Inv)

/-! ### Rules about the whole machine -/

/-- R26: the flags of `STATUS` are set only by the commands the table names. -/
def Obligations.StatusFlagsAreSetOnlyByTheirCommands : Prop :=
  ∀ (i : Instr) (s t : State), exec i s = .next t →
    (s.status.codeV = false → t.status.codeV = true → i = .cbBuild ∨ isMacro i = true) ∧
    (s.status.dtblV = false → t.status.dtblV = true → i = .decTbl ∨ i = .decode ∨ i = .decodep) ∧
    (s.status.snkV = false → t.status.snkV = true → i = .encAlloc ∨ i = .decAlloc ∨ isMacro i = true) ∧
    (s.status.snkDec = false → t.status.snkDec = true → i = .decAlloc ∨ i = .decode ∨ i = .decodep) ∧
    (s.status.hdrV = false → t.status.hdrV = true → i = .decHdr ∨ i = .decode ∨ i = .decodep) ∧
    (s.status.expanded = false → t.status.expanded = true → i = .encAlloc ∨ i = .encode ∨ i = .encodep) ∧
    (s.status.cmdDropped = false → t.status.cmdDropped = false) ∧
    (i ≠ .srst → (s.status.hdrV = true → t.status.hdrV = true) ∧ (s.status.snkV = true → t.status.snkV = true) ∧
      (s.status.cmdDropped = true → t.status.cmdDropped = true) ∧ (s.status.fault = true → t.status.fault = true))

/-- R61, R30, R31, R36, R33, R34: SHC never writes SRC; only `SRST` changes `SRC_SIZE` and `SNK_CAP`; only the `BV.*` commands and `SRST`
change `BV`; only `DEC.HDR`, the decode macros and `SRST` change `ORIG`. No command changes the parameters. -/
def Obligations.CommandsLeaveOthersRegistersAlone : Prop :=
  ∀ (i : Instr) (s t : State), exec i s = .next t →
    t.src = s.src ∧ t.params = s.params ∧
    (i ≠ .srst → t.srcSize = s.srcSize ∧ t.snkCap = s.snkCap) ∧
    (i ≠ .srst → i ≠ .bvCopy → (∀ len, i ≠ .bvZero len ∧ i ≠ .bvNext len) → (∀ v, i ≠ .bvLdc v) → t.bv = s.bv) ∧
    (i ≠ .srst → i ≠ .decHdr → i ≠ .decode → i ≠ .decodep → t.orig = s.orig)

/-- R63: no command depends on what SRC holds at or above `SRC_SIZE`. -/
def Obligations.SourceIsReadOnlyBelowItsSize : Prop :=
  ∀ (i : Instr) (s t : State) (m : Mem), (∀ a < s.srcSize.toNat, m.read a = s.src.read a) → exec i s = .next t →
    exec i { s with src := m } = .next { t with src := m }

/-- R64: no command changes a byte of SNK at or above the size of the region it found and the one it leaves. -/
def Obligations.SinkIsChangedOnlyBelowItsSize : Prop :=
  ∀ (i : Instr) (s t : State) (a : Nat), exec i s = .next t → s.snkSize.toNat ≤ a → t.snkSize.toNat ≤ a →
    t.snk.read a = s.snk.read a

/-- R68, R91: a command left running and then waited for does what the same command does when the host waits at once. That a
running command takes its effect when it completes is the model's choice (log entry 8). -/
def Obligations.StartThenWaitIsOneTransition : Prop :=
  ∀ (s : State) (w : Word) (rest : List HostMove), s.host = .start w :: .wait :: rest → s.running = none →
    (s.status.fault = false ∨ w = 0x01000000) →
    ∃ u, step s = .next u ∧ u.busy = true ∧ step u = step { s with host := .write 0x010 w :: rest }

/-! ### Control and bit-vector commands -/

/-- R240: `NOP` changes no register, table, flag or memory byte; `BUSY` falls. -/
def Obligations.NopChangesNothing : Prop :=
  ∀ s : State, exec .nop s = .next { s with running := none }

/-- R111, R114: the results of `BV.ZERO` and of `BV.LDC`, and nothing else. -/
def Obligations.BvZeroAndLdcResults : Prop :=
  (∀ (s : State) (len : BitVec 5), len.toNat ≤ 16 →
    exec (.bvZero len) s = .next { s with bv := ⟨0, len⟩, running := none }) ∧
  ∀ (s : State) (v : Byte), s.status.codeV = true →
    exec (.bvLdc v) s = .next { s with bv := s.code.at v, running := none }

/-- R112: `BV.NEXT`: the successor, or `BV_SHIFT_NEG`, or `BV_OVERFLOW`, each exactly when the rule says. -/
def Obligations.BvNextResult : Prop :=
  ∀ (s : State) (len : BitVec 5), len.toNat ≤ 16 →
    (len.toNat < s.bv.len.toNat → ∃ t, exec (.bvNext len) s = .next t ∧
      FaultTaken .bvShiftNeg (BitVec.ofNat 32 (len.toNat * 2 ^ 8 + s.bv.len.toNat)) s t) ∧
    (s.bv.len.toNat ≤ len.toNat → 2 ^ len.toNat ≤ (s.bv.val.toNat + 1) * 2 ^ (len.toNat - s.bv.len.toNat) →
      ∃ t, exec (.bvNext len) s = .next t ∧
        FaultTaken .bvOverflow (BitVec.ofNat 32 ((s.bv.val.toNat + 1) * 2 ^ (len.toNat - s.bv.len.toNat))) s t) ∧
    (s.bv.len.toNat ≤ len.toNat → (s.bv.val.toNat + 1) * 2 ^ (len.toNat - s.bv.len.toNat) < 2 ^ len.toNat →
      ∃ b : BV, exec (.bvNext len) s = .next { s with bv := b, running := none } ∧ b.len = len ∧
        b.val.toNat = (s.bv.val.toNat + 1) * 2 ^ (len.toNat - s.bv.len.toNat))

/-- R117: along a successor the left-justified value grows by `2^(16 − len)`; so along a chain `zero(l_0), next(l_1), …` of rising lengths
the i-th vector has the left-justified value `Σ over j < i of 2^(16 − l_j)`, and `BV_OVERFLOW` is raised when, at some step, that sum
reaches 2^16, and only then. -/
def Obligations.SuccessorAdvancesLeftJustifiedValue : Prop :=
  (∀ (b c : BV) (nl : BitVec 5), b.wf → nl.toNat ≤ 16 → bvNext b nl = .ok c →
    c.val.toNat * 2 ^ (16 - c.len.toNat) = b.val.toNat * 2 ^ (16 - b.len.toNat) + 2 ^ (16 - b.len.toNat)) ∧
  ∀ ls : List (BitVec 5), ls.Pairwise (fun k l => k.toNat ≤ l.toNat) → (∀ l ∈ ls, l.toNat ≤ 16) →
    let sumBelow : Nat → Nat := fun i => ((ls.take i).map (fun l => 2 ^ (16 - l.toNat))).sum
    (∀ cs, assignCodes ls = .ok cs → cs.map BV.len = ls ∧
      ∀ i (h : i < cs.length), cs[i].val.toNat * 2 ^ (16 - cs[i].len.toNat) = sumBelow i) ∧
    ((∃ f, assignCodes ls = .error f ∧ f.cause = .bvOverflow) ↔ ∃ i < ls.length, 2 ^ 16 ≤ sumBelow i) ∧
    ∀ f, assignCodes ls = .error f → f.cause = .bvOverflow

/-- R113, R115, R116: `BV.COPY` ORs the codeword into SNK at `BITPOS`, most significant bit first, and changes no other bit and no
register; `BITPOS` is not advanced. The bytes touched are those of the `LEN` bits at `BITPOS`. -/
def Obligations.BvCopyOrsTheCodeword : Prop :=
  ∀ s : State, s.Legal → s.status.snkV = true →
    (s.bv.len = 0 → ∃ t, exec .bvCopy s = .next t ∧ FaultTaken .bvCopyEmpty 0 s t) ∧
    (s.bv.len ≠ 0 → s.snkSize.toNat < (s.bitpos.toNat + s.bv.len.toNat + 7) / 8 →
      ∃ t, exec .bvCopy s = .next t ∧
        FaultTaken .snkBounds (BitVec.ofNat 32 (max (s.bitpos.toNat / 8) s.snkSize.toNat)) s t) ∧
    (s.bv.len ≠ 0 → (s.bitpos.toNat + s.bv.len.toNat + 7) / 8 ≤ s.snkSize.toNat →
      ∃ t, exec .bvCopy s = .next t ∧ t = { s with snk := t.snk, running := none } ∧
        (∀ a, a < s.bitpos.toNat / 8 ∨ (s.bitpos.toNat + s.bv.len.toNat + 7) / 8 ≤ a → t.snk.read a = s.snk.read a) ∧
        (∀ k, k < s.bitpos.toNat ∨ s.bitpos.toNat + s.bv.len.toNat ≤ k → t.snk.bit k = s.snk.bit k) ∧
        ∀ i < s.bv.len.toNat, t.snk.bit (s.bitpos.toNat + i) = (s.snk.bit (s.bitpos.toNat + i) || s.bv.codeBit i))

/-! ### Frequency table -/

/-- R130: `FT.CLR` zeroes `FREQ` and nothing else. -/
def Obligations.FtClrZeroesFreq : Prop :=
  ∀ s : State, ∃ t, exec .ftClr s = .next t ∧ t = { s with freq := t.freq, running := none } ∧ ∀ v, t.freq.at v = 0

/-- R131, R132: after `FT.SCAN` or `FT.SCANP`, `FREQ[v]` is the number of addresses below `SRC_SIZE` that hold v, the entries sum to
`SRC_SIZE`, and nothing else has changed. -/
def Obligations.FtScanCountsEveryByte : Prop :=
  ∀ (s : State) (i : Instr), s.params.legal → i = .ftScan ∨ i = .ftScanp →
    ∃ t, exec i s = .next t ∧ t = { s with freq := t.freq, running := none } ∧
    (∀ v : Byte, (t.freq.at v).toNat = ((List.range s.srcSize.toNat).filter (fun a => s.src.read a = v)).length) ∧
    (allBytes.map (fun v => (t.freq.at v).toNat)).sum = s.srcSize.toNat

/-- R134: for every SRC, page size, threshold, lane count, assignment of pages and order of the lanes, `FT.SCANP` ends in the state
`FT.SCAN` ends in. -/
def Obligations.FtScanpEqualsFtScan : Prop :=
  ∀ s : State, s.params.legal → exec .ftScanp s = exec .ftScan s

/-! ### Package-merge -/

/-- R140, R143, R144, R147, R151: `PM.RUN` never faults; it leaves the lengths of its symbols in `LEN` and 0 for every absent value,
`NSYM` the number of symbols, `CODE_V` and `DTBL_V` clear, and changes nothing else. -/
def Obligations.PmRunAssignsLengths : Prop :=
  ∀ s : State, ∃ t, exec .pmRun s = .next t ∧
    t = { s with
      lens := t.lens, nsym := t.nsym, running := none, status := { s.status with codeV := false, dtblV := false } } ∧
    t.nsym.toNat = s.symbols.length ∧
    (∀ v, s.freq.at v = 0 → t.lens.at v = 0) ∧
    ∀ i (h : i < s.symbols.length), (t.lens.at s.symbols[i]).toNat = (lengths s.weights).getD i 0

/-- R148, R151: the loop ends with exactly `2n − 2` items; every length is at least 1 and at most `ceil(log2 n)` for n ≥ 2, hence at
most 8 for the 256 byte values; with n a power of two every length is `log2 n`. -/
def Obligations.LengthsAreWithinCeilLogTwo : Prop :=
  ∀ ws : List Nat, 2 ≤ ws.length →
    (mergedItems ws).length = 2 * ws.length - 2 ∧
    (∀ l ∈ lengths ws, 1 ≤ l ∧ l ≤ Nat.clog 2 ws.length) ∧
    (∀ k, ws.length = 2 ^ k → ∀ l ∈ lengths ws, l = k) ∧
    (ws.length ≤ 256 → ∀ l ∈ lengths ws, l ≤ 8)

/-- R150: for n ≥ 2 positive weights the lengths of package-merge satisfy Kraft equality exactly; for one weight the sum is 1/2 and for none
it is 0. -/
def Obligations.PackageMergeSatisfiesKraftEquality : Prop :=
  (∀ ws : List Nat, 2 ≤ ws.length → (∀ w ∈ ws, 0 < w) → ((lengths ws).map (fun l => (1 : ℚ) / 2 ^ l)).sum = 1) ∧
  (∀ w : Nat, ((lengths [w]).map (fun l => (1 : ℚ) / 2 ^ l)).sum = 1 / 2) ∧
  ((lengths []).map (fun l => (1 : ℚ) / 2 ^ l)).sum = 0

/-- R152: scaling all weights by a positive constant does not change the lengths. -/
def Obligations.LengthsIgnoreScale : Prop :=
  ∀ (ws : List Nat) (c : Nat), 0 < c → lengths (ws.map (c * ·)) = lengths ws

/-! ### Canonical code -/

/-- R160 to R164: with K ≤ 65536 `CB.BUILD` leaves the canonical code of `LEN` in `CODE` (every slot, (0, 0) for an absent value), `NSYM` the
number of present values, `CODE_V = 1`, `DTBL_V = 0`, and changes nothing else; with K > 65536 it raises `BV_OVERFLOW` with the low
32 bits of K. -/
def Obligations.CbBuildMakesTheCanonicalCode : Prop :=
  ∀ s : State, s.Legal →
    (Config.kraftOne < kraftSum s.lenOf →
      ∃ t, exec .cbBuild s = .next t ∧ FaultTaken .bvOverflow (BitVec.ofNat 32 (kraftSum s.lenOf)) s t) ∧
    (kraftSum s.lenOf ≤ Config.kraftOne →
      ∃ t, exec .cbBuild s = .next t ∧
        t = { s with
          code := t.code, nsym := t.nsym, running := none, status := { s.status with codeV := true, dtblV := false } } ∧
        t.nsym.toNat = (present s.lenOf).length ∧ ∀ v, t.code.at v = canonicalCode s.lenOf v)

/-- R163: the chain of R161 over the canonical order raises `BV_OVERFLOW` at some step exactly when K > 65536, and then `CB.BUILD` faults
before writing anything, with the low 32 bits of K. -/
def Obligations.CodeChainOverflowsIffOverSubscribed : Prop :=
  ∀ s : State, s.Legal →
    ((∃ f, assignCodes ((canonicalOrder s.lenOf).map s.lens.at) = .error f ∧ f.cause = .bvOverflow) ↔
      Config.kraftOne < kraftSum s.lenOf) ∧
    (Config.kraftOne < kraftSum s.lenOf →
      ∃ t, exec .cbBuild s = .next t ∧ FaultTaken .bvOverflow (BitVec.ofNat 32 (kraftSum s.lenOf)) s t)

/-- R166: the canonical code of lengths that are not over-subscribed: (a) left-justified values strictly increase in canonical order; (b) it
is prefix-free; (c) the last code of a complete code is all ones; (d) if moreover no length is above 8, the barriers strictly increase
from 0 and every window lies in the range of exactly one value; (e) a single value of length 1 has code `0`, and K = 32768. -/
def Obligations.CanonicalCodeIsPrefixFree : Prop :=
  ∀ len : Byte → Nat, (∀ v, len v ≤ 16) → kraftSum len ≤ Config.kraftOne →
    let val : Byte → Nat := fun v => (canonicalCode len v).val.toNat
    let bar : Byte → Nat := fun v => val v * 2 ^ (8 - len v)
    (canonicalOrder len).Pairwise (fun u v => val u * 2 ^ (16 - len u) < val v * 2 ^ (16 - len v)) ∧
    (∀ u v, u ≠ v → len u ≠ 0 → len v ≠ 0 → len u ≤ len v → val v / 2 ^ (len v - len u) ≠ val u) ∧
    (kraftSum len = Config.kraftOne → ∀ v ∈ (canonicalOrder len).getLast?, val v = 2 ^ len v - 1) ∧
    (kraftSum len = Config.kraftOne → (∀ v, len v ≤ 8) →
      (canonicalOrder len).Pairwise (fun u v => bar u < bar v) ∧ (∀ v ∈ (canonicalOrder len).head?, bar v = 0) ∧
      ∀ w : Byte, ∃! v, len v ≠ 0 ∧ bar v ≤ w.toNat ∧ ∀ u, len u ≠ 0 → canonicalLT len v u → w.toNat < bar u) ∧
    (∀ v, present len = [v] → len v = 1 → canonicalCode len v = ⟨0, 1⟩ ∧ kraftSum len = 32768)

/-! ### Encoder -/

/-- R170, R176, R79: `ENC.ALLOC` raises `ABSENT_SYMBOL` for the least weighted value without a code, else `IO_FAILURE` when the container does
not fit `SNK_CAP`, else sizes and zero-fills the sink, sets `BITPOS` to 2112 and the flags, and changes nothing else. -/
def Obligations.EncAllocSizesTheSink : Prop :=
  ∀ s : State, s.status.codeV = true →
    let bits := (allBytes.map (fun v => (s.freq.at v).toNat * (s.code.at v).len.toNat)).sum
    let need := 264 + (bits + 7) / 8
    (∀ v : Byte, s.freq.at v ≠ 0 → (s.code.at v).len = 0 →
      (∀ u : Byte, u.toNat < v.toNat → s.freq.at u = 0 ∨ (s.code.at u).len ≠ 0) →
      ∃ t, exec .encAlloc s = .next t ∧ FaultTaken .absentSymbol (v.zeroExtend 32) s t) ∧
    ((∀ v : Byte, s.freq.at v = 0 ∨ (s.code.at v).len ≠ 0) →
      (s.snkCap.toNat < need → ∃ t, exec .encAlloc s = .next t ∧ FaultTaken .ioFailure (BitVec.ofNat 32 need) s t) ∧
      (need ≤ s.snkCap.toNat → ∃ t, exec .encAlloc s = .next t ∧
        t = { s with
          encBits := t.encBits, snkSize := t.snkSize, snk := t.snk, bitpos := 2112, running := none,
          status := { s.status with snkV := true, snkDec := false, expanded := decide (s.srcSize.toNat < need) } } ∧
        t.encBits.toNat = bits ∧ t.snkSize.toNat = need ∧
        ∀ a, t.snk.read a = if a < need then 0 else s.snk.read a))

/-- R172, R71, R72: `ENC.HDR` writes the size field, least significant byte first, and the 256 length bytes, and nothing else. -/
def Obligations.EncHdrWritesTheHeader : Prop :=
  ∀ s : State, s.Legal → s.status.codeV = true → s.status.snkV = true → s.status.snkDec = false →
    ∃ t, exec .encHdr s = .next t ∧ t = { s with snk := t.snk, running := none } ∧
      (∀ a < 8, (t.snk.read a).toNat = s.srcSize.toNat / 2 ^ (8 * a) % 256) ∧
      (∀ v : Byte, (t.snk.read (8 + v.toNat)).toNat = (s.lens.at v).toNat) ∧
      ∀ a, 264 ≤ a → t.snk.read a = s.snk.read a

/-- R173, R115, R116: `ENC.PUT` raises `ABSENT_SYMBOL` for a value without a code, `SNK_BOUNDS` for a codeword that does not fit, else ORs the
codeword into SNK at `BITPOS`, advances `BITPOS` by its length, and changes nothing else. -/
def Obligations.EncPutOrsTheCodeword : Prop :=
  ∀ (s : State) (v : Byte), s.Legal → s.status.codeV = true → s.status.snkV = true → s.status.snkDec = false →
    let c := s.code.at v
    let p := s.bitpos.toNat
    let stop := (p + c.len.toNat + 7) / 8
    (c.len = 0 → ∃ t, exec (.encPut v) s = .next t ∧ FaultTaken .absentSymbol (v.zeroExtend 32) s t) ∧
    (c.len ≠ 0 → s.snkSize.toNat < stop → ∃ t, exec (.encPut v) s = .next t ∧
      FaultTaken .snkBounds (BitVec.ofNat 32 (max (p / 8) s.snkSize.toNat)) s t) ∧
    (c.len ≠ 0 → stop ≤ s.snkSize.toNat → ∃ t, exec (.encPut v) s = .next t ∧
      t = { s with snk := t.snk, bitpos := t.bitpos, running := none } ∧ t.bitpos.toNat = p + c.len.toNat ∧
      (∀ a, a < p / 8 ∨ stop ≤ a → t.snk.read a = s.snk.read a) ∧
      (∀ k, k < p ∨ p + c.len.toNat ≤ k → t.snk.bit k = s.snk.bit k) ∧
      ∀ i < c.len.toNat, t.snk.bit (p + i) = (s.snk.bit (p + i) || c.codeBit i))

/-- R174, R183, R73: with a code for every input byte and room for the body, `ENC.BODY` and `ENC.BODYP` OR the concatenated codewords into
SNK from bit 2112 on, leave `BITPOS` at their end, and change nothing else. Otherwise they take, as a bulk fault, the fault of the first byte
in address order that has no code (`ABSENT_SYMBOL`) or whose codeword, from the end of the one before, does not fit (`SNK_BOUNDS`). -/
def Obligations.EncBodyWritesTheCodewordStream : Prop :=
  ∀ (s : State) (i : Instr), i = .encBody ∨ i = .encBodyp →
    s.Legal → s.status.codeV = true → s.status.snkV = true → s.status.snkDec = false →
    let stream := bodyStream s.code.at s.srcBytes
    let pos : Nat → Nat := fun k => 2112 + (bodyStream s.code.at (s.srcBytes.take k)).length
    ((∀ x ∈ s.srcBytes, (s.code.at x).len ≠ 0) → 264 + (stream.length + 7) / 8 ≤ s.snkSize.toNat →
      ∃ t, exec i s = .next t ∧ t = { s with snk := t.snk, bitpos := t.bitpos, running := none } ∧
        t.bitpos.toNat = 2112 + stream.length ∧
        (∀ a, a < 264 ∨ 264 + (stream.length + 7) / 8 ≤ a → t.snk.read a = s.snk.read a) ∧
        (∀ k, k < 2112 ∨ 2112 + stream.length ≤ k → t.snk.bit k = s.snk.bit k) ∧
        ∀ k (h : k < stream.length), t.snk.bit (2112 + k) = (s.snk.bit (2112 + k) || stream[k])) ∧
    ∀ k < s.srcSize.toNat,
      (∀ j < k, (s.code.at (s.src.read j)).len ≠ 0 ∧ (pos (j + 1) + 7) / 8 ≤ s.snkSize.toNat) →
      ((s.code.at (s.src.read k)).len = 0 → ∃ t, exec i s = .next t ∧
        BulkFaultTaken .absentSymbol ((s.src.read k).zeroExtend 32) s t) ∧
      ((s.code.at (s.src.read k)).len ≠ 0 → s.snkSize.toNat < (pos (k + 1) + 7) / 8 → ∃ t, exec i s = .next t ∧
        BulkFaultTaken .snkBounds (BitVec.ofNat 32 (max (pos k / 8) s.snkSize.toNat)) s t)

/-- R182: for every page size, threshold, lane count, assignment of pages and interleaving, `ENC.BODYP` ends in the same state and SNK
contents as `ENC.BODY`, or takes the same fault (after which the region of SNK is unspecified, R253). -/
def Obligations.EncBodypEqualsEncBody : Prop :=
  ∀ s t : State, s.Legal → s.status.fault = false → exec .encBody s = .next t →
    (t.status.fault = false → exec .encBodyp s = .next t) ∧
    ∃ u, exec .encBodyp s = .next u ∧ u = { t with snk := u.snk, free := u.free }

/-- R184, R185, R186, R175: `ENCODE` and `ENCODEP` of a container that fits `SNK_CAP` never fault: they leave in SNK exactly the container of the
input under the lengths of `PM.RUN` on its histogram, zero-padded, with the flags of R184, and nothing else changed. Of one that does not
fit they take `IO_FAILURE`, the effects of `FT.SCAN`, `PM.RUN` and `CB.BUILD` remaining. -/
def Obligations.EncodeWritesTheContainer : Prop :=
  ∀ (s : State) (i : Instr), i = .encode ∨ i = .encodep → s.Legal → s.status.fault = false →
    ∃ u t, execAll [.ftScan, .pmRun, .cbBuild] s = .next u ∧ exec i s = .next t ∧
      let need := 264 + ((allBytes.map (fun v => s.srcBytes.count v * u.lenOf v)).sum + 7) / 8
      (s.snkCap.toNat < need → FaultTaken .ioFailure (BitVec.ofNat 32 need) u t) ∧
      (need ≤ s.snkCap.toNat →
        t = { u with
          encBits := t.encBits, snkSize := t.snkSize, snk := t.snk, bitpos := t.bitpos,
          status := { s.status with
            codeV := true, dtblV := false, snkV := true, snkDec := false, expanded := decide (s.srcSize.toNat < need) } } ∧
        t.snkSize.toNat = need ∧ t.bitpos.toNat = 2112 + t.encBits.toNat ∧
        HoldsContainer t.snk need u.lenOf s.srcBytes ∧ ZeroPadded t.snk need u.lenOf s.srcBytes ∧
        ∀ a, need ≤ a → t.snk.read a = s.snk.read a)

/-- R184, R148: `ENCODE` and `ENCODEP` complete, with no fault, whenever `SNK_CAP` has room for a header and a byte for each input byte. -/
def Obligations.EncodeCompletesWithRoom : Prop :=
  ∀ (s : State) (i : Instr), i = .encode ∨ i = .encodep → s.Legal → s.status.fault = false →
    264 + s.srcSize.toNat ≤ s.snkCap.toNat →
    ∃ t, exec i s = .next t ∧ t.status.fault = false ∧ t.snkSize.toNat ≤ 264 + s.srcSize.toNat

/-- R185: `ENCODEP` ends as `ENCODE` does from the same start: the same state, or the same fault with the same registers. -/
def Obligations.EncodepEqualsEncode : Prop :=
  ∀ s t : State, s.Legal → s.status.fault = false → exec .encode s = .next t →
    (t.status.fault = false → exec .encodep s = .next t) ∧
    ∃ u, exec .encodep s = .next u ∧ u = { t with snk := u.snk, free := u.free }

/-! ### Decoder -/

/-- R200, R201: the header checks, in order, each with its cause and information word, and what a header that passes them all loads. -/
def Obligations.DecHdrChecksAndLoads : Prop :=
  ∀ s : State,
    let size := ((List.range 8).map (fun a => (s.src.read a).toNat * 2 ^ (8 * a))).sum
    let len : Byte → Nat := fun v => (s.src.read (8 + v.toNat)).toNat
    (s.srcSize.toNat < 264 → ∃ t, exec .decHdr s = .next t ∧ FaultTaken (.malformedHeader .short) s.srcSize s t) ∧
    (264 ≤ s.srcSize.toNat →
      (∀ v : Byte, 16 < len v → (∀ u : Byte, u.toNat < v.toNat → len u ≤ 16) →
        ∃ t, exec .decHdr s = .next t ∧ FaultTaken (.malformedHeader .lenRange) (v.zeroExtend 32) s t) ∧
      ((∀ v, len v ≤ 16) →
        (present len = [] → size ≠ 0 →
          ∃ t, exec .decHdr s = .next t ∧ FaultTaken (.malformedHeader .emptyNonzero) (BitVec.ofNat 32 size) s t) ∧
        ((∃ v, present len = [v] ∧ len v ≠ 1) ∨ (2 ≤ (present len).length ∧ kraftSum len ≠ 65536) →
          ∃ t, exec .decHdr s = .next t ∧ FaultTaken (.malformedHeader .kraft) (BitVec.ofNat 32 (kraftSum len)) s t) ∧
        (2 ≤ (present len).length → kraftSum len = 65536 →
          ∀ v : Byte, 8 < len v → (∀ u : Byte, u.toNat < v.toNat → len u ≤ 8) →
          ∃ t, exec .decHdr s = .next t ∧ FaultTaken .lengthExceedsWindow (v.zeroExtend 32) s t) ∧
        (HeaderLengthsValid len size →
          ∃ t, exec .decHdr s = .next t ∧
            t = { s with
              orig := t.orig, lens := t.lens, nsym := t.nsym, running := none,
              status := { s.status with hdrV := true, codeV := false, dtblV := false } } ∧
            t.orig.toNat = size ∧ t.nsym.toNat = (present len).length ∧ ∀ v, (t.lens.at v).toNat = len v)))

/-- R202, R205: `DEC.TBL` raises `LENGTH_EXCEEDS_WINDOW` for the first code in canonical order longer than 8; else it fills `DTBL` so that every
window that begins with the codeword of v holds (v, its length), sets `DTBL_V`, and changes nothing else. With no present value
every entry is (0, 0). The third premise is the field `codeBuilt` of `State.Inv`, which every step keeps (EveryStepKeepsTheInvariant). -/
def Obligations.DecTblResolvesEveryCodeword : Prop :=
  ∀ s : State, s.Legal → s.status.codeV = true → (∀ v, s.code.at v = canonicalCode s.lenOf v) →
    (∀ v ∈ (canonicalOrder s.lenOf).find? (fun c => 8 < s.lenOf c),
      ∃ t, exec .decTbl s = .next t ∧ FaultTaken .lengthExceedsWindow (v.zeroExtend 32) s t) ∧
    ((∀ v, s.lenOf v ≤ 8) →
      ∃ t, exec .decTbl s = .next t ∧
        t = { s with dtbl := t.dtbl, running := none, status := { s.status with dtblV := true } } ∧
        (∀ (v w : Byte), s.lenOf v ≠ 0 → w.toNat / 2 ^ (8 - s.lenOf v) = (s.code.at v).val.toNat →
          t.dtbl.at w = ⟨v, s.lens.at v⟩) ∧
        (present s.lenOf = [] → ∀ w, t.dtbl.at w = ⟨0, 0⟩) ∧
        (∀ v ∈ (canonicalOrder s.lenOf).getLast?, ∀ w : Byte,
          (s.code.at v).val.toNat * 2 ^ (8 - s.lenOf v) ≤ w.toNat → t.dtbl.at w = ⟨v, s.lens.at v⟩))

/-- R204, R79: `DEC.ALLOC` raises `IO_FAILURE` when `ORIG` exceeds `SNK_CAP`; else it allocates and zero-fills `ORIG` bytes, sets the cursors
and the flags, and changes nothing else. -/
def Obligations.DecAllocSizesTheSink : Prop :=
  ∀ s : State, s.status.hdrV = true →
    (s.snkCap.toNat < s.orig.toNat →
      ∃ t, exec .decAlloc s = .next t ∧ FaultTaken .ioFailure (BitVec.ofNat 32 s.orig.toNat) s t) ∧
    (s.orig.toNat ≤ s.snkCap.toNat → ∃ t, exec .decAlloc s = .next t ∧
      t = { s with
        snkSize := t.snkSize, snk := t.snk, bitpos := 2112, outpos := 0, running := none,
        status := { s.status with snkV := true, snkDec := true } } ∧
      t.snkSize.toNat = s.orig.toNat ∧ ∀ a, t.snk.read a = if a < s.orig.toNat then 0 else s.snk.read a)

/-- R208, R209: `DEC.GET`: its faults in the order of the rule, and the symbol it writes at `OUTPOS`, with both cursors advanced and nothing
else changed. The window is the 8 stream bits at `BITPOS`, bits beyond SRC taken as 0. -/
def Obligations.DecGetDecodesOneSymbol : Prop :=
  ∀ s : State, s.Legal → s.status.dtblV = true → s.status.snkV = true → s.status.snkDec = true →
    let p := s.bitpos.toNat
    let e := s.dtbl.at (s.window p)
    (s.snkSize.toNat ≤ s.outpos.toNat → ∃ t, exec .decGet s = .next t ∧ FaultTaken .snkBounds s.outpos s t) ∧
    (s.outpos.toNat < s.snkSize.toNat →
      (8 * s.srcSize.toNat ≤ p →
        ∃ t, exec .decGet s = .next t ∧ FaultTaken (.malformedHeader .bodyUnderrun) (BitVec.ofNat 32 p) s t) ∧
      (p < 8 * s.srcSize.toNat →
        (∀ i < 8, (s.window p).getLsbD (7 - i) = (decide (p + i < 8 * s.srcSize.toNat) && s.src.bit (p + i))) ∧
        (e.len = 0 → ∃ t, exec .decGet s = .next t ∧
          FaultTaken (.malformedHeader .noCode) ((s.window p).zeroExtend 32) s t) ∧
        (e.len ≠ 0 → 8 * s.srcSize.toNat < p + e.len.toNat →
          ∃ t, exec .decGet s = .next t ∧ FaultTaken (.malformedHeader .bodyUnderrun) (BitVec.ofNat 32 p) s t) ∧
        (e.len ≠ 0 → p + e.len.toNat ≤ 8 * s.srcSize.toNat → ∃ t, exec .decGet s = .next t ∧
          t = { s with snk := t.snk, outpos := t.outpos, bitpos := t.bitpos, running := none } ∧
          t.outpos.toNat = s.outpos.toNat + 1 ∧ t.bitpos.toNat = p + e.len.toNat ∧
          ∀ a, t.snk.read a = if a = s.outpos.toNat then e.val else s.snk.read a)))

/-- R210, R219, R215: when every symbol's table entry has a length and its codeword lies inside SRC, `DEC.BODY` and `DEC.BODYP` write the
`SNK_SIZE` symbols they meet from bit 2112 on and leave the cursors at the end if that end is in SRC's last byte, changing nothing else; they
raise `MALFORMED_HEADER` sub 7 if it is not. Otherwise they raise the fault of the first symbol that starts at or beyond the end of SRC (sub 5),
meets an entry with no length (sub 6), or runs beyond the end of SRC (sub 5). All of these are bulk faults. -/
def Obligations.DecBodyDecodesTheStream : Prop :=
  ∀ (s : State) (i : Instr), i = .decBody ∨ i = .decBodyp →
    s.Legal → s.status.dtblV = true → s.status.snkV = true → s.status.snkDec = true →
    let n := s.snkSize.toNat
    let good : Nat → Prop := fun k => (s.walkEntry k).len ≠ 0 ∧ s.walk (k + 1) ≤ 8 * s.srcSize.toNat
    ((∀ k < n, good k) →
      ((s.walk n + 7) / 8 = s.srcSize.toNat → ∃ t, exec i s = .next t ∧
        t = { s with snk := t.snk, outpos := s.snkSize, bitpos := t.bitpos, running := none } ∧
        t.bitpos.toNat = s.walk n ∧ ∀ a, t.snk.read a = if a < n then (s.walkEntry a).val else s.snk.read a) ∧
      ((s.walk n + 7) / 8 ≠ s.srcSize.toNat → ∃ t, exec i s = .next t ∧
        BulkFaultTaken (.malformedHeader .bodySize) (BitVec.ofNat 32 ((s.walk n + 7) / 8)) s t)) ∧
    ∀ k < n, (∀ j < k, good j) →
      (8 * s.srcSize.toNat ≤ s.walk k → ∃ t, exec i s = .next t ∧
        BulkFaultTaken (.malformedHeader .bodyUnderrun) (BitVec.ofNat 32 (s.walk k)) s t) ∧
      (s.walk k < 8 * s.srcSize.toNat → (s.walkEntry k).len = 0 → ∃ t, exec i s = .next t ∧
        BulkFaultTaken (.malformedHeader .noCode) ((s.window (s.walk k)).zeroExtend 32) s t) ∧
      (s.walk k < 8 * s.srcSize.toNat → (s.walkEntry k).len ≠ 0 → 8 * s.srcSize.toNat < s.walk (k + 1) →
        ∃ t, exec i s = .next t ∧
          BulkFaultTaken (.malformedHeader .bodyUnderrun) (BitVec.ofNat 32 (s.walk k)) s t)

/-- R218, R253: for every page size, threshold, lane count, assignment of pages and interleaving, `DEC.BODYP` ends in the same state and SNK
contents as `DEC.BODY`, or takes the same fault; where its paged form faults, nothing has been written. -/
def Obligations.DecBodypEqualsDecBody : Prop :=
  ∀ s t : State, s.Legal → s.status.fault = false → exec .decBody s = .next t →
    (t.status.fault = false → exec .decBodyp s = .next t) ∧
    ∃ u, exec .decBodyp s = .next u ∧ u = { t with snk := u.snk, free := u.free } ∧
      (u.status.fault = true → s.params.decParMin ≤ s.snkSize.toNat → u.snk = s.snk ∧ u.free = s.free)

/-- R220, R211, R205, R166: on a memory that holds the container of some bytes under valid lengths, whatever its padding bits, `DECODE` and
`DECODEP` complete without a fault when the sink has room: they leave exactly those bytes in SNK, with the flags of R220. -/
def Obligations.DecodeReadsTheContainer : Prop :=
  ∀ (s : State) (i : Instr) (len : Byte → Nat) (xs : List Byte), i = .decode ∨ i = .decodep → s.Legal → s.status.fault = false →
    HeaderLengthsValid len xs.length → (∀ x ∈ xs, len x ≠ 0) → HoldsContainer s.src s.srcSize.toNat len xs →
    xs.length ≤ s.snkCap.toNat →
    ∃ t, exec i s = .next t ∧
      t = { s with
        orig := t.orig, lens := t.lens, code := t.code, dtbl := t.dtbl, nsym := t.nsym, snkSize := t.snkSize,
        snk := t.snk, bitpos := t.bitpos, outpos := t.snkSize, running := none,
        status := { s.status with hdrV := true, codeV := true, dtblV := true, snkV := true, snkDec := true } } ∧
      t.orig.toNat = xs.length ∧ t.snkSize.toNat = xs.length ∧
      t.bitpos.toNat = 2112 + (bodyStream (canonicalCode len) xs).length ∧ (∀ v, (t.lens.at v).toNat = len v) ∧
      ∀ a, t.snk.read a = xs.getD a (s.snk.read a)

/-- R221: `DECODEP` ends as `DECODE` does from the same start: the same state, or the same fault with the same registers. -/
def Obligations.DecodepEqualsDecode : Prop :=
  ∀ s t : State, s.Legal → s.status.fault = false → exec .decode s = .next t →
    (t.status.fault = false → exec .decodep s = .next t) ∧
    ∃ u, exec .decodep s = .next u ∧ u = { t with snk := u.snk, free := u.free }

/-- R222: decoding what `ENCODE` or `ENCODEP` produced gives the input back. -/
def Obligations.RoundTripRestoresTheInput : Prop :=
  ∀ (s t u : State) (enc dec : Instr), s.Legal → s.status.fault = false →
    enc = .encode ∨ enc = .encodep → dec = .decode ∨ dec = .decodep →
    exec enc s = .next t → t.status.fault = false →
    u.Legal → u.status.fault = false → u.srcSize = t.snkSize →
    (∀ a < t.snkSize.toNat, u.src.read a = t.snk.read a) → s.srcSize.toNat ≤ u.snkCap.toNat →
    ∃ w, exec dec u = .next w ∧ w.status.fault = false ∧ w.snkSize = s.srcSize ∧
      ∀ a < s.srcSize.toNat, w.snk.read a = s.src.read a

/-- R298: from the state an allocation leaves (the cursors at the start, the prerequisites met), `ENC.PUT` of each input byte leaves what
`ENC.BODY` leaves; `SNK_SIZE` times `DEC.GET` leaves what `DEC.BODY` leaves, but that `DEC.BODY` also makes the final `BODY_SIZE` check;
`BV.LDC v; BV.COPY` and a host write of `BITPOS` leave what `ENC.PUT v` leaves, but for `BV`. -/
def Obligations.SingleStepsReproduceTheBulkCommands : Prop :=
  (∀ s t : State, s.status.fault = false → s.status.codeV = true → s.status.snkV = true → s.status.snkDec = false →
    s.bitpos = 2112 → s.running = none → t.status.fault = false →
    (execAll (s.srcBytes.map .encPut) s = .next t ↔ exec .encBody s = .next t)) ∧
  (∀ s t : State, s.status.fault = false → s.status.dtblV = true → s.status.snkV = true → s.status.snkDec = true →
    s.bitpos = 2112 → s.outpos = 0 → s.running = none → t.status.fault = false →
    (exec .decBody s = .next t → execAll (List.replicate s.snkSize.toNat .decGet) s = .next t) ∧
    (execAll (List.replicate s.snkSize.toNat .decGet) s = .next t → exec .decBody s = .next t ∨
      ∃ u, exec .decBody s = .next u ∧
        BulkFaultTaken (.malformedHeader .bodySize) (BitVec.ofNat 32 ((t.bitpos.toNat + 7) / 8)) s u)) ∧
  ∀ (s t : State) (v : Byte), s.status.fault = false → s.running = none → exec (.encPut v) s = .next t →
    t.status.fault = false →
    ∃ u, execAll [.bvLdc v, .bvCopy] s = .next u ∧
      { u with bitpos := BitVec.ofNat 64 (s.bitpos.toNat + (s.code.at v).len.toNat) } = { t with bv := s.code.at v }
end

