-- ==== Sys2Proof/Laws/State.lean ====
section
/-! SUPPORT. One lemma per field per register update: what each named update of Machine/Ops.lean and Machine/Port.lean leaves in each
field of the state, so that no proof unfolds a record update. -/

namespace Sys2Proof.Machine

/-! ### setBv -/

@[simp] theorem setBv_status (s : State) (b : BV) : (s.setBv b).status = s.status := rfl
@[simp] theorem setBv_faultCause (s : State) (b : BV) : (s.setBv b).faultCause = s.faultCause := rfl
@[simp] theorem setBv_faultInfo (s : State) (b : BV) : (s.setBv b).faultInfo = s.faultInfo := rfl
@[simp] theorem setBv_srcSize (s : State) (b : BV) : (s.setBv b).srcSize = s.srcSize := rfl
@[simp] theorem setBv_snkCap (s : State) (b : BV) : (s.setBv b).snkCap = s.snkCap := rfl
@[simp] theorem setBv_snkSize (s : State) (b : BV) : (s.setBv b).snkSize = s.snkSize := rfl
@[simp] theorem setBv_orig (s : State) (b : BV) : (s.setBv b).orig = s.orig := rfl
@[simp] theorem setBv_bitpos (s : State) (b : BV) : (s.setBv b).bitpos = s.bitpos := rfl
@[simp] theorem setBv_outpos (s : State) (b : BV) : (s.setBv b).outpos = s.outpos := rfl
@[simp] theorem setBv_bv (s : State) (b : BV) : (s.setBv b).bv = b := rfl
@[simp] theorem setBv_nsym (s : State) (b : BV) : (s.setBv b).nsym = s.nsym := rfl
@[simp] theorem setBv_encBits (s : State) (b : BV) : (s.setBv b).encBits = s.encBits := rfl
@[simp] theorem setBv_freq (s : State) (b : BV) : (s.setBv b).freq = s.freq := rfl
@[simp] theorem setBv_lens (s : State) (b : BV) : (s.setBv b).lens = s.lens := rfl
@[simp] theorem setBv_code (s : State) (b : BV) : (s.setBv b).code = s.code := rfl
@[simp] theorem setBv_dtbl (s : State) (b : BV) : (s.setBv b).dtbl = s.dtbl := rfl
@[simp] theorem setBv_running (s : State) (b : BV) : (s.setBv b).running = s.running := rfl
@[simp] theorem setBv_src (s : State) (b : BV) : (s.setBv b).src = s.src := rfl
@[simp] theorem setBv_snk (s : State) (b : BV) : (s.setBv b).snk = s.snk := rfl
@[simp] theorem setBv_params (s : State) (b : BV) : (s.setBv b).params = s.params := rfl
@[simp] theorem setBv_sched (s : State) (b : BV) : (s.setBv b).sched = s.sched := rfl
@[simp] theorem setBv_host (s : State) (b : BV) : (s.setBv b).host = s.host := rfl
@[simp] theorem setBv_rdata (s : State) (b : BV) : (s.setBv b).rdata = s.rdata := rfl
@[simp] theorem setBv_free (s : State) (b : BV) : (s.setBv b).free = s.free := rfl

/-! ### setFreq -/

@[simp] theorem setFreq_status (s : State) (t : Table Word) : (s.setFreq t).status = s.status := rfl
@[simp] theorem setFreq_faultCause (s : State) (t : Table Word) : (s.setFreq t).faultCause = s.faultCause := rfl
@[simp] theorem setFreq_faultInfo (s : State) (t : Table Word) : (s.setFreq t).faultInfo = s.faultInfo := rfl
@[simp] theorem setFreq_srcSize (s : State) (t : Table Word) : (s.setFreq t).srcSize = s.srcSize := rfl
@[simp] theorem setFreq_snkCap (s : State) (t : Table Word) : (s.setFreq t).snkCap = s.snkCap := rfl
@[simp] theorem setFreq_snkSize (s : State) (t : Table Word) : (s.setFreq t).snkSize = s.snkSize := rfl
@[simp] theorem setFreq_orig (s : State) (t : Table Word) : (s.setFreq t).orig = s.orig := rfl
@[simp] theorem setFreq_bitpos (s : State) (t : Table Word) : (s.setFreq t).bitpos = s.bitpos := rfl
@[simp] theorem setFreq_outpos (s : State) (t : Table Word) : (s.setFreq t).outpos = s.outpos := rfl
@[simp] theorem setFreq_bv (s : State) (t : Table Word) : (s.setFreq t).bv = s.bv := rfl
@[simp] theorem setFreq_nsym (s : State) (t : Table Word) : (s.setFreq t).nsym = s.nsym := rfl
@[simp] theorem setFreq_encBits (s : State) (t : Table Word) : (s.setFreq t).encBits = s.encBits := rfl
@[simp] theorem setFreq_freq (s : State) (t : Table Word) : (s.setFreq t).freq = t := rfl
@[simp] theorem setFreq_lens (s : State) (t : Table Word) : (s.setFreq t).lens = s.lens := rfl
@[simp] theorem setFreq_code (s : State) (t : Table Word) : (s.setFreq t).code = s.code := rfl
@[simp] theorem setFreq_dtbl (s : State) (t : Table Word) : (s.setFreq t).dtbl = s.dtbl := rfl
@[simp] theorem setFreq_running (s : State) (t : Table Word) : (s.setFreq t).running = s.running := rfl
@[simp] theorem setFreq_src (s : State) (t : Table Word) : (s.setFreq t).src = s.src := rfl
@[simp] theorem setFreq_snk (s : State) (t : Table Word) : (s.setFreq t).snk = s.snk := rfl
@[simp] theorem setFreq_params (s : State) (t : Table Word) : (s.setFreq t).params = s.params := rfl
@[simp] theorem setFreq_sched (s : State) (t : Table Word) : (s.setFreq t).sched = s.sched := rfl
@[simp] theorem setFreq_host (s : State) (t : Table Word) : (s.setFreq t).host = s.host := rfl
@[simp] theorem setFreq_rdata (s : State) (t : Table Word) : (s.setFreq t).rdata = s.rdata := rfl
@[simp] theorem setFreq_free (s : State) (t : Table Word) : (s.setFreq t).free = s.free := rfl

/-! ### setLens -/

@[simp] theorem setLens_status (s : State) (t : Table (BitVec 5)) (n : Nat) : (s.setLens t n).status = { s.status with codeV := false, dtblV := false } := rfl
@[simp] theorem setLens_faultCause (s : State) (t : Table (BitVec 5)) (n : Nat) : (s.setLens t n).faultCause = s.faultCause := rfl
@[simp] theorem setLens_faultInfo (s : State) (t : Table (BitVec 5)) (n : Nat) : (s.setLens t n).faultInfo = s.faultInfo := rfl
@[simp] theorem setLens_srcSize (s : State) (t : Table (BitVec 5)) (n : Nat) : (s.setLens t n).srcSize = s.srcSize := rfl
@[simp] theorem setLens_snkCap (s : State) (t : Table (BitVec 5)) (n : Nat) : (s.setLens t n).snkCap = s.snkCap := rfl
@[simp] theorem setLens_snkSize (s : State) (t : Table (BitVec 5)) (n : Nat) : (s.setLens t n).snkSize = s.snkSize := rfl
@[simp] theorem setLens_orig (s : State) (t : Table (BitVec 5)) (n : Nat) : (s.setLens t n).orig = s.orig := rfl
@[simp] theorem setLens_bitpos (s : State) (t : Table (BitVec 5)) (n : Nat) : (s.setLens t n).bitpos = s.bitpos := rfl
@[simp] theorem setLens_outpos (s : State) (t : Table (BitVec 5)) (n : Nat) : (s.setLens t n).outpos = s.outpos := rfl
@[simp] theorem setLens_bv (s : State) (t : Table (BitVec 5)) (n : Nat) : (s.setLens t n).bv = s.bv := rfl
@[simp] theorem setLens_nsym (s : State) (t : Table (BitVec 5)) (n : Nat) : (s.setLens t n).nsym = BitVec.ofNat 9 n := rfl
@[simp] theorem setLens_encBits (s : State) (t : Table (BitVec 5)) (n : Nat) : (s.setLens t n).encBits = s.encBits := rfl
@[simp] theorem setLens_freq (s : State) (t : Table (BitVec 5)) (n : Nat) : (s.setLens t n).freq = s.freq := rfl
@[simp] theorem setLens_lens (s : State) (t : Table (BitVec 5)) (n : Nat) : (s.setLens t n).lens = t := rfl
@[simp] theorem setLens_code (s : State) (t : Table (BitVec 5)) (n : Nat) : (s.setLens t n).code = s.code := rfl
@[simp] theorem setLens_dtbl (s : State) (t : Table (BitVec 5)) (n : Nat) : (s.setLens t n).dtbl = s.dtbl := rfl
@[simp] theorem setLens_running (s : State) (t : Table (BitVec 5)) (n : Nat) : (s.setLens t n).running = s.running := rfl
@[simp] theorem setLens_src (s : State) (t : Table (BitVec 5)) (n : Nat) : (s.setLens t n).src = s.src := rfl
@[simp] theorem setLens_snk (s : State) (t : Table (BitVec 5)) (n : Nat) : (s.setLens t n).snk = s.snk := rfl
@[simp] theorem setLens_params (s : State) (t : Table (BitVec 5)) (n : Nat) : (s.setLens t n).params = s.params := rfl
@[simp] theorem setLens_sched (s : State) (t : Table (BitVec 5)) (n : Nat) : (s.setLens t n).sched = s.sched := rfl
@[simp] theorem setLens_host (s : State) (t : Table (BitVec 5)) (n : Nat) : (s.setLens t n).host = s.host := rfl
@[simp] theorem setLens_rdata (s : State) (t : Table (BitVec 5)) (n : Nat) : (s.setLens t n).rdata = s.rdata := rfl
@[simp] theorem setLens_free (s : State) (t : Table (BitVec 5)) (n : Nat) : (s.setLens t n).free = s.free := rfl

/-! ### setCode -/

@[simp] theorem setCode_status (s : State) (t : Table BV) (n : Nat) : (s.setCode t n).status = { s.status with codeV := true, dtblV := false } := rfl
@[simp] theorem setCode_faultCause (s : State) (t : Table BV) (n : Nat) : (s.setCode t n).faultCause = s.faultCause := rfl
@[simp] theorem setCode_faultInfo (s : State) (t : Table BV) (n : Nat) : (s.setCode t n).faultInfo = s.faultInfo := rfl
@[simp] theorem setCode_srcSize (s : State) (t : Table BV) (n : Nat) : (s.setCode t n).srcSize = s.srcSize := rfl
@[simp] theorem setCode_snkCap (s : State) (t : Table BV) (n : Nat) : (s.setCode t n).snkCap = s.snkCap := rfl
@[simp] theorem setCode_snkSize (s : State) (t : Table BV) (n : Nat) : (s.setCode t n).snkSize = s.snkSize := rfl
@[simp] theorem setCode_orig (s : State) (t : Table BV) (n : Nat) : (s.setCode t n).orig = s.orig := rfl
@[simp] theorem setCode_bitpos (s : State) (t : Table BV) (n : Nat) : (s.setCode t n).bitpos = s.bitpos := rfl
@[simp] theorem setCode_outpos (s : State) (t : Table BV) (n : Nat) : (s.setCode t n).outpos = s.outpos := rfl
@[simp] theorem setCode_bv (s : State) (t : Table BV) (n : Nat) : (s.setCode t n).bv = s.bv := rfl
@[simp] theorem setCode_nsym (s : State) (t : Table BV) (n : Nat) : (s.setCode t n).nsym = BitVec.ofNat 9 n := rfl
@[simp] theorem setCode_encBits (s : State) (t : Table BV) (n : Nat) : (s.setCode t n).encBits = s.encBits := rfl
@[simp] theorem setCode_freq (s : State) (t : Table BV) (n : Nat) : (s.setCode t n).freq = s.freq := rfl
@[simp] theorem setCode_lens (s : State) (t : Table BV) (n : Nat) : (s.setCode t n).lens = s.lens := rfl
@[simp] theorem setCode_code (s : State) (t : Table BV) (n : Nat) : (s.setCode t n).code = t := rfl
@[simp] theorem setCode_dtbl (s : State) (t : Table BV) (n : Nat) : (s.setCode t n).dtbl = s.dtbl := rfl
@[simp] theorem setCode_running (s : State) (t : Table BV) (n : Nat) : (s.setCode t n).running = s.running := rfl
@[simp] theorem setCode_src (s : State) (t : Table BV) (n : Nat) : (s.setCode t n).src = s.src := rfl
@[simp] theorem setCode_snk (s : State) (t : Table BV) (n : Nat) : (s.setCode t n).snk = s.snk := rfl
@[simp] theorem setCode_params (s : State) (t : Table BV) (n : Nat) : (s.setCode t n).params = s.params := rfl
@[simp] theorem setCode_sched (s : State) (t : Table BV) (n : Nat) : (s.setCode t n).sched = s.sched := rfl
@[simp] theorem setCode_host (s : State) (t : Table BV) (n : Nat) : (s.setCode t n).host = s.host := rfl
@[simp] theorem setCode_rdata (s : State) (t : Table BV) (n : Nat) : (s.setCode t n).rdata = s.rdata := rfl
@[simp] theorem setCode_free (s : State) (t : Table BV) (n : Nat) : (s.setCode t n).free = s.free := rfl

/-! ### allocEnc -/

@[simp] theorem allocEnc_status (s : State) (bits need : Nat) (big : Bool) : (s.allocEnc bits need big).status = { s.status with snkV := true, snkDec := false, expanded := big } := rfl
@[simp] theorem allocEnc_faultCause (s : State) (bits need : Nat) (big : Bool) : (s.allocEnc bits need big).faultCause = s.faultCause := rfl
@[simp] theorem allocEnc_faultInfo (s : State) (bits need : Nat) (big : Bool) : (s.allocEnc bits need big).faultInfo = s.faultInfo := rfl
@[simp] theorem allocEnc_srcSize (s : State) (bits need : Nat) (big : Bool) : (s.allocEnc bits need big).srcSize = s.srcSize := rfl
@[simp] theorem allocEnc_snkCap (s : State) (bits need : Nat) (big : Bool) : (s.allocEnc bits need big).snkCap = s.snkCap := rfl
@[simp] theorem allocEnc_snkSize (s : State) (bits need : Nat) (big : Bool) : (s.allocEnc bits need big).snkSize = low32 need := rfl
@[simp] theorem allocEnc_orig (s : State) (bits need : Nat) (big : Bool) : (s.allocEnc bits need big).orig = s.orig := rfl
@[simp] theorem allocEnc_bitpos (s : State) (bits need : Nat) (big : Bool) : (s.allocEnc bits need big).bitpos = BitVec.ofNat 64 Config.hdrBits := rfl
@[simp] theorem allocEnc_outpos (s : State) (bits need : Nat) (big : Bool) : (s.allocEnc bits need big).outpos = s.outpos := rfl
@[simp] theorem allocEnc_bv (s : State) (bits need : Nat) (big : Bool) : (s.allocEnc bits need big).bv = s.bv := rfl
@[simp] theorem allocEnc_nsym (s : State) (bits need : Nat) (big : Bool) : (s.allocEnc bits need big).nsym = s.nsym := rfl
@[simp] theorem allocEnc_encBits (s : State) (bits need : Nat) (big : Bool) : (s.allocEnc bits need big).encBits = BitVec.ofNat 64 bits := rfl
@[simp] theorem allocEnc_freq (s : State) (bits need : Nat) (big : Bool) : (s.allocEnc bits need big).freq = s.freq := rfl
@[simp] theorem allocEnc_lens (s : State) (bits need : Nat) (big : Bool) : (s.allocEnc bits need big).lens = s.lens := rfl
@[simp] theorem allocEnc_code (s : State) (bits need : Nat) (big : Bool) : (s.allocEnc bits need big).code = s.code := rfl
@[simp] theorem allocEnc_dtbl (s : State) (bits need : Nat) (big : Bool) : (s.allocEnc bits need big).dtbl = s.dtbl := rfl
@[simp] theorem allocEnc_running (s : State) (bits need : Nat) (big : Bool) : (s.allocEnc bits need big).running = s.running := rfl
@[simp] theorem allocEnc_src (s : State) (bits need : Nat) (big : Bool) : (s.allocEnc bits need big).src = s.src := rfl
@[simp] theorem allocEnc_snk (s : State) (bits need : Nat) (big : Bool) : (s.allocEnc bits need big).snk = s.snk.zeroBelow need := rfl
@[simp] theorem allocEnc_params (s : State) (bits need : Nat) (big : Bool) : (s.allocEnc bits need big).params = s.params := rfl
@[simp] theorem allocEnc_sched (s : State) (bits need : Nat) (big : Bool) : (s.allocEnc bits need big).sched = s.sched := rfl
@[simp] theorem allocEnc_host (s : State) (bits need : Nat) (big : Bool) : (s.allocEnc bits need big).host = s.host := rfl
@[simp] theorem allocEnc_rdata (s : State) (bits need : Nat) (big : Bool) : (s.allocEnc bits need big).rdata = s.rdata := rfl
@[simp] theorem allocEnc_free (s : State) (bits need : Nat) (big : Bool) : (s.allocEnc bits need big).free = s.free := rfl

/-! ### setSnk -/

@[simp] theorem setSnk_status (s : State) (m : Mem) : (s.setSnk m).status = s.status := rfl
@[simp] theorem setSnk_faultCause (s : State) (m : Mem) : (s.setSnk m).faultCause = s.faultCause := rfl
@[simp] theorem setSnk_faultInfo (s : State) (m : Mem) : (s.setSnk m).faultInfo = s.faultInfo := rfl
@[simp] theorem setSnk_srcSize (s : State) (m : Mem) : (s.setSnk m).srcSize = s.srcSize := rfl
@[simp] theorem setSnk_snkCap (s : State) (m : Mem) : (s.setSnk m).snkCap = s.snkCap := rfl
@[simp] theorem setSnk_snkSize (s : State) (m : Mem) : (s.setSnk m).snkSize = s.snkSize := rfl
@[simp] theorem setSnk_orig (s : State) (m : Mem) : (s.setSnk m).orig = s.orig := rfl
@[simp] theorem setSnk_bitpos (s : State) (m : Mem) : (s.setSnk m).bitpos = s.bitpos := rfl
@[simp] theorem setSnk_outpos (s : State) (m : Mem) : (s.setSnk m).outpos = s.outpos := rfl
@[simp] theorem setSnk_bv (s : State) (m : Mem) : (s.setSnk m).bv = s.bv := rfl
@[simp] theorem setSnk_nsym (s : State) (m : Mem) : (s.setSnk m).nsym = s.nsym := rfl
@[simp] theorem setSnk_encBits (s : State) (m : Mem) : (s.setSnk m).encBits = s.encBits := rfl
@[simp] theorem setSnk_freq (s : State) (m : Mem) : (s.setSnk m).freq = s.freq := rfl
@[simp] theorem setSnk_lens (s : State) (m : Mem) : (s.setSnk m).lens = s.lens := rfl
@[simp] theorem setSnk_code (s : State) (m : Mem) : (s.setSnk m).code = s.code := rfl
@[simp] theorem setSnk_dtbl (s : State) (m : Mem) : (s.setSnk m).dtbl = s.dtbl := rfl
@[simp] theorem setSnk_running (s : State) (m : Mem) : (s.setSnk m).running = s.running := rfl
@[simp] theorem setSnk_src (s : State) (m : Mem) : (s.setSnk m).src = s.src := rfl
@[simp] theorem setSnk_snk (s : State) (m : Mem) : (s.setSnk m).snk = m := rfl
@[simp] theorem setSnk_params (s : State) (m : Mem) : (s.setSnk m).params = s.params := rfl
@[simp] theorem setSnk_sched (s : State) (m : Mem) : (s.setSnk m).sched = s.sched := rfl
@[simp] theorem setSnk_host (s : State) (m : Mem) : (s.setSnk m).host = s.host := rfl
@[simp] theorem setSnk_rdata (s : State) (m : Mem) : (s.setSnk m).rdata = s.rdata := rfl
@[simp] theorem setSnk_free (s : State) (m : Mem) : (s.setSnk m).free = s.free := rfl

/-! ### setSnkPos -/

@[simp] theorem setSnkPos_status (s : State) (m : Mem) (pos : Nat) : (s.setSnkPos m pos).status = s.status := rfl
@[simp] theorem setSnkPos_faultCause (s : State) (m : Mem) (pos : Nat) : (s.setSnkPos m pos).faultCause = s.faultCause := rfl
@[simp] theorem setSnkPos_faultInfo (s : State) (m : Mem) (pos : Nat) : (s.setSnkPos m pos).faultInfo = s.faultInfo := rfl
@[simp] theorem setSnkPos_srcSize (s : State) (m : Mem) (pos : Nat) : (s.setSnkPos m pos).srcSize = s.srcSize := rfl
@[simp] theorem setSnkPos_snkCap (s : State) (m : Mem) (pos : Nat) : (s.setSnkPos m pos).snkCap = s.snkCap := rfl
@[simp] theorem setSnkPos_snkSize (s : State) (m : Mem) (pos : Nat) : (s.setSnkPos m pos).snkSize = s.snkSize := rfl
@[simp] theorem setSnkPos_orig (s : State) (m : Mem) (pos : Nat) : (s.setSnkPos m pos).orig = s.orig := rfl
@[simp] theorem setSnkPos_bitpos (s : State) (m : Mem) (pos : Nat) : (s.setSnkPos m pos).bitpos = BitVec.ofNat 64 pos := rfl
@[simp] theorem setSnkPos_outpos (s : State) (m : Mem) (pos : Nat) : (s.setSnkPos m pos).outpos = s.outpos := rfl
@[simp] theorem setSnkPos_bv (s : State) (m : Mem) (pos : Nat) : (s.setSnkPos m pos).bv = s.bv := rfl
@[simp] theorem setSnkPos_nsym (s : State) (m : Mem) (pos : Nat) : (s.setSnkPos m pos).nsym = s.nsym := rfl
@[simp] theorem setSnkPos_encBits (s : State) (m : Mem) (pos : Nat) : (s.setSnkPos m pos).encBits = s.encBits := rfl
@[simp] theorem setSnkPos_freq (s : State) (m : Mem) (pos : Nat) : (s.setSnkPos m pos).freq = s.freq := rfl
@[simp] theorem setSnkPos_lens (s : State) (m : Mem) (pos : Nat) : (s.setSnkPos m pos).lens = s.lens := rfl
@[simp] theorem setSnkPos_code (s : State) (m : Mem) (pos : Nat) : (s.setSnkPos m pos).code = s.code := rfl
@[simp] theorem setSnkPos_dtbl (s : State) (m : Mem) (pos : Nat) : (s.setSnkPos m pos).dtbl = s.dtbl := rfl
@[simp] theorem setSnkPos_running (s : State) (m : Mem) (pos : Nat) : (s.setSnkPos m pos).running = s.running := rfl
@[simp] theorem setSnkPos_src (s : State) (m : Mem) (pos : Nat) : (s.setSnkPos m pos).src = s.src := rfl
@[simp] theorem setSnkPos_snk (s : State) (m : Mem) (pos : Nat) : (s.setSnkPos m pos).snk = m := rfl
@[simp] theorem setSnkPos_params (s : State) (m : Mem) (pos : Nat) : (s.setSnkPos m pos).params = s.params := rfl
@[simp] theorem setSnkPos_sched (s : State) (m : Mem) (pos : Nat) : (s.setSnkPos m pos).sched = s.sched := rfl
@[simp] theorem setSnkPos_host (s : State) (m : Mem) (pos : Nat) : (s.setSnkPos m pos).host = s.host := rfl
@[simp] theorem setSnkPos_rdata (s : State) (m : Mem) (pos : Nat) : (s.setSnkPos m pos).rdata = s.rdata := rfl
@[simp] theorem setSnkPos_free (s : State) (m : Mem) (pos : Nat) : (s.setSnkPos m pos).free = s.free := rfl

/-! ### loadHeader -/

@[simp] theorem loadHeader_status (s : State) (orig : Nat) (t : Table (BitVec 5)) (n : Nat) : (s.loadHeader orig t n).status = { s.status with hdrV := true, codeV := false, dtblV := false } := rfl
@[simp] theorem loadHeader_faultCause (s : State) (orig : Nat) (t : Table (BitVec 5)) (n : Nat) : (s.loadHeader orig t n).faultCause = s.faultCause := rfl
@[simp] theorem loadHeader_faultInfo (s : State) (orig : Nat) (t : Table (BitVec 5)) (n : Nat) : (s.loadHeader orig t n).faultInfo = s.faultInfo := rfl
@[simp] theorem loadHeader_srcSize (s : State) (orig : Nat) (t : Table (BitVec 5)) (n : Nat) : (s.loadHeader orig t n).srcSize = s.srcSize := rfl
@[simp] theorem loadHeader_snkCap (s : State) (orig : Nat) (t : Table (BitVec 5)) (n : Nat) : (s.loadHeader orig t n).snkCap = s.snkCap := rfl
@[simp] theorem loadHeader_snkSize (s : State) (orig : Nat) (t : Table (BitVec 5)) (n : Nat) : (s.loadHeader orig t n).snkSize = s.snkSize := rfl
@[simp] theorem loadHeader_orig (s : State) (orig : Nat) (t : Table (BitVec 5)) (n : Nat) : (s.loadHeader orig t n).orig = BitVec.ofNat 64 orig := rfl
@[simp] theorem loadHeader_bitpos (s : State) (orig : Nat) (t : Table (BitVec 5)) (n : Nat) : (s.loadHeader orig t n).bitpos = s.bitpos := rfl
@[simp] theorem loadHeader_outpos (s : State) (orig : Nat) (t : Table (BitVec 5)) (n : Nat) : (s.loadHeader orig t n).outpos = s.outpos := rfl
@[simp] theorem loadHeader_bv (s : State) (orig : Nat) (t : Table (BitVec 5)) (n : Nat) : (s.loadHeader orig t n).bv = s.bv := rfl
@[simp] theorem loadHeader_nsym (s : State) (orig : Nat) (t : Table (BitVec 5)) (n : Nat) : (s.loadHeader orig t n).nsym = BitVec.ofNat 9 n := rfl
@[simp] theorem loadHeader_encBits (s : State) (orig : Nat) (t : Table (BitVec 5)) (n : Nat) : (s.loadHeader orig t n).encBits = s.encBits := rfl
@[simp] theorem loadHeader_freq (s : State) (orig : Nat) (t : Table (BitVec 5)) (n : Nat) : (s.loadHeader orig t n).freq = s.freq := rfl
@[simp] theorem loadHeader_lens (s : State) (orig : Nat) (t : Table (BitVec 5)) (n : Nat) : (s.loadHeader orig t n).lens = t := rfl
@[simp] theorem loadHeader_code (s : State) (orig : Nat) (t : Table (BitVec 5)) (n : Nat) : (s.loadHeader orig t n).code = s.code := rfl
@[simp] theorem loadHeader_dtbl (s : State) (orig : Nat) (t : Table (BitVec 5)) (n : Nat) : (s.loadHeader orig t n).dtbl = s.dtbl := rfl
@[simp] theorem loadHeader_running (s : State) (orig : Nat) (t : Table (BitVec 5)) (n : Nat) : (s.loadHeader orig t n).running = s.running := rfl
@[simp] theorem loadHeader_src (s : State) (orig : Nat) (t : Table (BitVec 5)) (n : Nat) : (s.loadHeader orig t n).src = s.src := rfl
@[simp] theorem loadHeader_snk (s : State) (orig : Nat) (t : Table (BitVec 5)) (n : Nat) : (s.loadHeader orig t n).snk = s.snk := rfl
@[simp] theorem loadHeader_params (s : State) (orig : Nat) (t : Table (BitVec 5)) (n : Nat) : (s.loadHeader orig t n).params = s.params := rfl
@[simp] theorem loadHeader_sched (s : State) (orig : Nat) (t : Table (BitVec 5)) (n : Nat) : (s.loadHeader orig t n).sched = s.sched := rfl
@[simp] theorem loadHeader_host (s : State) (orig : Nat) (t : Table (BitVec 5)) (n : Nat) : (s.loadHeader orig t n).host = s.host := rfl
@[simp] theorem loadHeader_rdata (s : State) (orig : Nat) (t : Table (BitVec 5)) (n : Nat) : (s.loadHeader orig t n).rdata = s.rdata := rfl
@[simp] theorem loadHeader_free (s : State) (orig : Nat) (t : Table (BitVec 5)) (n : Nat) : (s.loadHeader orig t n).free = s.free := rfl

/-! ### setDtbl -/

@[simp] theorem setDtbl_status (s : State) (t : Table DEntry) : (s.setDtbl t).status = { s.status with dtblV := true } := rfl
@[simp] theorem setDtbl_faultCause (s : State) (t : Table DEntry) : (s.setDtbl t).faultCause = s.faultCause := rfl
@[simp] theorem setDtbl_faultInfo (s : State) (t : Table DEntry) : (s.setDtbl t).faultInfo = s.faultInfo := rfl
@[simp] theorem setDtbl_srcSize (s : State) (t : Table DEntry) : (s.setDtbl t).srcSize = s.srcSize := rfl
@[simp] theorem setDtbl_snkCap (s : State) (t : Table DEntry) : (s.setDtbl t).snkCap = s.snkCap := rfl
@[simp] theorem setDtbl_snkSize (s : State) (t : Table DEntry) : (s.setDtbl t).snkSize = s.snkSize := rfl
@[simp] theorem setDtbl_orig (s : State) (t : Table DEntry) : (s.setDtbl t).orig = s.orig := rfl
@[simp] theorem setDtbl_bitpos (s : State) (t : Table DEntry) : (s.setDtbl t).bitpos = s.bitpos := rfl
@[simp] theorem setDtbl_outpos (s : State) (t : Table DEntry) : (s.setDtbl t).outpos = s.outpos := rfl
@[simp] theorem setDtbl_bv (s : State) (t : Table DEntry) : (s.setDtbl t).bv = s.bv := rfl
@[simp] theorem setDtbl_nsym (s : State) (t : Table DEntry) : (s.setDtbl t).nsym = s.nsym := rfl
@[simp] theorem setDtbl_encBits (s : State) (t : Table DEntry) : (s.setDtbl t).encBits = s.encBits := rfl
@[simp] theorem setDtbl_freq (s : State) (t : Table DEntry) : (s.setDtbl t).freq = s.freq := rfl
@[simp] theorem setDtbl_lens (s : State) (t : Table DEntry) : (s.setDtbl t).lens = s.lens := rfl
@[simp] theorem setDtbl_code (s : State) (t : Table DEntry) : (s.setDtbl t).code = s.code := rfl
@[simp] theorem setDtbl_dtbl (s : State) (t : Table DEntry) : (s.setDtbl t).dtbl = t := rfl
@[simp] theorem setDtbl_running (s : State) (t : Table DEntry) : (s.setDtbl t).running = s.running := rfl
@[simp] theorem setDtbl_src (s : State) (t : Table DEntry) : (s.setDtbl t).src = s.src := rfl
@[simp] theorem setDtbl_snk (s : State) (t : Table DEntry) : (s.setDtbl t).snk = s.snk := rfl
@[simp] theorem setDtbl_params (s : State) (t : Table DEntry) : (s.setDtbl t).params = s.params := rfl
@[simp] theorem setDtbl_sched (s : State) (t : Table DEntry) : (s.setDtbl t).sched = s.sched := rfl
@[simp] theorem setDtbl_host (s : State) (t : Table DEntry) : (s.setDtbl t).host = s.host := rfl
@[simp] theorem setDtbl_rdata (s : State) (t : Table DEntry) : (s.setDtbl t).rdata = s.rdata := rfl
@[simp] theorem setDtbl_free (s : State) (t : Table DEntry) : (s.setDtbl t).free = s.free := rfl

/-! ### allocDec -/

@[simp] theorem allocDec_status (s : State) : s.allocDec.status = { s.status with snkV := true, snkDec := true } := rfl
@[simp] theorem allocDec_faultCause (s : State) : s.allocDec.faultCause = s.faultCause := rfl
@[simp] theorem allocDec_faultInfo (s : State) : s.allocDec.faultInfo = s.faultInfo := rfl
@[simp] theorem allocDec_srcSize (s : State) : s.allocDec.srcSize = s.srcSize := rfl
@[simp] theorem allocDec_snkCap (s : State) : s.allocDec.snkCap = s.snkCap := rfl
@[simp] theorem allocDec_snkSize (s : State) : s.allocDec.snkSize = s.orig.truncate 32 := rfl
@[simp] theorem allocDec_orig (s : State) : s.allocDec.orig = s.orig := rfl
@[simp] theorem allocDec_bitpos (s : State) : s.allocDec.bitpos = BitVec.ofNat 64 Config.hdrBits := rfl
@[simp] theorem allocDec_outpos (s : State) : s.allocDec.outpos = 0 := rfl
@[simp] theorem allocDec_bv (s : State) : s.allocDec.bv = s.bv := rfl
@[simp] theorem allocDec_nsym (s : State) : s.allocDec.nsym = s.nsym := rfl
@[simp] theorem allocDec_encBits (s : State) : s.allocDec.encBits = s.encBits := rfl
@[simp] theorem allocDec_freq (s : State) : s.allocDec.freq = s.freq := rfl
@[simp] theorem allocDec_lens (s : State) : s.allocDec.lens = s.lens := rfl
@[simp] theorem allocDec_code (s : State) : s.allocDec.code = s.code := rfl
@[simp] theorem allocDec_dtbl (s : State) : s.allocDec.dtbl = s.dtbl := rfl
@[simp] theorem allocDec_running (s : State) : s.allocDec.running = s.running := rfl
@[simp] theorem allocDec_src (s : State) : s.allocDec.src = s.src := rfl
@[simp] theorem allocDec_snk (s : State) : s.allocDec.snk = s.snk.zeroBelow (s.orig.truncate 32).toNat := rfl
@[simp] theorem allocDec_params (s : State) : s.allocDec.params = s.params := rfl
@[simp] theorem allocDec_sched (s : State) : s.allocDec.sched = s.sched := rfl
@[simp] theorem allocDec_host (s : State) : s.allocDec.host = s.host := rfl
@[simp] theorem allocDec_rdata (s : State) : s.allocDec.rdata = s.rdata := rfl
@[simp] theorem allocDec_free (s : State) : s.allocDec.free = s.free := rfl

/-! ### emit -/

@[simp] theorem emit_status (s : State) (m : Mem) (out pos : Nat) : (s.emit m out pos).status = s.status := rfl
@[simp] theorem emit_faultCause (s : State) (m : Mem) (out pos : Nat) : (s.emit m out pos).faultCause = s.faultCause := rfl
@[simp] theorem emit_faultInfo (s : State) (m : Mem) (out pos : Nat) : (s.emit m out pos).faultInfo = s.faultInfo := rfl
@[simp] theorem emit_srcSize (s : State) (m : Mem) (out pos : Nat) : (s.emit m out pos).srcSize = s.srcSize := rfl
@[simp] theorem emit_snkCap (s : State) (m : Mem) (out pos : Nat) : (s.emit m out pos).snkCap = s.snkCap := rfl
@[simp] theorem emit_snkSize (s : State) (m : Mem) (out pos : Nat) : (s.emit m out pos).snkSize = s.snkSize := rfl
@[simp] theorem emit_orig (s : State) (m : Mem) (out pos : Nat) : (s.emit m out pos).orig = s.orig := rfl
@[simp] theorem emit_bitpos (s : State) (m : Mem) (out pos : Nat) : (s.emit m out pos).bitpos = BitVec.ofNat 64 pos := rfl
@[simp] theorem emit_outpos (s : State) (m : Mem) (out pos : Nat) : (s.emit m out pos).outpos = BitVec.ofNat 32 out := rfl
@[simp] theorem emit_bv (s : State) (m : Mem) (out pos : Nat) : (s.emit m out pos).bv = s.bv := rfl
@[simp] theorem emit_nsym (s : State) (m : Mem) (out pos : Nat) : (s.emit m out pos).nsym = s.nsym := rfl
@[simp] theorem emit_encBits (s : State) (m : Mem) (out pos : Nat) : (s.emit m out pos).encBits = s.encBits := rfl
@[simp] theorem emit_freq (s : State) (m : Mem) (out pos : Nat) : (s.emit m out pos).freq = s.freq := rfl
@[simp] theorem emit_lens (s : State) (m : Mem) (out pos : Nat) : (s.emit m out pos).lens = s.lens := rfl
@[simp] theorem emit_code (s : State) (m : Mem) (out pos : Nat) : (s.emit m out pos).code = s.code := rfl
@[simp] theorem emit_dtbl (s : State) (m : Mem) (out pos : Nat) : (s.emit m out pos).dtbl = s.dtbl := rfl
@[simp] theorem emit_running (s : State) (m : Mem) (out pos : Nat) : (s.emit m out pos).running = s.running := rfl
@[simp] theorem emit_src (s : State) (m : Mem) (out pos : Nat) : (s.emit m out pos).src = s.src := rfl
@[simp] theorem emit_snk (s : State) (m : Mem) (out pos : Nat) : (s.emit m out pos).snk = m := rfl
@[simp] theorem emit_params (s : State) (m : Mem) (out pos : Nat) : (s.emit m out pos).params = s.params := rfl
@[simp] theorem emit_sched (s : State) (m : Mem) (out pos : Nat) : (s.emit m out pos).sched = s.sched := rfl
@[simp] theorem emit_host (s : State) (m : Mem) (out pos : Nat) : (s.emit m out pos).host = s.host := rfl
@[simp] theorem emit_rdata (s : State) (m : Mem) (out pos : Nat) : (s.emit m out pos).rdata = s.rdata := rfl
@[simp] theorem emit_free (s : State) (m : Mem) (out pos : Nat) : (s.emit m out pos).free = s.free := rfl

/-! ### retire -/

@[simp] theorem retire_status (s : State) : s.retire.status = s.status := rfl
@[simp] theorem retire_faultCause (s : State) : s.retire.faultCause = s.faultCause := rfl
@[simp] theorem retire_faultInfo (s : State) : s.retire.faultInfo = s.faultInfo := rfl
@[simp] theorem retire_srcSize (s : State) : s.retire.srcSize = s.srcSize := rfl
@[simp] theorem retire_snkCap (s : State) : s.retire.snkCap = s.snkCap := rfl
@[simp] theorem retire_snkSize (s : State) : s.retire.snkSize = s.snkSize := rfl
@[simp] theorem retire_orig (s : State) : s.retire.orig = s.orig := rfl
@[simp] theorem retire_bitpos (s : State) : s.retire.bitpos = s.bitpos := rfl
@[simp] theorem retire_outpos (s : State) : s.retire.outpos = s.outpos := rfl
@[simp] theorem retire_bv (s : State) : s.retire.bv = s.bv := rfl
@[simp] theorem retire_nsym (s : State) : s.retire.nsym = s.nsym := rfl
@[simp] theorem retire_encBits (s : State) : s.retire.encBits = s.encBits := rfl
@[simp] theorem retire_freq (s : State) : s.retire.freq = s.freq := rfl
@[simp] theorem retire_lens (s : State) : s.retire.lens = s.lens := rfl
@[simp] theorem retire_code (s : State) : s.retire.code = s.code := rfl
@[simp] theorem retire_dtbl (s : State) : s.retire.dtbl = s.dtbl := rfl
@[simp] theorem retire_running (s : State) : s.retire.running = none := rfl
@[simp] theorem retire_src (s : State) : s.retire.src = s.src := rfl
@[simp] theorem retire_snk (s : State) : s.retire.snk = s.snk := rfl
@[simp] theorem retire_params (s : State) : s.retire.params = s.params := rfl
@[simp] theorem retire_sched (s : State) : s.retire.sched = s.sched := rfl
@[simp] theorem retire_host (s : State) : s.retire.host = s.host := rfl
@[simp] theorem retire_rdata (s : State) : s.retire.rdata = s.rdata := rfl
@[simp] theorem retire_free (s : State) : s.retire.free = s.free := rfl

/-! ### dropCmd -/

@[simp] theorem dropCmd_status (s : State) : s.dropCmd.status = { s.status with cmdDropped := true } := rfl
@[simp] theorem dropCmd_faultCause (s : State) : s.dropCmd.faultCause = s.faultCause := rfl
@[simp] theorem dropCmd_faultInfo (s : State) : s.dropCmd.faultInfo = s.faultInfo := rfl
@[simp] theorem dropCmd_srcSize (s : State) : s.dropCmd.srcSize = s.srcSize := rfl
@[simp] theorem dropCmd_snkCap (s : State) : s.dropCmd.snkCap = s.snkCap := rfl
@[simp] theorem dropCmd_snkSize (s : State) : s.dropCmd.snkSize = s.snkSize := rfl
@[simp] theorem dropCmd_orig (s : State) : s.dropCmd.orig = s.orig := rfl
@[simp] theorem dropCmd_bitpos (s : State) : s.dropCmd.bitpos = s.bitpos := rfl
@[simp] theorem dropCmd_outpos (s : State) : s.dropCmd.outpos = s.outpos := rfl
@[simp] theorem dropCmd_bv (s : State) : s.dropCmd.bv = s.bv := rfl
@[simp] theorem dropCmd_nsym (s : State) : s.dropCmd.nsym = s.nsym := rfl
@[simp] theorem dropCmd_encBits (s : State) : s.dropCmd.encBits = s.encBits := rfl
@[simp] theorem dropCmd_freq (s : State) : s.dropCmd.freq = s.freq := rfl
@[simp] theorem dropCmd_lens (s : State) : s.dropCmd.lens = s.lens := rfl
@[simp] theorem dropCmd_code (s : State) : s.dropCmd.code = s.code := rfl
@[simp] theorem dropCmd_dtbl (s : State) : s.dropCmd.dtbl = s.dtbl := rfl
@[simp] theorem dropCmd_running (s : State) : s.dropCmd.running = s.running := rfl
@[simp] theorem dropCmd_src (s : State) : s.dropCmd.src = s.src := rfl
@[simp] theorem dropCmd_snk (s : State) : s.dropCmd.snk = s.snk := rfl
@[simp] theorem dropCmd_params (s : State) : s.dropCmd.params = s.params := rfl
@[simp] theorem dropCmd_sched (s : State) : s.dropCmd.sched = s.sched := rfl
@[simp] theorem dropCmd_host (s : State) : s.dropCmd.host = s.host := rfl
@[simp] theorem dropCmd_rdata (s : State) : s.dropCmd.rdata = s.rdata := rfl
@[simp] theorem dropCmd_free (s : State) : s.dropCmd.free = s.free := rfl

/-! ### accept -/

@[simp] theorem accept_status (s : State) (w : Word) : (s.accept w).status = s.status := rfl
@[simp] theorem accept_faultCause (s : State) (w : Word) : (s.accept w).faultCause = s.faultCause := rfl
@[simp] theorem accept_faultInfo (s : State) (w : Word) : (s.accept w).faultInfo = s.faultInfo := rfl
@[simp] theorem accept_srcSize (s : State) (w : Word) : (s.accept w).srcSize = s.srcSize := rfl
@[simp] theorem accept_snkCap (s : State) (w : Word) : (s.accept w).snkCap = s.snkCap := rfl
@[simp] theorem accept_snkSize (s : State) (w : Word) : (s.accept w).snkSize = s.snkSize := rfl
@[simp] theorem accept_orig (s : State) (w : Word) : (s.accept w).orig = s.orig := rfl
@[simp] theorem accept_bitpos (s : State) (w : Word) : (s.accept w).bitpos = s.bitpos := rfl
@[simp] theorem accept_outpos (s : State) (w : Word) : (s.accept w).outpos = s.outpos := rfl
@[simp] theorem accept_bv (s : State) (w : Word) : (s.accept w).bv = s.bv := rfl
@[simp] theorem accept_nsym (s : State) (w : Word) : (s.accept w).nsym = s.nsym := rfl
@[simp] theorem accept_encBits (s : State) (w : Word) : (s.accept w).encBits = s.encBits := rfl
@[simp] theorem accept_freq (s : State) (w : Word) : (s.accept w).freq = s.freq := rfl
@[simp] theorem accept_lens (s : State) (w : Word) : (s.accept w).lens = s.lens := rfl
@[simp] theorem accept_code (s : State) (w : Word) : (s.accept w).code = s.code := rfl
@[simp] theorem accept_dtbl (s : State) (w : Word) : (s.accept w).dtbl = s.dtbl := rfl
@[simp] theorem accept_running (s : State) (w : Word) : (s.accept w).running = some w := rfl
@[simp] theorem accept_src (s : State) (w : Word) : (s.accept w).src = s.src := rfl
@[simp] theorem accept_snk (s : State) (w : Word) : (s.accept w).snk = s.snk := rfl
@[simp] theorem accept_params (s : State) (w : Word) : (s.accept w).params = s.params := rfl
@[simp] theorem accept_sched (s : State) (w : Word) : (s.accept w).sched = s.sched := rfl
@[simp] theorem accept_host (s : State) (w : Word) : (s.accept w).host = s.host := rfl
@[simp] theorem accept_rdata (s : State) (w : Word) : (s.accept w).rdata = s.rdata := rfl
@[simp] theorem accept_free (s : State) (w : Word) : (s.accept w).free = s.free := rfl

/-! ### setRdata -/

@[simp] theorem setRdata_status (s : State) (w : Word) : (s.setRdata w).status = s.status := rfl
@[simp] theorem setRdata_faultCause (s : State) (w : Word) : (s.setRdata w).faultCause = s.faultCause := rfl
@[simp] theorem setRdata_faultInfo (s : State) (w : Word) : (s.setRdata w).faultInfo = s.faultInfo := rfl
@[simp] theorem setRdata_srcSize (s : State) (w : Word) : (s.setRdata w).srcSize = s.srcSize := rfl
@[simp] theorem setRdata_snkCap (s : State) (w : Word) : (s.setRdata w).snkCap = s.snkCap := rfl
@[simp] theorem setRdata_snkSize (s : State) (w : Word) : (s.setRdata w).snkSize = s.snkSize := rfl
@[simp] theorem setRdata_orig (s : State) (w : Word) : (s.setRdata w).orig = s.orig := rfl
@[simp] theorem setRdata_bitpos (s : State) (w : Word) : (s.setRdata w).bitpos = s.bitpos := rfl
@[simp] theorem setRdata_outpos (s : State) (w : Word) : (s.setRdata w).outpos = s.outpos := rfl
@[simp] theorem setRdata_bv (s : State) (w : Word) : (s.setRdata w).bv = s.bv := rfl
@[simp] theorem setRdata_nsym (s : State) (w : Word) : (s.setRdata w).nsym = s.nsym := rfl
@[simp] theorem setRdata_encBits (s : State) (w : Word) : (s.setRdata w).encBits = s.encBits := rfl
@[simp] theorem setRdata_freq (s : State) (w : Word) : (s.setRdata w).freq = s.freq := rfl
@[simp] theorem setRdata_lens (s : State) (w : Word) : (s.setRdata w).lens = s.lens := rfl
@[simp] theorem setRdata_code (s : State) (w : Word) : (s.setRdata w).code = s.code := rfl
@[simp] theorem setRdata_dtbl (s : State) (w : Word) : (s.setRdata w).dtbl = s.dtbl := rfl
@[simp] theorem setRdata_running (s : State) (w : Word) : (s.setRdata w).running = s.running := rfl
@[simp] theorem setRdata_src (s : State) (w : Word) : (s.setRdata w).src = s.src := rfl
@[simp] theorem setRdata_snk (s : State) (w : Word) : (s.setRdata w).snk = s.snk := rfl
@[simp] theorem setRdata_params (s : State) (w : Word) : (s.setRdata w).params = s.params := rfl
@[simp] theorem setRdata_sched (s : State) (w : Word) : (s.setRdata w).sched = s.sched := rfl
@[simp] theorem setRdata_host (s : State) (w : Word) : (s.setRdata w).host = s.host := rfl
@[simp] theorem setRdata_rdata (s : State) (w : Word) : (s.setRdata w).rdata = w := rfl
@[simp] theorem setRdata_free (s : State) (w : Word) : (s.setRdata w).free = s.free := rfl

/-! ### loseSink -/

@[simp] theorem loseSink_status (s : State) (n : Nat) : (s.loseSink n).status = s.status := rfl
@[simp] theorem loseSink_faultCause (s : State) (n : Nat) : (s.loseSink n).faultCause = s.faultCause := rfl
@[simp] theorem loseSink_faultInfo (s : State) (n : Nat) : (s.loseSink n).faultInfo = s.faultInfo := rfl
@[simp] theorem loseSink_srcSize (s : State) (n : Nat) : (s.loseSink n).srcSize = s.srcSize := rfl
@[simp] theorem loseSink_snkCap (s : State) (n : Nat) : (s.loseSink n).snkCap = s.snkCap := rfl
@[simp] theorem loseSink_snkSize (s : State) (n : Nat) : (s.loseSink n).snkSize = s.snkSize := rfl
@[simp] theorem loseSink_orig (s : State) (n : Nat) : (s.loseSink n).orig = s.orig := rfl
@[simp] theorem loseSink_bitpos (s : State) (n : Nat) : (s.loseSink n).bitpos = s.bitpos := rfl
@[simp] theorem loseSink_outpos (s : State) (n : Nat) : (s.loseSink n).outpos = s.outpos := rfl
@[simp] theorem loseSink_bv (s : State) (n : Nat) : (s.loseSink n).bv = s.bv := rfl
@[simp] theorem loseSink_nsym (s : State) (n : Nat) : (s.loseSink n).nsym = s.nsym := rfl
@[simp] theorem loseSink_encBits (s : State) (n : Nat) : (s.loseSink n).encBits = s.encBits := rfl
@[simp] theorem loseSink_freq (s : State) (n : Nat) : (s.loseSink n).freq = s.freq := rfl
@[simp] theorem loseSink_lens (s : State) (n : Nat) : (s.loseSink n).lens = s.lens := rfl
@[simp] theorem loseSink_code (s : State) (n : Nat) : (s.loseSink n).code = s.code := rfl
@[simp] theorem loseSink_dtbl (s : State) (n : Nat) : (s.loseSink n).dtbl = s.dtbl := rfl
@[simp] theorem loseSink_running (s : State) (n : Nat) : (s.loseSink n).running = s.running := rfl
@[simp] theorem loseSink_src (s : State) (n : Nat) : (s.loseSink n).src = s.src := rfl
@[simp] theorem loseSink_snk (s : State) (n : Nat) : (s.loseSink n).snk = s.snk.fillBelow n (Config.freeSinkByte s.free) := rfl
@[simp] theorem loseSink_params (s : State) (n : Nat) : (s.loseSink n).params = s.params := rfl
@[simp] theorem loseSink_sched (s : State) (n : Nat) : (s.loseSink n).sched = s.sched := rfl
@[simp] theorem loseSink_host (s : State) (n : Nat) : (s.loseSink n).host = s.host := rfl
@[simp] theorem loseSink_rdata (s : State) (n : Nat) : (s.loseSink n).rdata = s.rdata := rfl
@[simp] theorem loseSink_free (s : State) (n : Nat) : (s.loseSink n).free = s.free + 1 := rfl

/-! ### popHost -/

@[simp] theorem popHost_status (s : State) (rest : List HostMove) : (s.popHost rest).status = s.status := rfl
@[simp] theorem popHost_faultCause (s : State) (rest : List HostMove) : (s.popHost rest).faultCause = s.faultCause := rfl
@[simp] theorem popHost_faultInfo (s : State) (rest : List HostMove) : (s.popHost rest).faultInfo = s.faultInfo := rfl
@[simp] theorem popHost_srcSize (s : State) (rest : List HostMove) : (s.popHost rest).srcSize = s.srcSize := rfl
@[simp] theorem popHost_snkCap (s : State) (rest : List HostMove) : (s.popHost rest).snkCap = s.snkCap := rfl
@[simp] theorem popHost_snkSize (s : State) (rest : List HostMove) : (s.popHost rest).snkSize = s.snkSize := rfl
@[simp] theorem popHost_orig (s : State) (rest : List HostMove) : (s.popHost rest).orig = s.orig := rfl
@[simp] theorem popHost_bitpos (s : State) (rest : List HostMove) : (s.popHost rest).bitpos = s.bitpos := rfl
@[simp] theorem popHost_outpos (s : State) (rest : List HostMove) : (s.popHost rest).outpos = s.outpos := rfl
@[simp] theorem popHost_bv (s : State) (rest : List HostMove) : (s.popHost rest).bv = s.bv := rfl
@[simp] theorem popHost_nsym (s : State) (rest : List HostMove) : (s.popHost rest).nsym = s.nsym := rfl
@[simp] theorem popHost_encBits (s : State) (rest : List HostMove) : (s.popHost rest).encBits = s.encBits := rfl
@[simp] theorem popHost_freq (s : State) (rest : List HostMove) : (s.popHost rest).freq = s.freq := rfl
@[simp] theorem popHost_lens (s : State) (rest : List HostMove) : (s.popHost rest).lens = s.lens := rfl
@[simp] theorem popHost_code (s : State) (rest : List HostMove) : (s.popHost rest).code = s.code := rfl
@[simp] theorem popHost_dtbl (s : State) (rest : List HostMove) : (s.popHost rest).dtbl = s.dtbl := rfl
@[simp] theorem popHost_running (s : State) (rest : List HostMove) : (s.popHost rest).running = s.running := rfl
@[simp] theorem popHost_src (s : State) (rest : List HostMove) : (s.popHost rest).src = s.src := rfl
@[simp] theorem popHost_snk (s : State) (rest : List HostMove) : (s.popHost rest).snk = s.snk := rfl
@[simp] theorem popHost_params (s : State) (rest : List HostMove) : (s.popHost rest).params = s.params := rfl
@[simp] theorem popHost_sched (s : State) (rest : List HostMove) : (s.popHost rest).sched = s.sched := rfl
@[simp] theorem popHost_host (s : State) (rest : List HostMove) : (s.popHost rest).host = rest := rfl
@[simp] theorem popHost_rdata (s : State) (rest : List HostMove) : (s.popHost rest).rdata = s.rdata := rfl
@[simp] theorem popHost_free (s : State) (rest : List HostMove) : (s.popHost rest).free = s.free := rfl

/-! ### takeFault -/

@[simp] theorem takeFault_status (f : FaultRec) (s : State) : (takeFault f s).status = { s.status with fault := true } := rfl
@[simp] theorem takeFault_faultCause (f : FaultRec) (s : State) : (takeFault f s).faultCause = f.cause := rfl
@[simp] theorem takeFault_faultInfo (f : FaultRec) (s : State) : (takeFault f s).faultInfo = f.info := rfl
@[simp] theorem takeFault_srcSize (f : FaultRec) (s : State) : (takeFault f s).srcSize = s.srcSize := rfl
@[simp] theorem takeFault_snkCap (f : FaultRec) (s : State) : (takeFault f s).snkCap = s.snkCap := rfl
@[simp] theorem takeFault_snkSize (f : FaultRec) (s : State) : (takeFault f s).snkSize = s.snkSize := rfl
@[simp] theorem takeFault_orig (f : FaultRec) (s : State) : (takeFault f s).orig = s.orig := rfl
@[simp] theorem takeFault_bitpos (f : FaultRec) (s : State) : (takeFault f s).bitpos = s.bitpos := rfl
@[simp] theorem takeFault_outpos (f : FaultRec) (s : State) : (takeFault f s).outpos = s.outpos := rfl
@[simp] theorem takeFault_bv (f : FaultRec) (s : State) : (takeFault f s).bv = s.bv := rfl
@[simp] theorem takeFault_nsym (f : FaultRec) (s : State) : (takeFault f s).nsym = s.nsym := rfl
@[simp] theorem takeFault_encBits (f : FaultRec) (s : State) : (takeFault f s).encBits = s.encBits := rfl
@[simp] theorem takeFault_freq (f : FaultRec) (s : State) : (takeFault f s).freq = s.freq := rfl
@[simp] theorem takeFault_lens (f : FaultRec) (s : State) : (takeFault f s).lens = s.lens := rfl
@[simp] theorem takeFault_code (f : FaultRec) (s : State) : (takeFault f s).code = s.code := rfl
@[simp] theorem takeFault_dtbl (f : FaultRec) (s : State) : (takeFault f s).dtbl = s.dtbl := rfl
@[simp] theorem takeFault_running (f : FaultRec) (s : State) : (takeFault f s).running = none := rfl
@[simp] theorem takeFault_src (f : FaultRec) (s : State) : (takeFault f s).src = s.src := rfl
@[simp] theorem takeFault_snk (f : FaultRec) (s : State) : (takeFault f s).snk = s.snk := rfl
@[simp] theorem takeFault_params (f : FaultRec) (s : State) : (takeFault f s).params = s.params := rfl
@[simp] theorem takeFault_sched (f : FaultRec) (s : State) : (takeFault f s).sched = s.sched := rfl
@[simp] theorem takeFault_host (f : FaultRec) (s : State) : (takeFault f s).host = s.host := rfl
@[simp] theorem takeFault_rdata (f : FaultRec) (s : State) : (takeFault f s).rdata = s.rdata := rfl
@[simp] theorem takeFault_free (f : FaultRec) (s : State) : (takeFault f s).free = s.free := rfl

/-! ### resetRegs -/

@[simp] theorem resetRegs_status (s : State) : s.resetRegs.status = State.reset.status := rfl
@[simp] theorem resetRegs_faultCause (s : State) : s.resetRegs.faultCause = State.reset.faultCause := rfl
@[simp] theorem resetRegs_faultInfo (s : State) : s.resetRegs.faultInfo = State.reset.faultInfo := rfl
@[simp] theorem resetRegs_srcSize (s : State) : s.resetRegs.srcSize = State.reset.srcSize := rfl
@[simp] theorem resetRegs_snkCap (s : State) : s.resetRegs.snkCap = State.reset.snkCap := rfl
@[simp] theorem resetRegs_snkSize (s : State) : s.resetRegs.snkSize = State.reset.snkSize := rfl
@[simp] theorem resetRegs_orig (s : State) : s.resetRegs.orig = State.reset.orig := rfl
@[simp] theorem resetRegs_bitpos (s : State) : s.resetRegs.bitpos = State.reset.bitpos := rfl
@[simp] theorem resetRegs_outpos (s : State) : s.resetRegs.outpos = State.reset.outpos := rfl
@[simp] theorem resetRegs_bv (s : State) : s.resetRegs.bv = State.reset.bv := rfl
@[simp] theorem resetRegs_nsym (s : State) : s.resetRegs.nsym = State.reset.nsym := rfl
@[simp] theorem resetRegs_encBits (s : State) : s.resetRegs.encBits = State.reset.encBits := rfl
@[simp] theorem resetRegs_freq (s : State) : s.resetRegs.freq = State.reset.freq := rfl
@[simp] theorem resetRegs_lens (s : State) : s.resetRegs.lens = State.reset.lens := rfl
@[simp] theorem resetRegs_code (s : State) : s.resetRegs.code = State.reset.code := rfl
@[simp] theorem resetRegs_dtbl (s : State) : s.resetRegs.dtbl = State.reset.dtbl := rfl
@[simp] theorem resetRegs_running (s : State) : s.resetRegs.running = State.reset.running := rfl
@[simp] theorem resetRegs_src (s : State) : s.resetRegs.src = s.src := rfl
@[simp] theorem resetRegs_snk (s : State) : s.resetRegs.snk = s.snk := rfl
@[simp] theorem resetRegs_params (s : State) : s.resetRegs.params = s.params := rfl
@[simp] theorem resetRegs_sched (s : State) : s.resetRegs.sched = s.sched := rfl
@[simp] theorem resetRegs_host (s : State) : s.resetRegs.host = s.host := rfl
@[simp] theorem resetRegs_rdata (s : State) : s.resetRegs.rdata = s.rdata := rfl
@[simp] theorem resetRegs_free (s : State) : s.resetRegs.free = s.free := rfl

/-! ### Runs -/

@[simp] theorem finish_ok (s : State) : finish (.ok s) = .next s.retire := rfl
@[simp] theorem finish_error (r : Raised) : finish (.error r) = .next (takeFault r.fault r.state) := rfl
@[simp] theorem raiseIn_ok {α : Type} (s : State) (x : α) : raiseIn s (.ok x) = .ok x := rfl
@[simp] theorem raiseIn_error {α : Type} (s : State) (f : FaultRec) :
    raiseIn s (.error f : Except FaultRec α) = .error ⟨f, s⟩ := rfl

/-- Every run of a command ends in a next state: after its effect, or after taking a fault (R91 step 3, R252, R297). -/
theorem finish_next (r : Run) :
    (∃ t, r = .ok t ∧ finish r = .next t.retire) ∨
      ∃ e, r = .error e ∧ finish r = .next (takeFault e.fault e.state) := by
  cases r with
  | ok t => exact .inl ⟨t, rfl, rfl⟩
  | error e => exact .inr ⟨e, rfl, rfl⟩

/-- What a sequence of two runs ending in a state means. -/
theorem bind_eq_ok {ε α β : Type} {x : Except ε α} {f : α → Except ε β} {b : β} :
    (x >>= f) = .ok b ↔ ∃ a, x = .ok a ∧ f a = .ok b := by
  cases x <;> simp [bind, Except.bind]

/-- What a sequence of two runs ending in a fault means. -/
theorem bind_eq_error {ε α β : Type} {x : Except ε α} {f : α → Except ε β} {e : ε} :
    (x >>= f) = .error e ↔ x = .error e ∨ ∃ a, x = .ok a ∧ f a = .error e := by
  cases x <;> simp [bind, Except.bind]

@[simp] theorem ok_bind {ε α β : Type} (a : α) (f : α → Except ε β) : ((.ok a : Except ε α) >>= f) = f a := rfl
@[simp] theorem error_bind {ε α β : Type} (e : ε) (f : α → Except ε β) :
    ((.error e : Except ε α) >>= f) = .error e := rfl

/-- When a pure computation's fault is raised in `s`. -/
theorem raiseIn_eq_ok {α : Type} {s : State} {x : Except FaultRec α} {a : α} : raiseIn s x = .ok a ↔ x = .ok a := by
  cases x <;> simp

theorem raiseIn_eq_error {α : Type} {s : State} {x : Except FaultRec α} {e : Raised} :
    raiseIn s x = .error e ↔ x = .error e.fault ∧ e.state = s := by
  cases x with
  | ok => simp
  | error f =>
    cases e
    simp only [raiseIn_error, Except.error.injEq, Raised.mk.injEq]
    exact and_congr Iff.rfl eq_comm

end Sys2Proof.Machine
end

