-- ==== Sys2Proof/Laws/Flags.lean ====
section
/-! SUPPORT. The flags: each bit of the `STATUS` word (R26), and what each prerequisite asks (R45, R97 step 4). -/

namespace Sys2Proof.Machine

theorem getLsbD_bit (n : Nat) (b : Bool) (k : Nat) : (bit n b).getLsbD k = (b && decide (k < 32) && decide (k = n)) := by
  cases b
  · simp [bit]
  · by_cases h : k < 32
    · by_cases e : k = n
      · subst e; simp [bit, h]
      · have : n ≤ k → k - n ≠ 0 := by omega
        simp only [bit, if_true, BitVec.getLsbD_shiftLeft, BitVec.getLsbD_one, h, e, decide_true, decide_false]
        by_cases hn : k < n
        · simp [hn]
        · simp [this (by omega)]
    · simp [h, BitVec.getLsbD_of_ge _ _ (Nat.le_of_not_lt h)]

/-- The bits of `STATUS` (R26). -/
theorem statusWord_getLsbD (s : State) (k : Nat) (hk : k < 32) : s.statusWord.getLsbD k =
    (k == 0 && s.busy || k == 1 && s.status.fault || k == 2 && s.status.expanded || k == 3 && s.status.codeV ||
      k == 4 && s.status.dtblV || k == 5 && s.status.snkV || k == 6 && s.status.snkDec || k == 7 && s.status.hdrV ||
      k == 8 && s.status.cmdDropped) := by
  simp only [State.statusWord, BitVec.getLsbD_or, getLsbD_bit, hk, decide_true, Bool.and_true, Bool.beq_eq_decide_eq]
  simp only [Bool.and_comm]

/-- A prerequisite is met, or `SEQUENCE` is raised with the mask of the wrong bits (R97 step 4). -/
theorem require_cases (r : Req) (s : State) :
    (seqMask r s = 0 ∧ require r s = .ok ()) ∨
      (seqMask r s ≠ 0 ∧ require r s = .error ⟨⟨.sequence, seqMask r s⟩, s⟩) := by
  unfold require
  by_cases h : seqMask r s = 0
  · exact .inl ⟨h, if_pos h⟩
  · exact .inr ⟨h, if_neg h⟩

/-- The bits of the `SEQUENCE` mask. -/
theorem seqMask_getLsbD (r : Req) (s : State) (k : Nat) (hk : k < 32) :
    (seqMask r s).getLsbD k =
      (r.need.getLsbD k && !s.statusWord.getLsbD k || r.clear.getLsbD k && s.statusWord.getLsbD k) := by
  simp [seqMask, hk]

theorem seqMask_eq_zero {r : Req} {s : State} : seqMask r s = 0 ↔
    ∀ k < 32, (r.need.getLsbD k = true → s.statusWord.getLsbD k = true) ∧
      (r.clear.getLsbD k = true → s.statusWord.getLsbD k = false) := by
  constructor
  · intro h k hk
    have := seqMask_getLsbD r s k hk
    rw [h] at this
    cases hn : r.need.getLsbD k <;> cases hc : r.clear.getLsbD k <;> cases hs : s.statusWord.getLsbD k <;> simp_all
  · intro h
    refine BitVec.eq_of_getLsbD_eq fun k hk => ?_
    obtain ⟨h1, h2⟩ := h k hk
    rw [seqMask_getLsbD r s k hk]
    cases hn : r.need.getLsbD k <;> cases hc : r.clear.getLsbD k <;> cases hs : s.statusWord.getLsbD k <;> simp_all

theorem require_sink {s : State} (h : s.status.snkV = true) : require reqSink s = .ok () := by
  refine if_pos (seqMask_eq_zero.2 fun k hk => ?_)
  rw [statusWord_getLsbD s k hk, h]
  interval_cases k <;> simp [reqSink]

theorem require_code {s : State} (h : s.status.codeV = true) : require reqCode s = .ok () := by
  refine if_pos (seqMask_eq_zero.2 fun k hk => ?_)
  rw [statusWord_getLsbD s k hk, h]
  interval_cases k <;> simp [reqCode]

theorem require_enc {s : State} (h1 : s.status.codeV = true) (h2 : s.status.snkV = true) (h3 : s.status.snkDec = false) :
    require reqEnc s = .ok () := by
  refine if_pos (seqMask_eq_zero.2 fun k hk => ?_)
  rw [statusWord_getLsbD s k hk, h1, h2, h3]
  interval_cases k <;> simp [reqEnc]

theorem require_hdr {s : State} (h : s.status.hdrV = true) : require reqHdr s = .ok () := by
  refine if_pos (seqMask_eq_zero.2 fun k hk => ?_)
  rw [statusWord_getLsbD s k hk, h]
  interval_cases k <;> simp [reqHdr]

theorem require_dec {s : State} (h1 : s.status.dtblV = true) (h2 : s.status.snkV = true) (h3 : s.status.snkDec = true) :
    require reqDec s = .ok () := by
  refine if_pos (seqMask_eq_zero.2 fun k hk => ?_)
  rw [statusWord_getLsbD s k hk, h1, h2, h3]
  interval_cases k <;> simp [reqDec]

end Sys2Proof.Machine
end

