-- ==== Sys2Proof/Laws/Memory.lean ====
section
/-! SUPPORT. The laws of the byte memories: what a read returns after each operation, that each operation keeps the canonical form,
and that memories in canonical form that read the same are equal. -/

namespace Sys2Proof.Machine

@[simp] theorem Mem.read_nil (a : Nat) : Mem.read [] a = 0#8 := rfl

theorem Mem.read_cons (k : Nat) (b : Byte) (m : Mem) (a : Nat) :
    Mem.read ((k, b) :: m) a = if a = k then b else m.read a := rfl

theorem Mem.wf_nil : Mem.wf [] := by simp [Mem.wf]

theorem Mem.wf_cons {k : Nat} {b : Byte} {m : Mem} :
    Mem.wf ((k, b) :: m) ↔ (∀ c ∈ m, k < c.1) ∧ k < 2 ^ 32 ∧ b ≠ 0#8 ∧ m.wf := by
  simp only [Mem.wf, List.pairwise_cons, List.forall_mem_cons]
  tauto

/-- An address that no listed byte has reads 0x00. -/
theorem Mem.read_eq_zero {m : Mem} {a : Nat} (h : ∀ c ∈ m, c.1 ≠ a) : m.read a = 0#8 := by
  induction m with
  | nil => rfl
  | cons c m ih =>
    obtain ⟨k, b⟩ := c
    rw [Mem.read_cons, if_neg (fun e => h (k, b) List.mem_cons_self e.symm)]
    exact ih (fun c hc => h c (List.mem_cons_of_mem _ hc))

/-- A write leaves every other address alone. -/
theorem Mem.read_write_ne {m : Mem} {a b : Nat} {v : Byte} (h : b ≠ a) : (m.write a v).read b = m.read b := by
  induction m with
  | nil => by_cases hv : v = 0#8 <;> simp [Mem.write, hv, Mem.read_cons, h]
  | cons c m ih =>
    obtain ⟨k, x⟩ := c
    simp only [Mem.write]
    split
    · by_cases hv : v = 0#8 <;> simp [hv, Mem.read_cons, h]
    · split
      · subst_vars
        by_cases hv : v = 0#8 <;> simp [hv, Mem.read_cons, h]
      · simp only [Mem.read_cons, ih]

/-- A read after a write to the same address gives the byte written. -/
theorem Mem.read_write_same {m : Mem} (hm : m.wf) (a : Nat) (v : Byte) : (m.write a v).read a = v := by
  induction m with
  | nil => by_cases hv : v = 0#8 <;> simp [Mem.write, hv, Mem.read_cons]
  | cons c m ih =>
    obtain ⟨k, x⟩ := c
    obtain ⟨hk, -, -, hw⟩ := Mem.wf_cons.1 hm
    simp only [Mem.write]
    split
    · rename_i hlt
      by_cases hv : v = 0#8
      · simp only [hv, if_true, Mem.read_cons]
        rw [if_neg (by omega)]
        exact Mem.read_eq_zero (fun c hc => by have := hk c hc; omega)
      · simp [hv, Mem.read_cons]
    · split
      · subst_vars
        by_cases hv : v = 0#8
        · simp only [hv, if_true]
          exact Mem.read_eq_zero (fun c hc => by have := hk c hc; omega)
        · simp [hv, Mem.read_cons]
      · rename_i h1 h2
        rw [Mem.read_cons, if_neg h2]
        exact ih hw

/-- What a read returns after a write. -/
theorem Mem.read_write {m : Mem} (hm : m.wf) (a b : Nat) (v : Byte) :
    (m.write a v).read b = if b = a then v else m.read b := by
  split
  · subst_vars; exact Mem.read_write_same hm _ v
  · exact Mem.read_write_ne ‹_›

/-- Every listed address after a write was listed before or is the address written. -/
theorem Mem.mem_write {m : Mem} {a : Nat} {v : Byte} {c : Host.Cell} (h : c ∈ m.write a v) :
    c ∈ m ∨ (c = (a, v) ∧ v ≠ 0#8) := by
  induction m with
  | nil => by_cases hv : v = 0#8 <;> simp_all [Mem.write]
  | cons d m ih =>
    obtain ⟨k, x⟩ := d
    simp only [Mem.write] at h
    split at h
    · by_cases hv : v = 0#8 <;> simp_all [or_comm]
    · split at h
      · by_cases hv : v = 0#8 <;> simp_all [or_comm]
        rcases h with h | h <;> simp [h]
      · rcases List.mem_cons.1 h with h | h
        · exact .inl (by simp [h])
        · rcases ih h with h | h
          · exact .inl (List.mem_cons_of_mem _ h)
          · exact .inr h

/-- A write keeps the canonical form. -/
theorem Mem.write_wf {m : Mem} (hm : m.wf) {a : Nat} (ha : a < 2 ^ 32) (v : Byte) : (m.write a v).wf := by
  induction m with
  | nil => by_cases hv : v = 0#8 <;> simp [Mem.write, hv, Mem.wf]; omega
  | cons c m ih =>
    obtain ⟨k, x⟩ := c
    obtain ⟨hk, hk2, hx, hw⟩ := Mem.wf_cons.1 hm
    simp only [Mem.write]
    split
    · by_cases hv : v = 0#8
      · simpa [hv] using hm
      · simp only [hv, if_false]
        refine Mem.wf_cons.2 ⟨?_, ha, hv, hm⟩
        intro c hc
        rcases List.mem_cons.1 hc with rfl | hc
        · assumption
        · have := hk c hc; omega
    · split
      · subst_vars
        by_cases hv : v = 0#8
        · simpa [hv] using hw
        · simp only [hv, if_false]
          exact Mem.wf_cons.2 ⟨hk, hk2, hv, hw⟩
      · refine Mem.wf_cons.2 ⟨?_, hk2, hx, ih hw⟩
        intro c hc
        rcases Mem.mem_write hc with hc | ⟨rfl, -⟩
        · exact hk c hc
        · show k < a; omega

/-- Two memories in canonical form that read the same everywhere are the same data. -/
theorem Mem.ext {m n : Mem} (hm : m.wf) (hn : n.wf) (h : ∀ a, m.read a = n.read a) : m = n := by
  induction m generalizing n with
  | nil =>
    cases n with
    | nil => rfl
    | cons c n =>
      obtain ⟨k, x⟩ := c
      exact absurd (by simpa [Mem.read_cons] using (h k).symm) (Mem.wf_cons.1 hn).2.2.1
  | cons c m ih =>
    obtain ⟨k, x⟩ := c
    obtain ⟨hk, -, hx, hw⟩ := Mem.wf_cons.1 hm
    cases n with
    | nil => exact absurd (by simpa [Mem.read_cons] using h k) hx
    | cons d n =>
      obtain ⟨l, y⟩ := d
      obtain ⟨hl, -, hy, hv⟩ := Mem.wf_cons.1 hn
      have zk : ∀ a ≤ k, Mem.read m a = 0#8 := fun a ha => Mem.read_eq_zero (fun c hc => by have := hk c hc; omega)
      have zl : ∀ a ≤ l, Mem.read n a = 0#8 := fun a ha => Mem.read_eq_zero (fun c hc => by have := hl c hc; omega)
      have hkl : k = l := by
        rcases Nat.lt_trichotomy k l with hlt | heq | hlt
        · have := h k
          rw [Mem.read_cons, if_pos rfl, Mem.read_cons, if_neg (by omega), zl k (by omega)] at this
          exact absurd this hx
        · exact heq
        · have := h l
          rw [Mem.read_cons, if_neg (by omega), Mem.read_cons, if_pos rfl, zk l (by omega)] at this
          exact absurd this.symm hy
      subst hkl
      have hxy : x = y := by simpa [Mem.read_cons] using h k
      subst hxy
      congr 1
      apply ih hw hv
      intro a
      by_cases ha : a = k
      · subst ha; rw [zk a (Nat.le_refl _), zl a (Nat.le_refl _)]
      · simpa [Mem.read_cons, ha] using h a

/-- What a read returns after an OR. -/
theorem Mem.read_or {m : Mem} (hm : m.wf) (a b : Nat) (v : Byte) :
    (m.or a v).read b = if b = a then m.read b ||| v else m.read b := by
  rw [Mem.or, Mem.read_write hm]
  split <;> simp_all

theorem Mem.read_or_ne {m : Mem} {a b : Nat} {v : Byte} (h : b ≠ a) : (m.or a v).read b = m.read b :=
  Mem.read_write_ne h

/-- An OR keeps the canonical form. -/
theorem Mem.or_wf {m : Mem} (hm : m.wf) {a : Nat} (ha : a < 2 ^ 32) (v : Byte) : (m.or a v).wf := Mem.write_wf hm ha _

/-- What a read returns after a zero-fill (R79). -/
theorem Mem.read_zeroBelow (n : Nat) (m : Mem) (a : Nat) :
    (m.zeroBelow n).read a = if a < n then 0#8 else m.read a := by
  induction m with
  | nil => simp [Mem.zeroBelow]
  | cons c m ih =>
    obtain ⟨k, x⟩ := c
    simp only [Mem.zeroBelow, List.filter_cons] at ih ⊢
    by_cases hk : n ≤ k
    · simp only [hk, decide_true, if_true, Mem.read_cons, ih]
      split_ifs <;> first | rfl | omega
    · simp only [hk, decide_false, Bool.false_eq_true, if_false, ih, Mem.read_cons]
      split_ifs <;> first | rfl | omega

/-- A zero-fill keeps the canonical form. -/
theorem Mem.zeroBelow_wf {m : Mem} (hm : m.wf) (n : Nat) : (m.zeroBelow n).wf :=
  ⟨hm.1.filter _, fun c hc => hm.2 c (List.mem_filter.1 hc).1⟩

theorem Mem.read_append (m n : Mem) (a : Nat) (h : ∀ c ∈ m, c.2 ≠ 0#8) :
    Mem.read (m ++ n) a = if m.read a = 0#8 then n.read a else m.read a := by
  induction m with
  | nil => simp
  | cons c m ih =>
    obtain ⟨k, x⟩ := c
    rw [List.cons_append, Mem.read_cons, Mem.read_cons, ih (fun c hc => h c (List.mem_cons_of_mem _ hc))]
    have hx : x ≠ 0#8 := h (k, x) List.mem_cons_self
    by_cases ha : a = k <;> simp [ha, hx]

/-- The cells that `f` gives to the addresses below `n`. -/
abbrev fillCells (n : Nat) (f : Nat → Byte) : Mem :=
  (List.range n).filterMap (fun a => if f a = 0#8 then none else some (a, f a))

theorem mem_fillCells {n : Nat} {f : Nat → Byte} {c : Host.Cell} :
    c ∈ fillCells n f ↔ c.1 < n ∧ c.2 = f c.1 ∧ c.2 ≠ 0#8 := by
  obtain ⟨a, v⟩ := c
  simp only [fillCells, List.mem_filterMap, List.mem_range, Option.ite_none_left_eq_some, Option.some.injEq,
    Prod.mk.injEq]
  constructor
  · rintro ⟨b, hb, hz, rfl, rfl⟩; exact ⟨hb, rfl, hz⟩
  · rintro ⟨hb, hv, hz⟩; exact ⟨a, hb, hv ▸ hz, rfl, hv.symm⟩

theorem read_fillCells (n : Nat) (f : Nat → Byte) (a : Nat) :
    (fillCells n f).read a = if a < n then f a else 0#8 := by
  induction n with
  | zero => simp [fillCells]
  | succ n ih =>
    have : fillCells (n + 1) f = fillCells n f ++ (if f n = 0#8 then [] else [(n, f n)]) := by
      simp only [fillCells, List.range_succ, List.filterMap_append]
      by_cases h : f n = 0#8 <;> simp [h]
    rw [this, Mem.read_append _ _ _ (fun c hc => (mem_fillCells.1 hc).2.2), ih]
    by_cases ha : a < n
    · have : a < n + 1 := by omega
      simp only [ha, this, if_true]
      by_cases hf : f a = 0#8
      · rw [if_pos hf, hf]
        by_cases hn : f n = 0#8 <;> simp [hn, Mem.read_cons]
        omega
      · rw [if_neg hf]
    · simp only [ha, if_false, if_true]
      by_cases hn : f n = 0#8
      · rw [if_pos hn]
        by_cases h2 : a < n + 1
        · have : a = n := by omega
          subst this; simp [hn]
        · simp [h2]
      · rw [if_neg hn, Mem.read_cons]
        by_cases h2 : a = n
        · subst h2; simp
        · rw [if_neg h2, if_neg (by omega)]; rfl

/-- What a read returns after a fill. -/
theorem Mem.read_fillBelow (n : Nat) (f : Nat → Byte) (m : Mem) (a : Nat) :
    (m.fillBelow n f).read a = if a < n then f a else m.read a := by
  rw [Mem.fillBelow, Mem.read_append _ _ _ (fun c hc => (mem_fillCells.1 hc).2.2), read_fillCells,
    Mem.read_zeroBelow]
  split_ifs <;> simp_all

/-- A fill keeps the canonical form. -/
theorem Mem.fillBelow_wf {m : Mem} (hm : m.wf) {n : Nat} (hn : n ≤ 2 ^ 32) (f : Nat → Byte) :
    (m.fillBelow n f).wf := by
  constructor
  · refine List.pairwise_append.2 ⟨?_, (Mem.zeroBelow_wf hm n).1, ?_⟩
    · refine List.Pairwise.filterMap _ ?_ (List.pairwise_lt_range)
      intro a b hab c hc d hd
      simp only [Option.ite_none_left_eq_some, Option.some.injEq] at hc hd
      obtain ⟨-, rfl⟩ := hc
      obtain ⟨-, rfl⟩ := hd
      exact hab
    · intro c hc d hd
      have h1 := (mem_fillCells.1 hc).1
      have h2 := (List.mem_filter.1 hd).2
      simp only [decide_eq_true_eq] at h2
      omega
  · intro c hc
    rcases List.mem_append.1 hc with hc | hc
    · have := mem_fillCells.1 hc
      exact ⟨by omega, this.2.2⟩
    · exact (Mem.zeroBelow_wf hm n).2 c hc

/-! ### Sequences of accesses -/

/-- The address an access touches. -/
def MemOp.addr : MemOp → Nat
  | .write a _ => a
  | .or a _ => a

/-- What an access leaves in the byte it touches, from what was there. -/
def MemOp.result : MemOp → Byte → Byte
  | .write _ v, _ => v
  | .or _ v, x => x ||| v

/-- What a read returns after an access. -/
theorem MemOp.read_apply {m : Mem} (hm : m.wf) (o : MemOp) (b : Nat) :
    (o.apply m).read b = if b = o.addr then o.result (m.read b) else m.read b := by
  cases o with
  | write a v => exact Mem.read_write hm a b v
  | or a v => exact Mem.read_or hm a b v

theorem MemOp.read_apply_ne {m : Mem} {o : MemOp} {b : Nat} (h : b ≠ o.addr) : (o.apply m).read b = m.read b := by
  cases o with
  | write a v => exact Mem.read_write_ne h
  | or a v => exact Mem.read_or_ne h

theorem MemOp.apply_wf {m : Mem} (hm : m.wf) {o : MemOp} (h : o.addr < 2 ^ 32) : (o.apply m).wf := by
  cases o with
  | write a v => exact Mem.write_wf hm h v
  | or a v => exact Mem.or_wf hm h v

@[simp] theorem applyOps_nil (m : Mem) : applyOps m [] = m := rfl
@[simp] theorem applyOps_cons (m : Mem) (o : MemOp) (os : List MemOp) :
    applyOps m (o :: os) = applyOps (o.apply m) os := rfl
@[simp] theorem applyOps_append (m : Mem) (as bs : List MemOp) :
    applyOps m (as ++ bs) = applyOps (applyOps m as) bs := List.foldl_append

/-- A sequence of accesses leaves every address it does not touch alone. -/
theorem read_applyOps_of_not_touched {ops : List MemOp} {m : Mem} {b : Nat} (h : ∀ o ∈ ops, o.addr ≠ b) :
    (applyOps m ops).read b = m.read b := by
  induction ops generalizing m with
  | nil => rfl
  | cons o os ih =>
    rw [applyOps_cons, ih (fun p hp => h p (List.mem_cons_of_mem _ hp)),
      MemOp.read_apply_ne (fun e => h o List.mem_cons_self e.symm)]

/-- A sequence of accesses inside the 32-bit space keeps the canonical form. -/
theorem applyOps_wf {ops : List MemOp} {m : Mem} (hm : m.wf) (h : ∀ o ∈ ops, o.addr < 2 ^ 32) : (applyOps m ops).wf := by
  induction ops generalizing m with
  | nil => exact hm
  | cons o os ih =>
    exact ih (MemOp.apply_wf hm (h o List.mem_cons_self)) (fun p hp => h p (List.mem_cons_of_mem _ hp))

/-- What a sequence of ORs leaves at an address: the OR of what was there and of every byte ORed in there (R66). -/
theorem read_applyOps_or {ops : List MemOp} {m : Mem} (hm : m.wf) (hr : ∀ o ∈ ops, o.addr < 2 ^ 32)
    (ho : ∀ o ∈ ops, ∃ a v, o = .or a v) (b : Nat) :
    (applyOps m ops).read b =
      ops.foldl (fun x o => match o with | .or a v => if a = b then x ||| v else x | .write _ _ => x) (m.read b) := by
  induction ops generalizing m with
  | nil => rfl
  | cons o os ih =>
    obtain ⟨a, v, rfl⟩ := ho o List.mem_cons_self
    rw [applyOps_cons, ih (MemOp.apply_wf hm (hr _ List.mem_cons_self)) (fun p hp => hr p (List.mem_cons_of_mem _ hp))
      (fun p hp => ho p (List.mem_cons_of_mem _ hp)), List.foldl_cons]
    congr 1
    show (m.or a v).read b = _
    rw [Mem.read_or hm]
    by_cases h : b = a
    · subst h; simp
    · simp [h, Ne.symm h]

/-- Two accesses whose order does not matter: both ORs, or to different addresses (R66, R217). -/
def MemOp.Commutes (o p : MemOp) : Prop := o.addr ≠ p.addr ∨ (∃ a v b w, o = .or a v ∧ p = .or b w)

theorem MemOp.apply_comm {m : Mem} (hm : m.wf) {o p : MemOp} (ho : o.addr < 2 ^ 32) (hp : p.addr < 2 ^ 32)
    (h : o.Commutes p) : o.apply (p.apply m) = p.apply (o.apply m) := by
  have h1 := MemOp.apply_wf hm hp
  have h2 := MemOp.apply_wf hm ho
  apply Mem.ext (MemOp.apply_wf h1 ho) (MemOp.apply_wf h2 hp)
  intro c
  rw [MemOp.read_apply h1, MemOp.read_apply h2, MemOp.read_apply hm, MemOp.read_apply hm]
  rcases h with h | ⟨a, v, b, w, rfl, rfl⟩
  · split_ifs <;> first | rfl | (subst_vars; contradiction)
  · rcases eq_or_ne c a with rfl | ha <;> rcases eq_or_ne c b with rfl | hb <;>
      simp_all [MemOp.addr, MemOp.result, BitVec.or_assoc, BitVec.or_comm w v]

/-- Accesses that commute pairwise may happen in any order (R66, R68). -/
theorem applyOps_perm {as bs : List MemOp} (hp : as.Perm bs) {m : Mem} (hm : m.wf)
    (hr : ∀ o ∈ as, o.addr < 2 ^ 32) (hc : as.Pairwise MemOp.Commutes) : applyOps m as = applyOps m bs := by
  have hsymm : ∀ {o p : MemOp}, o.Commutes p → p.Commutes o := by
    rintro o p (h | ⟨a, v, b, w, rfl, rfl⟩)
    · exact .inl h.symm
    · exact .inr ⟨b, w, a, v, rfl, rfl⟩
  induction hp generalizing m with
  | nil => rfl
  | cons o _ ih =>
    rw [List.pairwise_cons] at hc
    exact ih (MemOp.apply_wf hm (hr o List.mem_cons_self)) (fun p hp => hr p (List.mem_cons_of_mem _ hp)) hc.2
  | swap o p l =>
    rw [List.pairwise_cons, List.pairwise_cons] at hc
    simp only [applyOps_cons]
    rw [MemOp.apply_comm hm (hr o (by simp)) (hr p (by simp)) (hsymm (hc.1 o (by simp)))]
  | trans hp hq ih1 ih2 =>
    rw [ih1 hm hr hc]
    exact ih2 hm (fun o ho => hr o (hp.mem_iff.2 ho)) ((hp.pairwise_iff hsymm).1 hc)

end Sys2Proof.Machine
end

