-- ==== Sys2Proof/Laws/Operands.lean ====
section
/-! SUPPORT. Bit vectors and packing: what `bv_next` answers (R110), what `Pack` does to SNK, bit by bit (R115, R116), and the bits of
the decode window (R209). -/

namespace Sys2Proof.Machine

theorem ceil8_eq (x : Nat) : ceil8 x = (x + 7) / 8 := by simp [ceil8, Nat.shiftRight_eq_div_pow]

/-! ### Bit vectors -/

theorem bvZero_wf {len : BitVec 5} (h : len.toNat ≤ 16) : (bvZero len).wf := ⟨h, by simp [bvZero]⟩

/-- The three answers of `bv_next`, each exactly when the rule says (R110, R112). -/
theorem bvNext_cases (b : BV) (nl : BitVec 5) :
    (nl.toNat < b.len.toNat ∧ bvNext b nl = .error ⟨.bvShiftNeg, low32 (nl.toNat <<< 8 ||| b.len.toNat)⟩) ∨
    (b.len.toNat ≤ nl.toNat ∧ 2 ^ nl.toNat ≤ (b.val.toNat + 1) * 2 ^ (nl.toNat - b.len.toNat) ∧
      bvNext b nl = .error ⟨.bvOverflow, low32 ((b.val.toNat + 1) * 2 ^ (nl.toNat - b.len.toNat))⟩) ∨
    (b.len.toNat ≤ nl.toNat ∧ (b.val.toNat + 1) * 2 ^ (nl.toNat - b.len.toNat) < 2 ^ nl.toNat ∧
      bvNext b nl = .ok ⟨BitVec.ofNat 16 ((b.val.toNat + 1) * 2 ^ (nl.toNat - b.len.toNat)), nl⟩) := by
  unfold bvNext
  simp only [Nat.shiftLeft_eq, Nat.one_mul]
  by_cases h : nl.toNat < b.len.toNat
  · simp [h]
  · by_cases h2 : 2 ^ nl.toNat ≤ (b.val.toNat + 1) * 2 ^ (nl.toNat - b.len.toNat)
    · simp [h, h2, Nat.le_of_not_lt h]
    · simp [h, h2, Nat.le_of_not_lt h, Nat.lt_of_not_le h2]

/-- What a successor is, when there is one. -/
theorem bvNext_ok {b c : BV} {nl : BitVec 5} (hl : nl.toNat ≤ 16) (h : bvNext b nl = .ok c) :
    b.len.toNat ≤ nl.toNat ∧ c.len = nl ∧ c.val.toNat = (b.val.toNat + 1) * 2 ^ (nl.toNat - b.len.toNat) ∧
      c.val.toNat < 2 ^ nl.toNat := by
  rcases bvNext_cases b nl with ⟨_, e⟩ | ⟨_, _, e⟩ | ⟨h1, h2, e⟩
  · rw [e] at h; cases h
  · rw [e] at h; cases h
  · rw [e] at h
    obtain rfl := Except.ok.inj h
    have h3 : (b.val.toNat + 1) * 2 ^ (nl.toNat - b.len.toNat) < 2 ^ 16 :=
      h2.trans_le (Nat.pow_le_pow_right (by norm_num) hl)
    have e3 : (BitVec.ofNat 16 ((b.val.toNat + 1) * 2 ^ (nl.toNat - b.len.toNat))).toNat
        = (b.val.toNat + 1) * 2 ^ (nl.toNat - b.len.toNat) := by
      rw [BitVec.toNat_ofNat, Nat.mod_eq_of_lt h3]
    exact ⟨h1, rfl, e3, e3.trans_lt h2⟩

theorem bvNext_wf {b c : BV} {nl : BitVec 5} (hl : nl.toNat ≤ 16) (h : bvNext b nl = .ok c) : c.wf := by
  obtain ⟨_, rfl, _, h3⟩ := bvNext_ok hl h
  exact ⟨hl, h3⟩

/-! ### Stream bits -/

/-- What an OR of one byte does to the stream (R9, R66). -/
theorem Mem.bit_or {m : Mem} (hm : m.wf) (a : Nat) (v : Byte) (k : Nat) :
    (m.or a v).bit k = (m.bit k || (decide (k / 8 = a) && v.getLsbD (7 - k % 8))) := by
  simp only [Mem.bit, Mem.read_or hm, Nat.shiftRight_eq_div_pow]
  by_cases h : k / 8 = a
  · subst h; simp
  · simp [h]

/-- What a sequence of ORs does to the stream. -/
theorem Mem.bit_applyOps_or {m : Mem} (hm : m.wf) (js : List Nat) (f : Nat → Nat) (g : Nat → Byte)
    (h : ∀ j ∈ js, f j < 2 ^ 32) (k : Nat) :
    (applyOps m (js.map (fun j => .or (f j) (g j)))).bit k =
      (m.bit k || js.any (fun j => decide (k / 8 = f j) && (g j).getLsbD (7 - k % 8))) := by
  induction js generalizing m with
  | nil => simp
  | cons j js ih =>
    have hj := h j (List.mem_cons_self ..)
    show (applyOps (m.or (f j) (g j)) (js.map _)).bit k = _
    rw [ih (Mem.or_wf hm hj _) fun i hi => h i (List.mem_cons_of_mem _ hi), Mem.bit_or hm, List.any_cons, Bool.or_assoc]

/-- Two memories with the same stream bits hold the same bytes. -/
theorem Mem.read_eq_of_bit {m n : Mem} {a : Nat} (h : ∀ r < 8, m.bit (8 * a + r) = n.bit (8 * a + r)) :
    m.read a = n.read a := by
  refine BitVec.eq_of_getLsbD_eq fun i hi => ?_
  have := h (7 - i) (by omega)
  have e1 : (8 * a + (7 - i)) / 8 = a := by omega
  have e2 : 7 - (8 * a + (7 - i)) % 8 = i := by omega
  simpa only [Mem.bit, Nat.shiftRight_eq_div_pow, Nat.reducePow, e1, e2] using this

/-! ### Packing -/

/-- Bit `t` of `w24`, counted from the most significant: a bit of the codeword, or 0 (R115). -/
theorem packWindow_getLsbD {b : BV} (hl : b.len.toNat ≤ 16) {p t : Nat} (hp : p < 8) (ht : t < 24) :
    (packWindow b p).getLsbD (23 - t) = (decide (p ≤ t ∧ t < p + b.len.toNat) && b.codeBit (t - p)) := by
  simp only [packWindow, BV.codeBit, BitVec.getLsbD_shiftLeft, BitVec.getLsbD_setWidth]
  by_cases h : p ≤ t ∧ t < p + b.len.toNat
  · obtain ⟨h1, h2⟩ := h
    have e : 23 - t - (8 - p) - (16 - b.len.toNat) = b.len.toNat - 1 - (t - p) := by omega
    rw [e]
    have a1 : 23 - t < 24 := by omega
    have a2 : ¬ 23 - t < 8 - p := by omega
    have a3 : 23 - t - (8 - p) < 24 := by omega
    have a4 : 23 - t - (8 - p) < 16 := by omega
    have a5 : ¬ 23 - t - (8 - p) < 16 - b.len.toNat := by omega
    simp [h1, h2, a1, a2, a3, a4, a5]
  · rw [decide_eq_false h, Bool.false_and]
    by_cases h2 : 23 - t < 8 - p
    · simp [h2]
    · by_cases h3 : 23 - t - (8 - p) < 16
      · have : 23 - t - (8 - p) < 16 - b.len.toNat := by omega
        simp [this]
      · simp [h3]

theorem mem_packOps {b : BV} {off : Nat} {o : MemOp} (h : o ∈ packOps b off) :
    ∃ j < packBytes b.len.toNat off, o = .or (off / 8 + j) (packPiece b (off % 8) j) := by
  obtain ⟨j, hj, rfl⟩ := List.mem_map.1 h
  exact ⟨j, List.mem_range.1 hj, by rw [Nat.shiftRight_eq_div_pow]⟩

/-- The first address past the bytes a codeword touches. -/
theorem packBytes_end (len off : Nat) : off / 8 + packBytes len off = (off + len + 7) / 8 := by
  simp only [packBytes, Nat.shiftRight_eq_div_pow]
  omega

theorem packOps_addr_lt {b : BV} {off : Nat} {o : MemOp} (h : o ∈ packOps b off) :
    off / 8 ≤ o.addr ∧ o.addr < (off + b.len.toNat + 7) / 8 := by
  obtain ⟨j, hj, rfl⟩ := mem_packOps h
  rw [← packBytes_end]
  exact ⟨Nat.le_add_right .., Nat.add_lt_add_left hj _⟩

/-- The accesses of `Pack`, bit by bit: codeword bit i is ORed in at stream offset `off + i`, and no other bit changes (R116 (a), (b)). -/
theorem bit_packOps {m : Mem} (hm : m.wf) {b : BV} (hl : b.len.toNat ≤ 16) {off : Nat}
    (hr : (off + b.len.toNat + 7) / 8 ≤ 2 ^ 32) (k : Nat) :
    (applyOps m (packOps b off)).bit k =
      (m.bit k || (decide (off ≤ k ∧ k < off + b.len.toNat) && b.codeBit (k - off))) := by
  have hend := packBytes_end b.len.toNat off
  unfold packOps
  rw [Mem.bit_applyOps_or hm (List.range (packBytes b.len.toNat off)) (fun j => off >>> 3 + j) (fun j => packPiece b (off % 8) j)
    (fun j hj => by
      have := List.mem_range.1 hj
      simp only [Nat.shiftRight_eq_div_pow, Nat.reducePow] at *
      omega)]
  congr 1
  simp only [Nat.shiftRight_eq_div_pow, Nat.reducePow]
  have key : ∀ j, k / 8 = off / 8 + j → j < 3 → (packPiece b (off % 8) j).getLsbD (7 - k % 8)
      = (decide (off ≤ k ∧ k < off + b.len.toNat) && b.codeBit (k - off)) := by
    intro j hj h3
    have e1 : 16 - 8 * j + (7 - k % 8) = 23 - (8 * j + k % 8) := by omega
    have e2 : 8 * j + k % 8 - off % 8 = k - off := by omega
    have e3 : (off % 8 ≤ 8 * j + k % 8 ∧ 8 * j + k % 8 < off % 8 + b.len.toNat) ↔ (off ≤ k ∧ k < off + b.len.toNat) := by
      omega
    rw [packPiece, BitVec.getLsbD_extractLsb', e1, packWindow_getLsbD hl (Nat.mod_lt _ (by norm_num)) (by omega), e2]
    simp only [e3]
    have : (7 - k % 8 < 8) := by omega
    simp [this]
  rw [Bool.eq_iff_iff]
  simp only [List.any_eq_true, Bool.and_eq_true, decide_eq_true_eq, List.mem_range]
  constructor
  · rintro ⟨j, hj, e, hbit⟩
    rw [key j e (by omega)] at hbit
    simpa using hbit
  · rintro ⟨⟨h1, h2⟩, hbit⟩
    have hj : k / 8 = off / 8 + (k / 8 - off / 8) := by omega
    refine ⟨k / 8 - off / 8, by omega, hj, ?_⟩
    rw [key _ hj (by omega)]
    simp [h1, h2, hbit]

/-- The two answers of `Pack` (R115): the bounds fault, before any access, or the accesses. -/
theorem pack_cases (size : Word) (m : Mem) (b : BV) (off : Nat) :
    (size.toNat < (off + b.len.toNat + 7) / 8 ∧ pack size m b off = .error ⟨.snkBounds, low32 (max (off / 8) size.toNat)⟩) ∨
    ((off + b.len.toNat + 7) / 8 ≤ size.toNat ∧ pack size m b off = .ok (applyOps m (packOps b off))) := by
  have hend := packBytes_end b.len.toNat off
  simp only [pack, Nat.shiftRight_eq_div_pow, Nat.reducePow, hend]
  by_cases h : size.toNat < (off + b.len.toNat + 7) / 8
  · exact .inl ⟨h, if_pos h⟩
  · exact .inr ⟨Nat.le_of_not_lt h, if_neg h⟩

/-! ### The decode window -/

/-- Bit i of the window is the stream bit at `off + i`, and 0 beyond SRC (R209). -/
theorem window_getLsbD (s : State) {off i : Nat} (h : off < 8 * s.srcSize.toNat) (hi : i < 8) :
    (s.window off).getLsbD (7 - i) = (decide (off + i < 8 * s.srcSize.toNat) && s.src.bit (off + i)) := by
  simp only [State.window, Mem.bit, Nat.shiftRight_eq_div_pow, Nat.reducePow, BitVec.getLsbD_setWidth,
    BitVec.getLsbD_ushiftRight, BitVec.getLsbD_append]
  have a0 : 7 - i < 8 := by omega
  by_cases hc : off % 8 + i < 8
  · have e1 : (off + i) / 8 = off / 8 := by omega
    have e2 : 8 - off % 8 + (7 - i) - 8 = 7 - (off + i) % 8 := by omega
    have e3 : ¬ 8 - off % 8 + (7 - i) < 8 := by omega
    have e4 : off + i < 8 * s.srcSize.toNat := by omega
    simp only [e1, e2, e3, e4, a0]
    simp
  · have e1 : (off + i) / 8 = off / 8 + 1 := by omega
    have e2 : 8 - off % 8 + (7 - i) = 7 - (off + i) % 8 := by omega
    have e3 : 7 - (off + i) % 8 < 8 := by omega
    simp only [e1, e2, e3, a0]
    by_cases hs : off / 8 + 1 < s.srcSize.toNat
    · have : off + i < 8 * s.srcSize.toNat := by omega
      simp [hs, this]
    · have : ¬ off + i < 8 * s.srcSize.toNat := by omega
      simp [hs, this]

end Sys2Proof.Machine
end

