-- ==== Sys2Proof/Laws/Tables.lean ====
section
/-! SUPPORT. The tables: reading an entry after each way of making a table, and the list of all byte values. -/

namespace Sys2Proof.Machine

/-! ### All byte values -/

theorem mem_allBytes (v : Byte) : v ∈ allBytes :=
  List.mem_map.2 ⟨v.toNat, List.mem_range.2 v.isLt, by simp⟩

theorem allBytes_length : allBytes.length = 256 := by simp [allBytes]

theorem allBytes_getElem (i : Nat) (h : i < allBytes.length) : allBytes[i] = BitVec.ofNat 8 i := by simp [allBytes]

theorem allBytes_sorted : allBytes.Pairwise (fun u v => u.toNat < v.toNat) := by
  refine List.pairwise_map.2 ((List.pairwise_lt_range).imp_of_mem ?_)
  intro a b ha hb h
  have ha := List.mem_range.1 ha
  have hb := List.mem_range.1 hb
  simpa [BitVec.toNat_ofNat, Nat.mod_eq_of_lt ha, Nat.mod_eq_of_lt hb] using h

theorem allBytes_nodup : allBytes.Nodup :=
  allBytes_sorted.imp (fun h e => absurd (congrArg BitVec.toNat e) (Nat.ne_of_lt h))

/-- The least value with a property, as the checks that name "the least such v" find it (R170, R201). -/
theorem find_allBytes_eq_some {p : Byte → Bool} {v : Byte} :
    allBytes.find? p = some v ↔ p v = true ∧ ∀ u : Byte, u.toNat < v.toNat → p u = false := by
  rw [List.find?_eq_some_iff_append]
  constructor
  · rintro ⟨hv, as, bs, e, h⟩
    refine ⟨hv, fun u hu => ?_⟩
    have hs := allBytes_sorted
    have hm := mem_allBytes u
    rw [e] at hs hm
    rcases List.mem_append.1 hm with h1 | h1
    · simpa using h u h1
    · rcases List.mem_cons.1 h1 with rfl | h2
      · exact absurd hu (lt_irrefl _)
      · have := (List.pairwise_cons.1 (List.pairwise_append.1 hs).2.1).1 u h2
        omega
  · rintro ⟨hv, h⟩
    obtain ⟨as, bs, e⟩ := List.append_of_mem (mem_allBytes v)
    refine ⟨hv, as, bs, e, fun u hu => ?_⟩
    have hs := allBytes_sorted
    rw [e] at hs
    have := (List.pairwise_append.1 hs).2.2 u hu v (List.mem_cons_self ..)
    simp [h u this]

theorem find_allBytes_eq_none {p : Byte → Bool} : allBytes.find? p = none ↔ ∀ v, p v = false := by
  simp only [List.find?_eq_none, Bool.not_eq_true]
  exact ⟨fun h v => h v (mem_allBytes v), fun h v _ => h v⟩

/-! ### Entries -/

theorem Table.at_eq {α : Type} (t : Table α) (v : Byte) : t.at v = t[v.toNat]'v.isLt := by
  simp [Table.at, List.head_drop]

theorem Table.ext {α : Type} {t u : Table α} (h : ∀ v, t.at v = u.at v) : t = u := by
  refine Vector.ext fun i hi => ?_
  have := h (BitVec.ofNat 8 i)
  simpa [Table.at_eq, Nat.mod_eq_of_lt hi] using this

@[simp] theorem Table.at_const {α : Type} (x : α) (v : Byte) : (Table.const x).at v = x := by
  simp [Table.const, Table.at_eq]

@[simp] theorem Table.at_replicate {α : Type} (x : α) (v : Byte) : Table.at (Vector.replicate 256 x) v = x := by
  simp [Table.at_eq]

@[simp] theorem Table.at_ofFn {α : Type} (f : Byte → α) (v : Byte) : (Table.ofFn f).at v = f v := by
  simp [Table.ofFn, Table.at_eq]

theorem Table.at_put {α : Type} (t : Table α) (v u : Byte) (x : α) : (t.put v x).at u = if u = v then x else t.at u := by
  rcases eq_or_ne u v with rfl | h
  · simp [Table.put, Table.at_eq]
  · have hn : v.toNat ≠ u.toNat := fun e => h (BitVec.eq_of_toNat_eq e.symm)
    simp [Table.put, Table.at_eq, h, hn]

@[simp] theorem Table.putAll_nil {α : Type} (t : Table α) : t.putAll [] = t := rfl

@[simp] theorem Table.putAll_cons {α : Type} (t : Table α) (p : Byte × α) (ps : List (Byte × α)) :
    t.putAll (p :: ps) = (t.put p.1 p.2).putAll ps := rfl

/-- An entry no pair names keeps its value. -/
theorem Table.at_putAll_of_notMem {α : Type} {ps : List (Byte × α)} {t : Table α} {v : Byte} (h : v ∉ ps.map Prod.fst) :
    (t.putAll ps).at v = t.at v := by
  induction ps generalizing t with
  | nil => rfl
  | cons p ps ih =>
    obtain ⟨h1, h2⟩ := not_or.1 (mt List.mem_cons.2 h)
    rw [Table.putAll_cons, ih h2, Table.at_put, if_neg h1]

/-- When no value is named twice, an entry takes the value its pair gives. -/
theorem Table.at_putAll_of_mem {α : Type} {ps : List (Byte × α)} {t : Table α} {v : Byte} {x : α}
    (hn : (ps.map Prod.fst).Nodup) (h : (v, x) ∈ ps) : (t.putAll ps).at v = x := by
  induction ps generalizing t with
  | nil => cases h
  | cons p ps ih =>
    obtain ⟨h1, h2⟩ := List.nodup_cons.1 hn
    rcases List.mem_cons.1 h with rfl | h
    · rw [Table.putAll_cons, Table.at_putAll_of_notMem h1, Table.at_put, if_pos rfl]
    · exact ih h2 h

end Sys2Proof.Machine
end

