-- ==== Sys2Proof/Laws/Commands.lean ====
section
/-! SUPPORT. What the shared parts of the commands answer: taking a fault (R252, R253), counting (R131), packing one symbol (R173),
decoding one symbol (R208). -/

namespace Sys2Proof.Machine

/-! ### Faults -/

theorem takeFault_taken (f : FaultRec) (s : State) : FaultTaken f.cause f.info s (takeFault f s) := rfl

/-- A raised fault that ends a command is a fault taken in the state it was raised in (R252). -/
theorem finish_raise (c : Cause) (info : Word) (s : State) :
    ∃ t, finish (.error ⟨⟨c, info⟩, s⟩) = .next t ∧ FaultTaken c info s t := ⟨_, rfl, rfl⟩

/-- A bulk body command's fault (R252, R253). -/
theorem finish_raise_bulk (c : Cause) (info : Word) (s : State) :
    ∃ t, finish (.error ⟨⟨c, info⟩, s.loseSink s.snkSize.toNat⟩) = .next t ∧ BulkFaultTaken c info s t := by
  refine ⟨_, rfl, rfl, fun a ha => ?_⟩
  show (s.snk.fillBelow s.snkSize.toNat _).read a = s.snk.read a
  rw [Mem.read_fillBelow, if_neg (Nat.not_lt.2 ha)]

/-! ### Counting -/

theorem countInto_append (t : Table Word) (xs ys : List Byte) : countInto t (xs ++ ys) = countInto (countInto t xs) ys :=
  List.foldl_append

/-- Counting adds to each entry the number of times its value occurs (R131). -/
theorem countInto_at (t : Table Word) (xs : List Byte) (v : Byte) :
    (countInto t xs).at v = t.at v + BitVec.ofNat 32 (xs.count v) := by
  induction xs generalizing t with
  | nil => simp [countInto]
  | cons x xs ih =>
    show (countInto (t.put x (t.at x + 1)) xs).at v = _
    rw [ih, Table.at_put]
    by_cases h : v = x
    · subst h
      rw [if_pos rfl, List.count_cons_self, BitVec.add_assoc, ← BitVec.ofNat_add_ofNat, BitVec.add_comm 1]; rfl
    · rw [if_neg h, List.count_cons_of_ne (Ne.symm h)]

@[simp] theorem addCounts_at (t c : Table Word) (v : Byte) : (addCounts t c).at v = t.at v + c.at v :=
  Table.at_ofFn _ v

/-! ### One symbol -/

/-- The three answers of `ENC.PUT v` after its prerequisites (R173). -/
theorem putSymbol_cases (s : State) (v : Byte) :
    ((s.code.at v).len = 0 ∧ putSymbol s v = .error ⟨.absentSymbol, v.zeroExtend 32⟩) ∨
    ((s.code.at v).len ≠ 0 ∧ s.snkSize.toNat < (s.bitpos.toNat + (s.code.at v).len.toNat + 7) / 8 ∧
      putSymbol s v = .error ⟨.snkBounds, low32 (max (s.bitpos.toNat / 8) s.snkSize.toNat)⟩) ∨
    ((s.code.at v).len ≠ 0 ∧ (s.bitpos.toNat + (s.code.at v).len.toNat + 7) / 8 ≤ s.snkSize.toNat ∧
      putSymbol s v = .ok (s.setSnkPos (applyOps s.snk (packOps (s.code.at v) s.bitpos.toNat))
        (s.bitpos.toNat + (s.code.at v).len.toNat))) := by
  by_cases h : (s.code.at v).len = 0
  · exact .inl ⟨h, if_pos h⟩
  · rcases pack_cases s.snkSize s.snk (s.code.at v) s.bitpos.toNat with ⟨h1, h2⟩ | ⟨h1, h2⟩
    · exact .inr (.inl ⟨h, h1, by simp only [putSymbol, if_neg h, h2]; rfl⟩)
    · exact .inr (.inr ⟨h, h1, by simp only [putSymbol, if_neg h, h2]; rfl⟩)

/-- The four answers of the lookup at a bit offset (R208, R215). -/
theorem lookup_cases (s : State) (off : Nat) :
    (8 * s.srcSize.toNat ≤ off ∧ s.lookup off = .error ⟨.malformedHeader .bodyUnderrun, low32 off⟩) ∨
    (off < 8 * s.srcSize.toNat ∧ (s.dtbl.at (s.window off)).len = 0 ∧
      s.lookup off = .error ⟨.malformedHeader .noCode, (s.window off).zeroExtend 32⟩) ∨
    (off < 8 * s.srcSize.toNat ∧ (s.dtbl.at (s.window off)).len ≠ 0 ∧
      8 * s.srcSize.toNat < off + (s.dtbl.at (s.window off)).len.toNat ∧
      s.lookup off = .error ⟨.malformedHeader .bodyUnderrun, low32 off⟩) ∨
    ((s.dtbl.at (s.window off)).len ≠ 0 ∧ off + (s.dtbl.at (s.window off)).len.toNat ≤ 8 * s.srcSize.toNat ∧
      s.lookup off = .ok (s.dtbl.at (s.window off))) := by
  have hs : off >>> 3 = off / 8 := by rw [Nat.shiftRight_eq_div_pow]
  unfold State.lookup
  rw [hs]
  by_cases h1 : off / 8 ≥ s.srcSize.toNat
  · exact .inl ⟨by omega, if_pos h1⟩
  · rw [if_neg h1]
    by_cases h2 : (s.dtbl.at (s.window off)).len = 0
    · exact .inr (.inl ⟨by omega, h2, if_pos h2⟩)
    · by_cases h3 : off + (s.dtbl.at (s.window off)).len.toNat > 8 * s.srcSize.toNat
      · exact .inr (.inr (.inl ⟨by omega, h2, h3, by simp only [if_neg h2, if_pos h3]⟩))
      · exact .inr (.inr (.inr ⟨h2, by omega, by simp only [if_neg h2, if_neg h3]⟩))

/-- The answers of `DEC.GET` after its prerequisites (R208). -/
theorem getSymbol_cases (s : State) :
    (s.snkSize.toNat ≤ s.outpos.toNat ∧ getSymbol s = .error ⟨.snkBounds, s.outpos⟩) ∨
    (s.outpos.toNat < s.snkSize.toNat ∧ ∃ f, s.lookup s.bitpos.toNat = .error f ∧ getSymbol s = .error f) ∨
    (s.outpos.toNat < s.snkSize.toNat ∧ ∃ e, s.lookup s.bitpos.toNat = .ok e ∧
      getSymbol s = .ok (s.emit (s.snk.write s.outpos.toNat e.val) (s.outpos.toNat + 1) (s.bitpos.toNat + e.len.toNat))) := by
  unfold getSymbol
  by_cases h : s.outpos.toNat ≥ s.snkSize.toNat
  · exact .inl ⟨h, if_pos h⟩
  · cases hl : s.lookup s.bitpos.toNat with
    | error f => exact .inr (.inl ⟨by omega, f, rfl, if_neg h⟩)
    | ok e => exact .inr (.inr ⟨by omega, e, rfl, if_neg h⟩)

end Sys2Proof.Machine
end

