-- ==== Sys2Proof/Laws/Lanes.lean ====
section
/-! SUPPORT. Pages and lanes: the pages are a partition of the range (R133), and whatever the schedule, a pass performs the accesses
of all its pages, each exactly once (R68). -/

namespace Sys2Proof.Machine

/-! ### Pages -/

theorem flatMap_pageAddrs (size p n : Nat) :
    (List.range n).flatMap (pageAddrs size p) = List.range (min (n * p) size) := by
  induction n with
  | zero => simp
  | succ n ih =>
    have e : (n + 1) * p = n * p + p := Nat.succ_mul n p
    rw [List.range_succ, List.flatMap_append, ih]
    simp only [List.flatMap_cons, List.flatMap_nil, List.append_nil, pageAddrs, List.range_eq_range']
    rcases Nat.lt_or_ge size (n * p) with h | h
    · rw [Nat.min_eq_right h.le, Nat.min_eq_right (by omega), Nat.sub_eq_zero_of_le h.le]
      simp
    · rw [Nat.min_eq_left h]
      have := List.range'_append (s := 0) (m := n * p) (n := min ((n + 1) * p) size - n * p) (step := 1)
      rw [Nat.zero_add, Nat.one_mul] at this
      rw [this]
      congr 1
      omega

/-- Pages are disjoint and cover `0 .. S − 1` in order (R133). -/
theorem pages_partition (size p : Nat) (hp : 1 ≤ p) :
    (List.range (pageCount size p)).flatMap (pageAddrs size p) = List.range size := by
  rw [flatMap_pageAddrs, Nat.min_eq_right]
  unfold pageCount
  have := Nat.div_add_mod (size + p - 1) p
  have hm := Nat.mod_lt (size + p - 1) (show 0 < p by omega)
  rw [Nat.mul_comm]
  omega

/-! ### Interleaving -/

theorem cons_flatten_set {α : Type} {qs : List (List α)} {i : Nat} {x : α} {rest : List α} (h : qs[i]? = some (x :: rest)) :
    (x :: (qs.set i rest).flatten).Perm qs.flatten := by
  induction qs generalizing i with
  | nil => simp at h
  | cons q qs ih =>
    cases i with
    | zero =>
      obtain rfl : q = x :: rest := by simpa using h
      simp
    | succ i =>
      have h' : qs[i]? = some (x :: rest) := by simpa using h
      simp only [List.set_cons_succ, List.flatten_cons]
      exact (List.perm_middle.symm).trans ((ih h').append_left q)

theorem flatten_filter_nonempty {α : Type} (qs : List (List α)) :
    (qs.filter (fun q => !q.isEmpty)).flatten = qs.flatten := by
  induction qs with
  | nil => rfl
  | cons q qs ih => cases q <;> simp [ih]

/-- With enough turns every element of every queue is taken exactly once. -/
theorem interleave_perm {α : Type} (fuel : Nat) (turns : List Nat) (qs : List (List α)) (h : qs.flatten.length ≤ fuel) :
    (interleave fuel turns qs).Perm qs.flatten := by
  induction fuel generalizing turns qs with
  | zero =>
    rw [List.length_eq_zero_iff.1 (Nat.le_zero.1 h)]
    exact List.Perm.refl _
  | succ fuel ih =>
    simp only [interleave]
    have hl : ∀ q ∈ qs.filter (fun q => !q.isEmpty), q ≠ [] := fun q hq e => by simp [e] at hq
    rw [← flatten_filter_nonempty qs] at h ⊢
    generalize qs.filter (fun q => !q.isEmpty) = live at h hl
    split
    · rename_i x rest hx
      have hp := cons_flatten_set hx
      refine ((ih _ _ ?_).cons x).trans hp
      have := hp.length_eq
      rw [List.length_cons] at this
      omega
    · rename_i hx
      cases live with
      | nil => exact List.Perm.refl _
      | cons q live =>
        have hi : turns.headD 0 % (q :: live).length < (q :: live).length := Nat.mod_lt _ (by simp)
        cases hq : (q :: live)[turns.headD 0 % (q :: live).length] with
        | nil => exact absurd hq (hl _ (List.getElem_mem hi))
        | cons x rest => exact absurd (by rw [List.getElem?_eq_getElem hi, hq]) (hx x rest)

theorem runLanes_perm {α : Type} (turns : List Nat) (qs : List (List α)) : (runLanes turns qs).Perm qs.flatten :=
  interleave_perm _ _ _ le_rfl

theorem taskOrder_perm {α : Type} (picks : List Nat) (tasks : List α) : (taskOrder picks tasks).Perm tasks := by
  have h : (tasks.map (fun t => [t])).flatten = tasks := by
    induction tasks with
    | nil => rfl
    | cons t ts ih => simpa using ih
  have := interleave_perm tasks.length picks (tasks.map (fun t => [t])) (by rw [h])
  rwa [h] at this

/-! ### Lanes -/

theorem flatMap_ite_perm {α : Type} (j : Nat) (a : List α) (g : Nat → List α) {ls : List Nat} (hn : ls.Nodup) (hj : j ∈ ls) :
    (ls.flatMap (fun l => if j = l then a ++ g l else g l)).Perm (a ++ ls.flatMap g) := by
  induction ls with
  | nil => cases hj
  | cons l ls ih =>
    obtain ⟨h1, h2⟩ := List.nodup_cons.1 hn
    simp only [List.flatMap_cons]
    rcases eq_or_ne j l with rfl | h
    · rw [if_pos rfl, List.append_assoc]
      have : ls.flatMap (fun l => if j = l then a ++ g l else g l) = ls.flatMap g :=
        List.flatMap_congr fun m hm => if_neg fun e : j = m => h1 (e ▸ hm)
      rw [this]
    · rw [if_neg h]
      refine ((ih h2 ((List.mem_cons.1 hj).resolve_left h)).append_left (g l)).trans ?_
      rw [← List.append_assoc, ← List.append_assoc]
      exact List.perm_append_comm.append_right _

/-- Splitting tasks by the lane that runs them loses none and doubles none. -/
theorem flatMap_lanes_perm {α : Type} (key : Nat → Nat) (lanes : Nat) (f : Nat → List α) (ts : List Nat)
    (h : ∀ k ∈ ts, key k < lanes) :
    ((List.range lanes).flatMap (fun l => (ts.filter (fun k => key k = l)).flatMap f)).Perm (ts.flatMap f) := by
  induction ts with
  | nil => simp
  | cons k ts ih =>
    have e : (fun l => ((k :: ts).filter (fun k => key k = l)).flatMap f)
        = fun l => if key k = l then f k ++ (ts.filter (fun k => key k = l)).flatMap f
            else (ts.filter (fun k => key k = l)).flatMap f := by
      funext l
      by_cases hk : key k = l <;> simp [hk]
    rw [e, List.flatMap_cons]
    refine (flatMap_ite_perm (key k) (f k) _ List.nodup_range (List.mem_range.2 (h k (List.mem_cons_self ..)))).trans ?_
    exact (ih fun k hk => h k (List.mem_cons_of_mem _ hk)).append_left (f k)

theorem laneOf_lt (o : Config.LaneOrder) {lanes : Nat} (h : 1 ≤ lanes) (k : Nat) : laneOf o lanes k < lanes :=
  Nat.mod_lt _ h

theorem flatMap_lanePages_perm {α : Type} (o : Config.LaneOrder) {lanes : Nat} (h : 1 ≤ lanes) (np : Nat) (f : Nat → List α) :
    ((List.range lanes).flatMap (fun l => (lanePages o lanes np l).flatMap f)).Perm ((List.range np).flatMap f) :=
  (flatMap_lanes_perm (laneOf o lanes) lanes f _ fun k _ => laneOf_lt o h k).trans
    ((taskOrder_perm o.order (List.range np)).flatMap_right f)

/-- Whatever the assignment, the order and the interleaving, a pass performs the accesses of its pages, each exactly once
(R68, R265). -/
theorem passOps_perm (o : Config.LaneOrder) {lanes : Nat} (h : 1 ≤ lanes) (np : Nat) (pageOps : Nat → List MemOp) :
    (passOps o lanes np pageOps).Perm ((List.range np).flatMap pageOps) := by
  refine (runLanes_perm _ _).trans ?_
  rw [← List.flatMap_def]
  exact flatMap_lanePages_perm o h np pageOps

end Sys2Proof.Machine
end

