-- ==== Sys2Proof/Laws/PerInstr.lean ====
section
/-! SUPPORT. Statements about every instruction as syntax, one lemma per constructor. -/

namespace Sys2Proof.Laws.TableRow

/-- The word of a command is a word of its row (R96): under the row's mask it is the row's match, and the command is legal exactly when a
C1 operand is at most 16. -/
def Statement (i : Instr) : Prop :=
  encode i &&& maskWord (formatOf i) = matchWord i ∧
    (i.wellFormed = true ↔ (formatOf i = .c1 → ((encode i).extractLsb' 0 5).toNat ≤ 16))

/-- The statement is decidable, instruction by instruction. -/
abbrev Holds (i : Instr) : Bool :=
  encode i &&& maskWord (formatOf i) == matchWord i &&
    (i.wellFormed == (formatOf i != .c1 || ((encode i).extractLsb' 0 5).toNat ≤ 16))

theorem of_holds {i : Instr} (h : Holds i = true) : Statement i := by
  simp only [Bool.and_eq_true, beq_iff_eq] at h
  refine ⟨h.1, ?_⟩
  rw [h.2]
  simp [imp_iff_not_or]

theorem nop : Statement .nop := of_holds (by decide)
theorem srst : Statement .srst := of_holds (by decide)
theorem bvZero (len : BitVec 5) : Statement (.bvZero len) := by
  refine of_holds ?_
  revert len
  decide
theorem bvNext (len : BitVec 5) : Statement (.bvNext len) := by
  refine of_holds ?_
  revert len
  decide
theorem bvCopy : Statement .bvCopy := of_holds (by decide)
theorem bvLdc (v : Byte) : Statement (.bvLdc v) := by
  refine of_holds ?_
  revert v
  decide +kernel
theorem ftClr : Statement .ftClr := of_holds (by decide)
theorem ftScan : Statement .ftScan := of_holds (by decide)
theorem ftScanp : Statement .ftScanp := of_holds (by decide)
theorem pmRun : Statement .pmRun := of_holds (by decide)
theorem cbBuild : Statement .cbBuild := of_holds (by decide)
theorem encAlloc : Statement .encAlloc := of_holds (by decide)
theorem encHdr : Statement .encHdr := of_holds (by decide)
theorem encBody : Statement .encBody := of_holds (by decide)
theorem encBodyp : Statement .encBodyp := of_holds (by decide)
theorem encPut (v : Byte) : Statement (.encPut v) := by
  refine of_holds ?_
  revert v
  decide +kernel
theorem encodep : Statement .encodep := of_holds (by decide)
theorem encode : Statement .encode := of_holds (by decide)
theorem decHdr : Statement .decHdr := of_holds (by decide)
theorem decTbl : Statement .decTbl := of_holds (by decide)
theorem decAlloc : Statement .decAlloc := of_holds (by decide)
theorem decBody : Statement .decBody := of_holds (by decide)
theorem decBodyp : Statement .decBodyp := of_holds (by decide)
theorem decGet : Statement .decGet := of_holds (by decide)
theorem decodep : Statement .decodep := of_holds (by decide)
theorem decode : Statement .decode := of_holds (by decide)

end Sys2Proof.Laws.TableRow
end

