-- ==== Sys2Proof/Tests/Slice0.lean ====
section
/-! SUPPORT. Tests on fixed values, each from a table of spec/95_test_vectors.md or from the rule named, and for every statement with
hypotheses a concrete case that meets them. -/

namespace Sys2Proof.Tests

open Sys2Proof Sys2Proof.Machine

-- One theorem at a time: each kernel evaluation takes memory of its own.
set_option Elab.async false

/-! ### Helpers -/

/-- The outcome is a next state with a property. -/
def isNext (o : Host.Outcome State Fault Refusal) (p : State → Bool) : Bool :=
  match o with
  | .next t => p t
  | .fault _ | .refused _ => false

theorem of_isNext {o : Host.Outcome State Fault Refusal} {p : State → Bool} (h : isNext o p = true) :
    ∃ t, o = .next t ∧ p t = true := by
  cases o with
  | next t => exact ⟨t, rfl, h⟩
  | fault _ => cases h
  | refused _ => cases h

/-- The fault registers after a fault (95_test_vectors.md "`FAULT_CAUSE` = …; `FAULT_INFO` = …"). -/
def faulted (cause info : Word) (t : State) : Bool :=
  t.status.fault && t.faultCause.word == cause && t.faultInfo == info && t.running == none

theorem exists_next (r : Run) : ∃ t, finish r = .next t := by cases r <;> exact ⟨_, rfl⟩

/-- The part of legality that concerns the tables. -/
structure TablesLegal (s : State) : Prop where
  lens : ∀ v, (s.lens.at v).toNat ≤ 16
  code : ∀ v, (s.code.at v).wf
  codeLen : s.status.codeV = true → ∀ v, (s.code.at v).len = s.lens.at v
  kraft : s.status.codeV = true → kraftSum s.lenOf ≤ Config.kraftOne
  dtbl : ∀ w, (s.dtbl.at w).len.toNat ≤ 8

/-- The rest of legality, which is decidable at no cost. -/
abbrev RestLegal (s : State) : Prop :=
  s.src.wf ∧ s.snk.wf ∧ s.params.legal ∧ s.bv.wf ∧ (s.status.dtblV = true → s.status.codeV = true) ∧ s.nsym.toNat ≤ 256 ∧
    (s.status.snkV = true → s.status.snkDec = false → 264 ≤ s.snkSize.toNat) ∧
    (s.status.snkDec = true → s.status.snkV = true ∧ s.status.hdrV = true) ∧
    (s.status.snkDec = true → s.outpos.toNat ≤ s.snkSize.toNat) ∧
    (s.status.fault = false → s.faultCause = .none ∧ s.faultInfo = 0) ∧
    (s.status.fault = true → s.faultCause ≠ .none) ∧
    (s.status.fault = false ∨ s.running = none ∨ s.running = some (encode .srst))

theorem legal_of {s : State} (ht : TablesLegal s) (h : RestLegal s) : s.Legal := by
  obtain ⟨h1, h2, h3, h4, h5, h6, h7, h8, h9, h10, h11, h12⟩ := h
  refine ⟨h1, h2, h3, h4, ht.lens, ht.code, ht.codeLen, ht.kraft, ht.dtbl, h5, h6, h7, h8, h9, h10, h11, fun w hw hf => ?_⟩
  rcases h12 with h | h | h
  · rw [h] at hf; cases hf
  · rw [h] at hw; cases hw
  · rw [h] at hw; exact (Option.some.inj hw).symm

theorem at_putAll_forall {α : Type} {P : α → Prop} {x : α} {ps : List (Byte × α)} (h0 : P x) (h : ∀ p ∈ ps, P p.2) (v : Byte) :
    P (((Table.const x).putAll ps).at v) := by
  suffices ∀ t : Table α, P (t.at v) → P ((t.putAll ps).at v) from this _ (by simpa using h0)
  clear h0
  induction ps with
  | nil => exact fun _ h => h
  | cons p ps ih =>
    refine fun t ht => ih (fun q hq => h q (List.mem_cons_of_mem _ hq)) _ ?_
    rw [Table.at_put]
    by_cases e : v = p.1
    · rw [if_pos e]; exact h p (List.mem_cons_self ..)
    · rw [if_neg e]; exact ht

theorem at_putAll_map {α β : Type} (f : α → β) (ps : List (Byte × α)) (t : Table α) (u : Table β) (v : Byte)
    (h : f (t.at v) = u.at v) : f ((t.putAll ps).at v) = (u.putAll (ps.map fun p => (p.1, f p.2))).at v := by
  induction ps generalizing t u with
  | nil => exact h
  | cons p ps ih =>
    refine ih _ _ ?_
    rw [Table.at_put, Table.at_put]
    by_cases e : v = p.1 <;> simp [e, h]

/-- The listed bytes at rising addresses from `a` on (none of them 0). -/
def bytesAt (a : Nat) : List Byte → Mem
  | [] => []
  | b :: bs => (a, b) :: bytesAt (a + 1) bs

/-! ### Small states (95_test_vectors.md 3.3 and 3.4) -/

/-- "abracadabra". -/
def abra : List Byte := [0x61, 0x62, 0x72, 0x61, 0x63, 0x61, 0x64, 0x61, 0x62, 0x72, 0x61]

/-- Its code (program 3.3 line 5). -/
def abraPairs : List (Byte × BV) := [(0x61, ⟨0, 1⟩), (0x62, ⟨4, 3⟩), (0x63, ⟨5, 3⟩), (0x64, ⟨6, 3⟩), (0x72, ⟨7, 3⟩)]

def abraLens : Table (BitVec 5) := (Table.const 0).putAll (abraPairs.map fun p => (p.1, p.2.len))

def abraFreq : Table Word := (Table.const 0).putAll [(0x61, 5), (0x62, 2), (0x63, 1), (0x64, 1), (0x72, 2)]

def abraCode : Table BV := (Table.const ⟨0, 0⟩).putAll abraPairs

/-- Program 3.4 line 4. -/
def abraDtbl : Table DEntry := Table.ofFn fun w =>
  if w.toNat < 128 then ⟨0x61, 1⟩ else if w.toNat < 160 then ⟨0x62, 3⟩ else if w.toNat < 192 then ⟨0x63, 3⟩
  else if w.toNat < 224 then ⟨0x64, 3⟩ else ⟨0x72, 3⟩

/-- Program 3.3 line 8. -/
def abraHeader : Mem := [(0, 0x0B), (105, 1), (106, 3), (107, 3), (108, 3), (122, 3)]

/-- Program 3.3 line 9. -/
def abraBody : Mem := bytesAt 264 [0x4E, 0xAC, 0x9C]

/-- The 267-byte container of "abracadabra". -/
def abraContainer : Mem := abraHeader ++ abraBody

/-- SRC holds some bytes at 0, of the given size; SNK has the given room; all else as after reset. -/
def withSrc (m : Mem) (size cap : Word) : State := { State.reset with src := m, srcSize := size, snkCap := cap }

/-- Program 3.3 after line 2. -/
def abraStart : State := withSrc (bytesAt 0 abra) 11 512

/-- Program 3.3 after line 4. -/
def abraAssigned : State := { abraStart with freq := abraFreq, lens := abraLens, nsym := 5 }

/-- Program 3.3 after line 5. -/
def abraBuilt : State := { abraAssigned with code := abraCode, status := { abraStart.status with codeV := true } }

/-- Program 3.3 after line 7. -/
def abraSized : State :=
  { abraBuilt with
    encBits := 23, snkSize := 267, bitpos := 2112,
    status := { abraBuilt.status with snkV := true, expanded := true } }

/-- Program 3.4 after line 1. -/
def abraPacked : State := withSrc abraContainer 267 11

/-- Program 3.4 after line 4. -/
def abraTable : State :=
  { abraPacked with
    orig := 11, lens := abraLens, nsym := 5, code := abraCode, dtbl := abraDtbl,
    status := { abraPacked.status with hdrV := true, codeV := true, dtblV := true } }

/-- Program 3.4 after line 5. -/
def abraReady : State :=
  { abraTable with snkSize := 11, bitpos := 2112, status := { abraTable.status with snkV := true, snkDec := true } }

/-- A state with a fault recorded (program 3.1 line 11). -/
def overflowed : State :=
  { State.reset with
    bv := ⟨7, 3⟩, faultCause := .bvOverflow, faultInfo := 8, status := { State.reset.status with fault := true } }

/-- Program 3.2 before line 4: "ab" in SRC. -/
def abStart : State := withSrc (bytesAt 0 [0x61, 0x62]) 2 265

/-- Program 3.2 line 5: the container of "ab". -/
def abContainer : Mem := [(0, 2), (105, 1), (106, 1), (264, 0x40)]

/-- Program 3.2 before line 9. -/
def abPacked : State := withSrc abContainer 265 2

theorem abraLens_kraft : kraftSum (fun v => (abraLens.at v).toNat) = 65536 := by decide +kernel

/-- States with tables as after reset. -/
theorem tables_reset {s : State} (h1 : s.lens = State.reset.lens) (h2 : s.code = State.reset.code) (h3 : s.dtbl = State.reset.dtbl) :
    TablesLegal s where
  lens v := by rw [h1, State.reset]; simp
  code v := by rw [h2, State.reset, Table.at_replicate]; decide
  codeLen _ v := by rw [h1, h2, State.reset]; simp
  kraft _ := by
    have : s.lenOf = fun _ => 0 := funext fun v => by rw [State.lenOf, h1, State.reset]; simp
    rw [this]; decide +kernel
  dtbl v := by rw [h3, State.reset]; simp

theorem abraLens_le (v : Byte) : (abraLens.at v).toNat ≤ 16 := by
  have h : ∀ p ∈ abraPairs.map fun p => (p.1, p.2.len), p.2.toNat ≤ 16 := by simp [abraPairs]
  unfold abraLens
  generalize (abraPairs.map fun p => (p.1, p.2.len)) = ps at h
  exact at_putAll_forall (P := fun l : BitVec 5 => l.toNat ≤ 16) (by decide) h v

theorem abraCode_wf (v : Byte) : (abraCode.at v).wf := by
  have h : ∀ p ∈ abraPairs, p.2.wf := by simp [abraPairs, BV.wf, Config.maxLen]
  unfold abraCode
  generalize abraPairs = ps at h
  exact at_putAll_forall (P := BV.wf) (by decide) h v

theorem abraCode_len (v : Byte) : (abraCode.at v).len = abraLens.at v :=
  at_putAll_map BV.len abraPairs (Table.const ⟨0, 0⟩) (Table.const 0) v (by simp)

theorem abraDtbl_le (w : Byte) : (abraDtbl.at w).len.toNat ≤ 8 := by
  rw [abraDtbl, Table.at_ofFn]
  split_ifs <;> decide

/-- States with the tables of "abracadabra", or some of them as after reset. -/
theorem tables_abra {s : State} (h1 : s.lens = abraLens) (h2 : s.code = abraCode ∨ s.code = State.reset.code ∧ s.status.codeV = false)
    (h3 : s.dtbl = abraDtbl ∨ s.dtbl = State.reset.dtbl) : TablesLegal s where
  lens v := by rw [h1]; exact abraLens_le v
  code v := by
    rcases h2 with h | ⟨h, _⟩
    · rw [h]; exact abraCode_wf v
    · rw [h, State.reset, Table.at_replicate]; decide
  codeLen hv v := by
    rcases h2 with h | ⟨_, h⟩
    · rw [h, h1]; exact abraCode_len v
    · rw [h] at hv; cases hv
  kraft _ := by
    have : s.lenOf = fun v => (abraLens.at v).toNat := funext fun v => by rw [State.lenOf, h1]
    rw [this, abraLens_kraft]
  dtbl v := by
    rcases h3 with h | h
    · rw [h]; exact abraDtbl_le v
    · rw [h, State.reset]; simp

theorem abraStart_legal : abraStart.Legal := legal_of (tables_reset rfl rfl rfl) (by decide)
theorem abStart_legal : abStart.Legal := legal_of (tables_reset rfl rfl rfl) (by decide)
theorem abraPacked_legal : abraPacked.Legal := legal_of (tables_reset rfl rfl rfl) (by decide)
theorem abPacked_legal : abPacked.Legal := legal_of (tables_reset rfl rfl rfl) (by decide)
theorem overflowed_legal : overflowed.Legal := legal_of (tables_reset rfl rfl rfl) (by decide)
theorem abraAssigned_legal : abraAssigned.Legal := legal_of (tables_abra rfl (.inr ⟨rfl, rfl⟩) (.inr rfl)) (by decide)
theorem abraBuilt_legal : abraBuilt.Legal := legal_of (tables_abra rfl (.inl rfl) (.inr rfl)) (by decide)
theorem abraSized_legal : abraSized.Legal := legal_of (tables_abra rfl (.inl rfl) (.inr rfl)) (by decide)
theorem abraTable_legal : abraTable.Legal := legal_of (tables_abra rfl (.inl rfl) (.inl rfl)) (by decide)
theorem abraReady_legal : abraReady.Legal := legal_of (tables_abra rfl (.inl rfl) (.inl rfl)) (by decide)

/-- The lengths of "abracadabra" as a function, and its code. -/
def abraLen (v : Byte) : Nat := if v = 0x61 then 1 else if v = 0x62 ∨ v = 0x63 ∨ v = 0x64 ∨ v = 0x72 then 3 else 0

theorem abraLens_at (v : Byte) : abraLens.at v = BitVec.ofNat 5 (abraLen v) := by revert v; decide +kernel

theorem abraCode_at (v : Byte) : abraCode.at v = canonicalCode abraLen v := by revert v; decide +kernel

/-- The codeword of 'a' begins the windows below 128, that of each other value 32 windows. -/
theorem abraDtbl_at : ∀ v ∈ [(0x61 : Byte), 0x62, 0x63, 0x64, 0x72], ∀ w : Byte,
    w.toNat / 2 ^ (8 - abraLen v) = (canonicalCode abraLen v).val.toNat → abraDtbl.at w = ⟨v, BitVec.ofNat 5 (abraLen v)⟩ := by
  have e : (fun w => abraDtbl.at w) = _ := funext fun w => Table.at_ofFn _ w
  intro v hv w
  rw [congrFun e w]
  revert v w
  decide +kernel

theorem abraLen_present (v : Byte) : abraLen v ≠ 0 → v ∈ [(0x61 : Byte), 0x62, 0x63, 0x64, 0x72] := by revert v; decide +kernel

/-- A legal state with the tables of "abracadabra" meets the invariant. -/
theorem inv_abra {s : State} (h : s.Legal) (h1 : s.lens = abraLens) (h2 : s.code = abraCode) (h3 : s.dtbl = abraDtbl) : s.Inv := by
  have e : s.lenOf = abraLen := by
    funext v
    rw [State.lenOf, h1, abraLens_at, BitVec.toNat_ofNat, Nat.mod_eq_of_lt]
    unfold abraLen
    split_ifs <;> decide
  refine { h with codeBuilt := fun _ v => ?_, dtblBuilt := fun _ v w hv hw => ?_, dtblShort := fun _ v => ?_, dtblEmpty := fun _ hp => ?_ }
  · rw [h2, e, abraCode_at]
  · rw [e] at hv hw
    rw [h2, abraCode_at] at hw
    rw [h3, h1, abraLens_at]
    exact abraDtbl_at v (abraLen_present v hv) w hw
  · rw [e]; unfold abraLen; split_ifs <;> decide
  · rw [e] at hp; exact absurd hp (by decide +kernel)

theorem abraReady_inv : abraReady.Inv := inv_abra abraReady_legal rfl rfl rfl

/-! ### Legal instructions (R92) -/

theorem test_wf_refuses_zero_17 : (Instr.bvZero 17).wellFormed = false := by decide
theorem test_wf_refuses_next_31 : (Instr.bvNext 31).wellFormed = false := by decide
theorem test_wf_accepts_zero_16 : (Instr.bvZero 16).wellFormed = true := by decide

/-! ### Decoding: each word written out from its format (R92): opcode byte (R96), must-be-0 bits, operand -/

theorem test_decode_nop : decode (0x00#8 ++ 0#24) = .ok .nop := by rfl
theorem test_decode_srst : decode (0x01#8 ++ 0#24) = .ok .srst := by rfl
theorem test_decode_bvZero : decode (0x10#8 ++ 0#19 ++ 0b10000#5) = .ok (.bvZero 16) := by rfl
theorem test_decode_bvNext : decode (0x11#8 ++ 0#19 ++ 0b00011#5) = .ok (.bvNext 3) := by rfl
theorem test_decode_bvCopy : decode (0x12#8 ++ 0#24) = .ok .bvCopy := by rfl
theorem test_decode_bvLdc : decode (0x13#8 ++ 0#16 ++ 0x72#8) = .ok (.bvLdc 0x72) := by rfl
theorem test_decode_ftClr : decode (0x20#8 ++ 0#24) = .ok .ftClr := by rfl
theorem test_decode_ftScan : decode (0x21#8 ++ 0#24) = .ok .ftScan := by rfl
theorem test_decode_ftScanp : decode (0x22#8 ++ 0#24) = .ok .ftScanp := by rfl
theorem test_decode_pmRun : decode (0x30#8 ++ 0#24) = .ok .pmRun := by rfl
theorem test_decode_cbBuild : decode (0x40#8 ++ 0#24) = .ok .cbBuild := by rfl
theorem test_decode_encAlloc : decode (0x50#8 ++ 0#24) = .ok .encAlloc := by rfl
theorem test_decode_encHdr : decode (0x51#8 ++ 0#24) = .ok .encHdr := by rfl
theorem test_decode_encBody : decode (0x52#8 ++ 0#24) = .ok .encBody := by rfl
theorem test_decode_encBodyp : decode (0x53#8 ++ 0#24) = .ok .encBodyp := by rfl
theorem test_decode_encPut : decode (0x54#8 ++ 0#16 ++ 0xFF#8) = .ok (.encPut 255) := by rfl
theorem test_decode_encodep : decode (0x5E#8 ++ 0#24) = .ok .encodep := by rfl
theorem test_decode_encode : decode (0x5F#8 ++ 0#24) = .ok .encode := by rfl
theorem test_decode_decHdr : decode (0x60#8 ++ 0#24) = .ok .decHdr := by rfl
theorem test_decode_decTbl : decode (0x61#8 ++ 0#24) = .ok .decTbl := by rfl
theorem test_decode_decAlloc : decode (0x62#8 ++ 0#24) = .ok .decAlloc := by rfl
theorem test_decode_decBody : decode (0x63#8 ++ 0#24) = .ok .decBody := by rfl
theorem test_decode_decBodyp : decode (0x64#8 ++ 0#24) = .ok .decBodyp := by rfl
theorem test_decode_decGet : decode (0x65#8 ++ 0#24) = .ok .decGet := by rfl
theorem test_decode_decodep : decode (0x6E#8 ++ 0#24) = .ok .decodep := by rfl
theorem test_decode_decode : decode (0x6F#8 ++ 0#24) = .ok .decode := by rfl

/-! Illegal words (95_test_vectors.md 2.8) -/

theorem test_decode_unassigned : decode 0x02000000 = .error .unassignedOpcode := by rfl
theorem test_decode_bit5 : decode 0x10000020 = .error .mustBeZero := by rfl
theorem test_decode_len17 : decode 0x10000011 = .error .lengthRange := by rfl
theorem test_decode_bit8 : decode 0x13000100 = .error .mustBeZero := by rfl

/-- 30_encoding.md R98: "`ENC.PUT 'a'` is `ENC.PUT 97`", and its word is 0x54000061. -/
theorem test_listing : listing (.encPut 0x61) = "ENC.PUT 97" ∧ encode (.encPut 0x61) = 0x54000061 := by decide +kernel

/-! ### One step of each command (95_test_vectors.md) -/

/-- 46_control.md R240, R91: `BUSY` falls. -/
theorem test_nop : isNext (exec .nop (State.reset.accept 0)) (fun t => !t.busy) = true := by decide
/-- Program 3.1 line 13. -/
theorem test_srst : isNext (exec .srst overflowed) (fun t => t.statusWord == 0 && t.bv.word == 0) = true := by decide
/-- 2.1 row 3. -/
theorem test_bvZero : isNext (exec (.bvZero 16) overflowed) (fun t => t.bv.word == 0x00100000) = true := by decide
/-- 2.1: (5, 4), `BV.NEXT 8`. -/
theorem test_bvNext :
    isNext (exec (.bvNext 8) { State.reset with bv := ⟨5, 4⟩ }) (fun t => t.bv.word == 0x00080060) = true := by decide
/-- 2.1: (3, 2), `BV.NEXT 1`. -/
theorem test_bvNext_shift_neg :
    isNext (exec (.bvNext 1) { State.reset with bv := ⟨3, 2⟩ }) (faulted 0x007 0x0102) = true := by decide
/-- 2.2 row 4: 16 bits at phase 7. -/
theorem test_bvCopy :
    isNext (exec .bvCopy { abraSized with bv := ⟨0xFFFF, 16⟩, bitpos := 7 })
      (fun t => t.snk == [(0, 0x01), (1, 0xFF), (2, 0xFE)] && t.bitpos == 7) = true := by decide +kernel
/-- 2.2 bounds: low32(2^37) = 0. -/
theorem test_bvCopy_bounds :
    isNext (exec .bvCopy { abraSized with bv := ⟨3, 2⟩, bitpos := 2 ^ 40 + 3, snkSize := 100 }) (faulted 0x00A 0) = true := by
  decide +kernel
/-- Program 3.3 line 6. -/
theorem test_bvLdc : isNext (exec (.bvLdc 0x72) abraBuilt) (fun t => t.bv.word == 0x00030007) = true := by decide +kernel
/-- 41_frequency.md R130. -/
theorem test_ftClr : isNext (exec .ftClr abraBuilt) (fun t => t.freq.at 0x61 == 0) = true := by decide +kernel
/-- Program 3.3 line 3. -/
theorem test_ftScan : isNext (exec .ftScan abraStart) (fun t => t.freq.at 0x61 == 5 && t.freq.at 0x72 == 2) = true := by
  decide +kernel
/-- Program 3.3 line 3, paged, 3 lanes, pages of 4 in a disorder. -/
theorem test_ftScanp :
    isNext (exec .ftScanp { abraStart with params := ⟨4, 0, 0, 3⟩, sched := ⟨⟨[2, 0, 2], [1, 1], [1, 0]⟩, ⟨[], [], []⟩⟩ })
      (fun t => t.freq.at 0x61 == 5 && t.freq.at 0x72 == 2) = true := by decide +kernel
/-- 2.3 trace T2: lengths of `PM.RUN`. -/
theorem test_pmRun_lengths : lengths [5, 2, 1, 1, 2] = [1, 3, 3, 3, 3] := by decide +kernel
/-- 2.3 trace T6: the tie-break. -/
theorem test_pmRun_ties : lengths [1, 1, 1, 1, 1] = [3, 3, 2, 2, 2] := by decide +kernel
/-- 2.4: a 2, b 1, c 3, d 3 in canonical order b, a, c, d. -/
theorem test_cbBuild_codes : (match assignCodes [1, 2, 3, 3] with
    | .ok cs => cs == [⟨0, 1⟩, ⟨2, 2⟩, ⟨6, 3⟩, ⟨7, 3⟩]
    | .error _ => false) = true := by decide
/-- 2.5 last row. -/
theorem test_encAlloc_sequence : isNext (exec .encAlloc abraAssigned) (faulted 0x002 0x008) = true := by decide +kernel
/-- 2.5 row 1. -/
theorem test_encAlloc :
    isNext (exec .encAlloc { abraBuilt with snkCap := 267 })
      (fun t => t.encBits == 23 && t.snkSize == 267 && t.bitpos == 2112 && t.statusWord == 0x02C) = true := by decide +kernel
/-- Program 3.3 line 8. -/
theorem test_encHdr : isNext (exec .encHdr abraSized) (fun t => t.snk == abraHeader) = true := by decide +kernel
/-- Program 3.3: the third `ENC.PUT`, 'r' at 2116, on `SNK[264]` = 40. -/
theorem test_encPut :
    isNext (exec (.encPut 0x72) { abraSized with bitpos := 2116, snk := [(264, 0x40)] })
      (fun t => t.snk == [(264, 0x4E)] && t.bitpos == 2119) = true := by decide +kernel
/-- Program 3.7 line 10. -/
theorem test_encPut_absent : isNext (exec (.encPut 0x7A) abraSized) (faulted 0x00B 0x7A) = true := by decide +kernel
/-- Program 3.3 line 9. -/
theorem test_encBody : isNext (exec .encBody abraSized) (fun t => t.snk == abraBody && t.bitpos == 2135) = true := by
  decide +kernel
/-- Program 3.3 line 9, by `ENC.BODYP`, pages of 3 on 2 lanes. -/
theorem test_encBodyp :
    isNext (exec .encBodyp { abraSized with params := ⟨3, 0, 0, 2⟩, sched := ⟨⟨[], [], []⟩, ⟨[1, 0, 1], [2, 1], [1, 1, 0, 1]⟩⟩ })
      (fun t => t.snk == abraBody && t.bitpos == 2135) = true := by decide +kernel
/-- Program 3.2 line 4. -/
theorem test_encode :
    isNext (exec .encode abStart)
      (fun t => t.snk == abContainer && t.snkSize == 265 && t.bitpos == 2114 && t.statusWord == 0x02C) = true := by
  decide +kernel
/-- Program 3.4 line 2. -/
theorem test_decHdr :
    isNext (exec .decHdr abraPacked) (fun t => t.orig == 11 && t.nsym == 5 && t.lens.at 0x72 == 3 && t.statusWord == 0x080) = true := by
  decide +kernel
/-- Program 3.6 line 2. -/
theorem test_decHdr_kraft :
    isNext (exec .decHdr (withSrc [(0, 1), (105, 1), (106, 2)] 265 16)) (faulted 0x405 0x0000C000) = true := by decide +kernel
/-- Program 3.4 line 4, at 'c' and past its end. -/
theorem test_decTbl :
    isNext (exec .decTbl { abraTable with dtbl := State.reset.dtbl })
      (fun t => (t.dtbl.at 191).word == 0x0363 && (t.dtbl.at 192).word == 0x0364) = true := by decide +kernel
/-- Program 3.4 line 5. -/
theorem test_decAlloc :
    isNext (exec .decAlloc abraTable) (fun t => t.snkSize == 11 && t.bitpos == 2112 && t.statusWord == 0x0F8) = true := by
  decide +kernel
/-- Program 3.4 line 7. -/
theorem test_decGet :
    isNext (exec .decGet { abraReady with outpos := 1, bitpos := 2113 })
      (fun t => t.snk == [(1, 0x62)] && t.outpos == 2 && t.bitpos == 2116) = true := by decide +kernel
/-- Program 3.4 line 10. -/
theorem test_decGet_end : isNext (exec .decGet { abraReady with outpos := 11 }) (faulted 0x00A 11) = true := by decide +kernel
/-- Program 3.4 line 9. -/
theorem test_decBody :
    isNext (exec .decBody abraReady) (fun t => t.snk == bytesAt 0 abra && t.outpos == 11 && t.bitpos == 2135) = true := by
  decide +kernel
/-- Program 3.4 line 9, by `DEC.BODYP`, pages of 4 on 2 lanes. -/
theorem test_decBodyp :
    isNext (exec .decBodyp { abraReady with sched := ⟨⟨[], [], []⟩, ⟨[1, 0, 0], [2], [1, 0, 1]⟩⟩ })
      (fun t => t.snk == bytesAt 0 abra && t.outpos == 11 && t.bitpos == 2135) = true := by decide +kernel
/-- Program 3.2 line 9 (from reset, so without `EXPANDED`). -/
theorem test_decode :
    isNext (exec .decode abPacked) (fun t => t.snk == bytesAt 0 [0x61, 0x62] && t.bitpos == 2114 && t.statusWord == 0x0F8) = true := by
  decide +kernel
/-- 45_decoder.md R201 check 1. -/
theorem test_decodep_short : isNext (exec .decodep (withSrc [] 263 0)) (faulted 0x105 263) = true := by decide +kernel

/-! ### The register port and the fault state (2.9, 3.1) -/

/-- Program 3.1 line 12. -/
theorem test_dropped :
    isNext (step { overflowed with host := [.write 0x010 0x10000001] }) (fun t => t.statusWord == 0x102 && t.bv == ⟨7, 3⟩) = true := by
  decide
/-- 2.9: an unaligned address. -/
theorem test_write_unaligned : isNext (step { State.reset with host := [.write 0x016 9] }) (fun t => t.srcSize == 9) = true := by
  decide
/-- 2.9: `WR LEN['a'], 0x00010001` is ignored. -/
theorem test_write_len_ignored :
    isNext (step { abraBuilt with host := [.write 0x984 0x00010001] })
      (fun t => t.lens.at 0x61 == 1 && t.status.codeV) = true := by decide +kernel
/-- 2.9: `RD ID`. -/
theorem test_read_id : isNext (step { State.reset with host := [.read 0x000] }) (fun t => t.rdata == 0x53484331) = true := by decide

/-! ### For each statement with hypotheses, a case that meets them; one for each clause -/

theorem witness_DecodeOfEncodeIsTheCommand : (Instr.bvNext 16).wellFormed = true := by decide

theorem witness_DecodedWordIsItsCommandsWord :
    decode 0x10000010 = .ok (.bvZero 16) ∧ (Instr.bvZero 16).wellFormed = true ∧ encode (.bvZero 16) = 0x10000010 := ⟨rfl, rfl, rfl⟩

theorem witness_StepRunsTheDecodedCommand_write :
    ∃ (s : State) (addr : BitVec 13) (w : Word) (i : Instr) (rest : List HostMove), s.host = .write addr w :: rest ∧
      addr.toNat / 4 = 4 ∧ s.running = none ∧ (s.status.fault = false ∨ w = 0x01000000) ∧ decode w = .ok i :=
  ⟨{ overflowed with host := [.write 0x013 0x01000000] }, 0x013, 0x01000000, .srst, [], rfl, by decide, rfl, .inr rfl, rfl⟩

theorem witness_StepRunsTheDecodedCommand_word :
    abraSized.running = none ∧ abraSized.status.fault = false ∧ decodeTableWord 32 0x54000061 = some (.encPut 0x61) := by decide

theorem witness_IllegalWordRaisesIllegalCmd :
    ∃ (s : State) (addr : BitVec 13) (w : Word) (rest : List HostMove), s.host = .write addr w :: rest ∧
      addr.toNat / 4 = 4 ∧ s.running = none ∧ s.status.fault = false ∧
      ∀ i : Instr, i.wellFormed = true → encode i ≠ w := by
  refine ⟨{ abraSized with host := [.write 0x010 0x10000011] }, 0x010, 0x10000011, [], rfl, by decide, rfl, rfl, ?_⟩
  intro i
  cases i with
  | bvZero len => revert len; decide
  | bvNext len => revert len; decide
  | bvLdc v => revert v; decide +kernel
  | encPut v => revert v; decide +kernel
  | _ => decide

theorem witness_DroppedWordSetsOnlyCmdDropped_busy :
    ∃ (s : State) (w : Word) (rest : List HostMove) (m : HostMove), m = .start w ∧ s.host = m :: rest ∧
      ∃ v, s.running = some v :=
  ⟨{ State.reset with running := some 0, host := [.start 0x01000000] }, 0x01000000, [], _, rfl, rfl, 0, rfl⟩

theorem witness_DroppedWordSetsOnlyCmdDropped_fault :
    ∃ (s : State) (w : Word) (rest : List HostMove) (m : HostMove) (addr : BitVec 13), addr.toNat / 4 = 4 ∧
      m = .write addr w ∧ s.host = m :: rest ∧ s.status.fault = true ∧ w ≠ 0x01000000 :=
  ⟨{ overflowed with host := [.write 0x010 0x01000001] }, 0x01000001, [], _, 0x010, by decide, rfl, rfl, rfl, by decide⟩

/-- The fault state kept by a dropped command. -/
theorem witness_FaultStateIsLeftOnlyByReset_kept :
    ∃ s t : State, s.Legal ∧ s.status.fault = true ∧ step s = .next t ∧ t.status.fault = true := by
  refine ⟨{ overflowed with host := [.write 0x010 0] }, _, legal_of (tables_reset rfl rfl rfl) (by decide), rfl, rfl, rfl⟩

/-- The fault state left by hard reset. -/
theorem witness_FaultStateIsLeftOnlyByReset_left :
    ∃ s t : State, s.Legal ∧ s.status.fault = true ∧ step s = .next t ∧ t.status.fault = false := by
  refine ⟨{ overflowed with host := [.hardReset] }, _, legal_of (tables_reset rfl rfl rfl) (by decide), rfl, rfl, rfl⟩

theorem witness_FaultsArePrecise :
    ∃ t, isMacro (.encPut 0x7A) = false ∧ abraSized.status.fault = false ∧ exec (.encPut 0x7A) abraSized = .next t ∧
      t.status.fault = true := by
  obtain ⟨t, h, hp⟩ := of_isNext test_encPut_absent
  simp only [faulted, Bool.and_eq_true] at hp
  exact ⟨t, rfl, rfl, h, hp.1.1.1⟩

theorem witness_FaultsArePrecise_bulk :
    ∃ (s t : State), isMacro .encBody = false ∧ s.status.fault = false ∧ exec .encBody s = .next t ∧ t.status.fault = true := by
  obtain ⟨t, h, hp⟩ := of_isNext (o := exec .encBody { abraSized with src := [(0, 0x7A)], srcSize := 1 })
    (p := fun t => t.status.fault) (by decide +kernel)
  exact ⟨_, t, rfl, rfl, h, hp⟩

theorem witness_SequenceFaultIsExact_missing :
    (Instr.decGet).wellFormed = true ∧ isMacro .decGet = false ∧ (0x070 : Word) ≠ 0 ∧
      ∀ n < 32, (0x070 : Word).getLsbD n = true ↔
        ∃ b, (n, b) ∈ reqColumn .decGet ∧ State.reset.statusWord.getLsbD n ≠ b := by decide

theorem witness_SequenceFaultIsExact_met :
    (Instr.encHdr).wellFormed = true ∧ isMacro .encHdr = false ∧ (∃ t, exec .encHdr abraSized = .next t) ∧
      ∀ n < 32, (0 : Word).getLsbD n = true ↔
        ∃ b, (n, b) ∈ reqColumn .encHdr ∧ abraSized.statusWord.getLsbD n ≠ b :=
  ⟨rfl, rfl, exists_next (runEncHdr abraSized), by decide⟩

/-- The one refusal of `step`. -/
theorem witness_EveryStepCompletes_refused :
    step { State.reset with running := some 0, host := [.srcRead 0] } = .refused .hostMemoryAccessWhileBusy := by rfl

theorem witness_MacrosAreTheirExpansions : abraStart.status.fault = false := by rfl

theorem witness_ReadsChangeNoState :
    ∃ (s : State) (addr : BitVec 13) (rest : List HostMove), s.host = .read addr :: rest ∧ s.running = none ∧ addr.toNat / 4 = 1 :=
  ⟨{ State.reset with host := [.read 0x007] }, 0x007, [], rfl, rfl, by decide⟩

/-- Clauses of the register map at the ends of their ranges. -/
theorem witness_RegisterMapReads :
    regAt 0x000 = .id ∧ regAt 0x040 = .encBitsHi ∧ regAt 0x044 = .reserved ∧ regAt 0x3FC = .reserved ∧ regAt 0x400 = .freq 0 ∧
      regAt 0x7FC = .freq 255 ∧ regAt 0x800 = .len 0 ∧ regAt 0xBFC = .len 255 ∧ regAt 0xC00 = .code 0 ∧ regAt 0xFFC = .code 255 ∧
      regAt 0x1000 = .dtbl 0 ∧ regAt 0x13FF = .dtbl 255 ∧ regAt 0x1400 = .reserved ∧ regAt 0x1FFC = .reserved := by decide

/-- `FAULT_CAUSE` of the last cause and of the last sub-cause (R251). -/
theorem witness_RegisterMapReads_cause :
    regAt 0x008 = .faultCause ∧ ({ overflowed with faultCause := .absentSymbol }).readReg .faultCause = 11 ∧
      ({ overflowed with faultCause := .malformedHeader .bodySize }).readReg .faultCause = 0x705 := by decide

theorem witness_PortWritesStoreLegalBits :
    ∃ (s : State) (addr : BitVec 13) (x : Word) (rest : List HostMove), s.host = .write addr x :: rest ∧ addr.toNat / 4 ≠ 4 ∧
      s.running = none ∧ s.status.fault = false ∧ addr.toNat / 4 = 0x200 + (0xFF : Byte).toNat ∧ x.toNat ≤ 16 :=
  ⟨{ State.reset with host := [.write 0xBFC 16] }, 0xBFC, 16, [], rfl, by decide, rfl, rfl, by decide, by decide⟩

theorem witness_PortWritesStoreLegalBits_ignored :
    ∃ (s : State) (addr : BitVec 13) (x : Word) (rest : List HostMove), s.host = .write addr x :: rest ∧ addr.toNat / 4 ≠ 4 ∧
      s.running = none ∧ s.status.fault = false ∧ addr.toNat / 4 = 0x200 + (0 : Byte).toNat ∧ 16 < x.toNat :=
  ⟨{ State.reset with host := [.write 0x800 17] }, 0x800, 17, [], rfl, by decide, rfl, rfl, by decide, by decide⟩

theorem witness_PortWritesStoreLegalBits_faulted :
    ∃ (s : State) (addr : BitVec 13) (x : Word) (rest : List HostMove), s.host = .write addr x :: rest ∧ addr.toNat / 4 ≠ 4 ∧
      s.status.fault = true :=
  ⟨{ overflowed with host := [.write 0x014 5] }, 0x014, 5, [], rfl, by decide, rfl⟩

theorem witness_HostMemoryWrites :
    ∃ (s : State) (a : BitVec 32) (b : Byte) (rest : List HostMove), s.Legal ∧ s.running = none ∧ s.host = .srcWrite a b :: rest :=
  ⟨{ abraStart with host := [.srcWrite 0xFFFFFFFF 0] }, 0xFFFFFFFF, 0, [], legal_of (tables_reset rfl rfl rfl) (by decide), rfl, rfl⟩

theorem witness_HostMemoryWrites_sink :
    ∃ (s : State) (a : BitVec 32) (b : Byte) (rest : List HostMove), s.Legal ∧ s.running = none ∧ s.host = .snkWrite a b :: rest :=
  ⟨{ abraStart with host := [.snkWrite 0 255] }, 0, 255, [], legal_of (tables_reset rfl rfl rfl) (by decide), rfl, rfl⟩

theorem witness_SrstAndHardResetRestoreResetState : overflowed.running = none := by rfl

theorem witness_HardResetAbortsTheRunningCommand :
    ∃ (s t : State) (w : Word) (i : Instr), s.running = some w ∧ decode w = .ok i ∧ exec i s = .next t ∧
      s.snkSize.toNat ≤ 267 ∧ t.snkSize.toNat ≤ 267 := by
  obtain ⟨t, h, hp⟩ := of_isNext (o := exec .encBody { abraSized with srcSize := 0, running := some 0x52000000 })
    (p := fun t => decide (t.snkSize.toNat ≤ 267)) (by decide +kernel)
  exact ⟨_, t, 0x52000000, .encBody, rfl, rfl, h, by decide, by simpa using hp⟩

theorem witness_HardResetAbortsTheRunningCommand_illegal :
    ∃ (s : State) (w : Word), s.running = some w ∧ ∀ i, decode w ≠ .ok i :=
  ⟨{ abraSized with running := some 0x10000011 }, 0x10000011, rfl, fun i h => by cases h⟩

theorem witness_HardResetAbortsTheRunningCommand_noSink :
    ∃ (s : State) (w : Word) (v : Byte), s.running = some w ∧ decode w = .ok (.bvLdc v) :=
  ⟨{ abraSized with running := some 0x13000061 }, 0x13000061, 0x61, rfl, rfl⟩

theorem witness_EveryStepKeepsTheInvariant :
    ∃ s t : State, s.Legal ∧ step s = .next t ∧ s.host ≠ [] :=
  ⟨{ abraReady with host := [.write 0x010 0] }, _, legal_of (tables_abra rfl (.inl rfl) (.inl rfl)) (by decide), rfl, by decide⟩

/-- The whole invariant, with both valid flags set. -/
theorem witness_EveryStepKeepsTheInvariant_built :
    ∃ s t : State, s.Inv ∧ step s = .next t ∧ s.host ≠ [] ∧ s.status.codeV = true ∧ s.status.dtblV = true :=
  ⟨{ abraReady with host := [.write 0x010 0] }, _,
    inv_abra (legal_of (tables_abra rfl (.inl rfl) (.inl rfl)) (by decide)) rfl rfl rfl, rfl, by decide, rfl, rfl⟩

/-- `CB.BUILD` sets `CODE_V`, for the statements about any command that ends in a next state. -/
theorem witness_StatusFlagsAreSetOnlyByTheirCommands :
    ∃ t, exec .decAlloc abraTable = .next t ∧ abraTable.status.snkV = false ∧ t.status.snkV = true ∧
      abraTable.status.snkDec = false ∧ t.status.snkDec = true := by
  obtain ⟨t, h, hp⟩ := of_isNext (o := exec .decAlloc abraTable) (p := fun t => t.status.snkV && t.status.snkDec)
    (by decide +kernel)
  simp only [Bool.and_eq_true] at hp
  exact ⟨t, h, rfl, hp.1, rfl, hp.2⟩

theorem witness_CommandsLeaveOthersRegistersAlone : ∃ t, exec .pmRun abraStart = .next t :=
  exists_next (runPmRun abraStart)

theorem witness_SourceIsReadOnlyBelowItsSize :
    ∃ (t : State) (m : Mem), m ≠ abraStart.src ∧ (∀ a < abraStart.srcSize.toNat, m.read a = abraStart.src.read a) ∧
      exec .ftScan abraStart = .next t := by
  obtain ⟨t, h⟩ := exists_next (runFtScan abraStart)
  exact ⟨t, bytesAt 0 (abra ++ [1]), by decide, by decide, h⟩

theorem witness_SinkIsChangedOnlyBelowItsSize :
    ∃ t, exec .nop abraSized = .next t ∧ abraSized.snkSize.toNat ≤ 267 ∧ t.snkSize.toNat ≤ 267 :=
  ⟨_, rfl, by decide, by decide⟩

theorem witness_StartThenWaitIsOneTransition :
    ∃ (s : State) (w : Word) (rest : List HostMove), s.host = .start w :: .wait :: rest ∧ s.running = none ∧
      (s.status.fault = false ∨ w = 0x01000000) :=
  ⟨{ overflowed with host := [.start 0x01000000, .wait] }, 0x01000000, [], rfl, rfl, .inr rfl⟩

theorem witness_BvZeroAndLdcResults : (16 : BitVec 5).toNat ≤ 16 ∧ abraBuilt.status.codeV = true := by decide

/-- The three clauses of `BV.NEXT`, on the default vector and on the last code of 16 bits. -/
theorem witness_BvNextResult :
    let b : BV := ⟨0xFFFE, 16⟩
    let z : BV := ⟨0, 0⟩
    ((16 : BitVec 5).toNat ≤ 16 ∧ (15 : BitVec 5).toNat < b.len.toNat) ∧
      (z.len.toNat ≤ (0 : BitVec 5).toNat ∧ 2 ^ (0 : BitVec 5).toNat ≤ (z.val.toNat + 1) * 2 ^ ((0 : BitVec 5).toNat - z.len.toNat)) ∧
      (b.len.toNat ≤ (16 : BitVec 5).toNat ∧
        (b.val.toNat + 1) * 2 ^ ((16 : BitVec 5).toNat - b.len.toNat) < 2 ^ (16 : BitVec 5).toNat) := by decide

theorem witness_SuccessorAdvancesLeftJustifiedValue :
    (⟨0, 1⟩ : BV).wf ∧ (16 : BitVec 5).toNat ≤ 16 ∧ bvNext ⟨0, 1⟩ 16 = .ok ⟨32768, 16⟩ := ⟨by decide, by decide, rfl⟩

/-- A complete chain, and one with a code too many (2.4). -/
theorem witness_SuccessorAdvancesLeftJustifiedValue_chain :
    ([1, 2, 2] : List (BitVec 5)).Pairwise (fun k l => k.toNat ≤ l.toNat) ∧ (∀ l ∈ ([1, 2, 2] : List (BitVec 5)), l.toNat ≤ 16) ∧
      assignCodes [1, 2, 2] = .ok [⟨0, 1⟩, ⟨2, 2⟩, ⟨3, 2⟩] ∧ assignCodes [1, 1, 16] = .error ⟨.bvOverflow, 65536⟩ :=
  ⟨by decide, by decide, rfl, rfl⟩

theorem witness_BvCopyOrsTheCodeword_empty : abraSized.Legal ∧ abraSized.status.snkV = true ∧ abraSized.bv.len = 0 :=
  ⟨abraSized_legal, rfl, rfl⟩

/-- One bit too far, and the last bit that fits. -/
theorem witness_BvCopyOrsTheCodeword_bounds :
    ∃ s : State, s.Legal ∧ s.status.snkV = true ∧ s.bv.len ≠ 0 ∧ s.snkSize.toNat < (s.bitpos.toNat + s.bv.len.toNat + 7) / 8 :=
  ⟨{ abraSized with bv := ⟨1, 1⟩, bitpos := 2136 }, legal_of (tables_abra rfl (.inl rfl) (.inr rfl)) (by decide), rfl, by decide, by decide⟩

theorem witness_BvCopyOrsTheCodeword_fits :
    ∃ s : State, s.Legal ∧ s.status.snkV = true ∧ s.bv.len ≠ 0 ∧ (s.bitpos.toNat + s.bv.len.toNat + 7) / 8 ≤ s.snkSize.toNat :=
  ⟨{ abraSized with bv := ⟨1, 1⟩, bitpos := 2135 }, legal_of (tables_abra rfl (.inl rfl) (.inr rfl)) (by decide), rfl, by decide, by decide⟩

theorem witness_FtScanCountsEveryByte : abraStart.params.legal := by decide

theorem witness_FtScanpEqualsFtScan : (withSrc [(0, 1)] 1 0).params.legal := by decide

theorem witness_LengthsAreWithinCeilLogTwo : 2 ≤ [1, 1].length ∧ [1, 1].length = 2 ^ 1 ∧ [1, 1].length ≤ 256 := by decide

theorem witness_PackageMergeSatisfiesKraftEquality : 2 ≤ [1, 1].length ∧ ∀ w ∈ [1, 1], 0 < w := by decide

theorem witness_PackageMergeSatisfiesKraftEquality_more : 2 ≤ [5, 2, 1].length ∧ ∀ w ∈ [5, 2, 1], 0 < w := by decide

theorem witness_LengthsIgnoreScale : 0 < 1 := by decide

theorem witness_CbBuildMakesTheCanonicalCode_complete : abraAssigned.Legal ∧ kraftSum abraAssigned.lenOf ≤ Config.kraftOne :=
  ⟨abraAssigned_legal, abraLens_kraft.le⟩

/-- 2.4: a 1, b 1, c 16, one more than complete. -/
theorem witness_CbBuildMakesTheCanonicalCode_oversubscribed :
    ∃ s : State, s.Legal ∧ Config.kraftOne < kraftSum s.lenOf := by
  refine ⟨{ State.reset with lens := (Table.const 0).putAll [(0x61, 1), (0x62, 1), (0x63, 16)] }, legal_of ?_ (by decide), by decide +kernel⟩
  refine ⟨fun v => ?_, (tables_reset (s := State.reset) rfl rfl rfl).code, (by intro h; cases h), (by intro h; cases h),
    (tables_reset (s := State.reset) rfl rfl rfl).dtbl⟩
  have h : ∀ p ∈ [((0x61 : Byte), (1 : BitVec 5)), (0x62, 1), (0x63, 16)], p.2.toNat ≤ 16 := by simp
  generalize [((0x61 : Byte), (1 : BitVec 5)), (0x62, 1), (0x63, 16)] = ps at h
  exact at_putAll_forall (P := fun l : BitVec 5 => l.toNat ≤ 16) (by decide) h v

theorem witness_CodeChainOverflowsIffOverSubscribed : abraAssigned.Legal := abraAssigned_legal

/-- The lengths of "ab" as a function. -/
def abLen (v : Byte) : Nat := if v = 0x61 ∨ v = 0x62 then 1 else 0

theorem witness_CanonicalCodeIsPrefixFree :
    (∀ v, abLen v ≤ 16) ∧ (∀ v, abLen v ≤ 8) ∧ kraftSum abLen ≤ Config.kraftOne ∧ kraftSum abLen = Config.kraftOne ∧
      (0x61 : Byte) ≠ 0x62 ∧ abLen 0x61 ≠ 0 ∧ abLen 0x62 ≠ 0 ∧ abLen 0x61 ≤ abLen 0x62 ∧
      (0x62 : Byte) ∈ (canonicalOrder abLen).getLast? := by decide +kernel

theorem witness_CanonicalCodeIsPrefixFree_single :
    let len : Byte → Nat := fun v => if v = 0x61 then 1 else 0
    (∀ v, len v ≤ 16) ∧ kraftSum len ≤ Config.kraftOne ∧ present len = [0x61] ∧ len 0x61 = 1 := by decide +kernel

/-- A weight with no code, at the least value. -/
theorem witness_EncAllocSizesTheSink_absent :
    ∃ s : State, s.status.codeV = true ∧ s.freq.at 0 ≠ 0 ∧ (s.code.at 0).len = 0 ∧
      ∀ u : Byte, u.toNat < (0 : Byte).toNat → s.freq.at u = 0 ∨ (s.code.at u).len ≠ 0 :=
  ⟨{ abraBuilt with freq := abraFreq.put 0 1 }, rfl, by rw [Table.at_put]; decide, by decide +kernel, fun _ h => absurd h (Nat.not_lt_zero _)⟩

/-- No weights: 264 bytes are needed, and there are 263 or 264. -/
theorem witness_EncAllocSizesTheSink_sized (cap : Word) (h : cap = 263 ∨ cap = 264) :
    ∃ s : State, s.status.codeV = true ∧ s.snkCap = cap ∧ (∀ v : Byte, s.freq.at v = 0 ∨ (s.code.at v).len ≠ 0) ∧
      (cap = 263 → s.snkCap.toNat < 264 + ((allBytes.map (fun v => (s.freq.at v).toNat * (s.code.at v).len.toNat)).sum + 7) / 8) ∧
      (cap = 264 → 264 + ((allBytes.map (fun v => (s.freq.at v).toNat * (s.code.at v).len.toNat)).sum + 7) / 8 ≤ s.snkCap.toNat) := by
  refine ⟨{ abraBuilt with freq := State.reset.freq, snkCap := cap }, rfl, rfl, fun v => .inl ?_, ?_, ?_⟩
  · simp [State.reset]
  · rintro rfl; simp [State.reset]
  · rintro rfl; simp [State.reset]

theorem witness_EncHdrWritesTheHeader :
    abraSized.Legal ∧ abraSized.status.codeV = true ∧ abraSized.status.snkV = true ∧ abraSized.status.snkDec = false :=
  ⟨abraSized_legal, rfl, rfl, rfl⟩

theorem witness_EncPutOrsTheCodeword_absent :
    abraSized.Legal ∧ abraSized.status.codeV = true ∧ abraSized.status.snkV = true ∧ abraSized.status.snkDec = false ∧
      (abraSized.code.at 0x7A).len = 0 :=
  ⟨abraSized_legal, rfl, rfl, rfl, by decide +kernel⟩

theorem witness_EncPutOrsTheCodeword_bounds :
    ∃ s : State, s.Legal ∧ s.status.codeV = true ∧ s.status.snkV = true ∧ s.status.snkDec = false ∧ (s.code.at 0x61).len ≠ 0 ∧
      s.snkSize.toNat < (s.bitpos.toNat + (s.code.at 0x61).len.toNat + 7) / 8 :=
  ⟨{ abraSized with bitpos := 2136 }, legal_of (tables_abra rfl (.inl rfl) (.inr rfl)) (by decide), rfl, rfl, rfl, by decide +kernel,
    by decide +kernel⟩

theorem witness_EncPutOrsTheCodeword_fits :
    ∃ s : State, s.Legal ∧ s.status.codeV = true ∧ s.status.snkV = true ∧ s.status.snkDec = false ∧ (s.code.at 0x61).len ≠ 0 ∧
      (s.bitpos.toNat + (s.code.at 0x61).len.toNat + 7) / 8 ≤ s.snkSize.toNat :=
  ⟨{ abraSized with bitpos := 2135 }, legal_of (tables_abra rfl (.inl rfl) (.inr rfl)) (by decide), rfl, rfl, rfl, by decide +kernel,
    by decide +kernel⟩

/-- The body of "abracadabra" fills the sink to its last byte. -/
theorem witness_EncBodyWritesTheCodewordStream :
    abraSized.Legal ∧ abraSized.status.codeV = true ∧ abraSized.status.snkV = true ∧ abraSized.status.snkDec = false ∧
      (∀ x ∈ abra, (abraSized.code.at x).len ≠ 0) ∧ abraSized.srcBytes = abra ∧
      264 + ((bodyStream abraSized.code.at abra).length + 7) / 8 ≤ abraSized.snkSize.toNat := by
  have h : abra.all (fun x => decide ((abraSized.code.at x).len ≠ 0)) = true := by decide +kernel
  exact ⟨abraSized_legal, rfl, rfl, rfl, fun x hx => of_decide_eq_true (List.all_eq_true.1 h x hx), by decide +kernel, by decide +kernel⟩

/-- "az": the second byte has no code. -/
theorem witness_EncBodyWritesTheCodewordStream_absent :
    ∃ s : State, s.Legal ∧ s.status.codeV = true ∧ s.status.snkV = true ∧ s.status.snkDec = false ∧ 1 < s.srcSize.toNat ∧
      (∀ j < 1, (s.code.at (s.src.read j)).len ≠ 0 ∧
        (2112 + (bodyStream s.code.at (s.srcBytes.take (j + 1))).length + 7) / 8 ≤ s.snkSize.toNat) ∧
      (s.code.at (s.src.read 1)).len = 0 :=
  ⟨{ abraSized with src := bytesAt 0 [0x61, 0x7A], srcSize := 2 }, legal_of (tables_abra rfl (.inl rfl) (.inr rfl)) (by decide), rfl, rfl,
    rfl, by decide, by decide +kernel, by decide +kernel⟩

/-- A sink a byte too short: the first eight codewords of "abracadabra" end at its last bit, and the ninth does not fit. -/
theorem witness_EncBodyWritesTheCodewordStream_bounds :
    ∃ s : State, s.Legal ∧ s.status.codeV = true ∧ s.status.snkV = true ∧ s.status.snkDec = false ∧ 8 < s.srcSize.toNat ∧
      (∀ j < 8, (s.code.at (s.src.read j)).len ≠ 0 ∧
        (2112 + (bodyStream s.code.at (s.srcBytes.take (j + 1))).length + 7) / 8 ≤ s.snkSize.toNat) ∧
      (s.code.at (s.src.read 8)).len ≠ 0 ∧
      s.snkSize.toNat < (2112 + (bodyStream s.code.at (s.srcBytes.take (8 + 1))).length + 7) / 8 :=
  ⟨{ abraSized with snkSize := 266 }, legal_of (tables_abra rfl (.inl rfl) (.inr rfl)) (by decide), rfl, rfl,
    rfl, by decide, by decide +kernel, by decide +kernel, by decide +kernel⟩

theorem witness_EncBodypEqualsEncBody :
    abraSized.Legal ∧ abraSized.status.fault = false ∧ ∃ t, exec .encBody abraSized = .next t ∧ t.status.fault = false := by
  obtain ⟨t, h, hp⟩ := of_isNext (o := exec .encBody abraSized) (p := fun t => !t.status.fault) (by decide +kernel)
  exact ⟨abraSized_legal, rfl, t, h, by simpa using hp⟩

theorem witness_EncodeWritesTheContainer : abraStart.Legal ∧ abraStart.status.fault = false := ⟨abraStart_legal, rfl⟩

theorem witness_EncodeCompletesWithRoom :
    ∃ s : State, s.Legal ∧ s.status.fault = false ∧ 264 + s.srcSize.toNat ≤ s.snkCap.toNat :=
  ⟨{ abStart with snkCap := 266 }, legal_of (tables_reset rfl rfl rfl) (by decide), rfl, by decide⟩

theorem witness_EncodepEqualsEncode :
    abraStart.Legal ∧ abraStart.status.fault = false ∧ ∃ t, exec .encode abraStart = .next t := by
  refine ⟨abraStart_legal, rfl, ?_⟩
  rw [exec, execEncode]
  exact exists_next _

/-- The clauses of the header checks, at the bounds of what they test: a size of 263, a length of 17, a nonzero size with no length, one
length of 2, a Kraft sum one too small, a length of 9, and a valid header. -/
theorem witness_DecHdrChecksAndLoads_short : (withSrc [] 263 0).srcSize.toNat < 264 := by decide

theorem witness_DecHdrChecksAndLoads_range :
    let s := withSrc [(8, 17)] 264 0
    264 ≤ s.srcSize.toNat ∧ 16 < (s.src.read (8 + (0 : Byte).toNat)).toNat ∧
      ∀ u : Byte, u.toNat < (0 : Byte).toNat → (s.src.read (8 + u.toNat)).toNat ≤ 16 :=
  ⟨by decide, by decide, fun _ h => absurd h (Nat.not_lt_zero _)⟩

theorem witness_DecHdrChecksAndLoads_empty :
    let s := withSrc [(0, 1)] 264 0
    let len : Byte → Nat := fun v => (s.src.read (8 + v.toNat)).toNat
    264 ≤ s.srcSize.toNat ∧ (∀ v, len v ≤ 16) ∧ present len = [] ∧
      ((List.range 8).map (fun a => (s.src.read a).toNat * 2 ^ (8 * a))).sum ≠ 0 := by decide +kernel

theorem witness_DecHdrChecksAndLoads_one :
    let s := withSrc [(263, 2)] 264 0
    let len : Byte → Nat := fun v => (s.src.read (8 + v.toNat)).toNat
    264 ≤ s.srcSize.toNat ∧ (∀ v, len v ≤ 16) ∧ present len = [255] ∧ len 255 ≠ 1 := by decide +kernel

theorem witness_DecHdrChecksAndLoads_kraft :
    let s := withSrc [(105, 1), (106, 2), (107, 3)] 264 0
    let len : Byte → Nat := fun v => (s.src.read (8 + v.toNat)).toNat
    264 ≤ s.srcSize.toNat ∧ (∀ v, len v ≤ 16) ∧ 2 ≤ (present len).length ∧ kraftSum len ≠ 65536 := by decide +kernel

theorem witness_DecHdrChecksAndLoads_window :
    let s := withSrc (bytesAt 8 [1, 2, 3, 4, 5, 6, 7, 8, 9, 9]) 264 0
    let len : Byte → Nat := fun v => (s.src.read (8 + v.toNat)).toNat
    264 ≤ s.srcSize.toNat ∧ (∀ v, len v ≤ 16) ∧ 2 ≤ (present len).length ∧ kraftSum len = 65536 ∧ 8 < len 8 ∧
      ∀ u : Byte, u.toNat < (8 : Byte).toNat → len u ≤ 8 := by decide +kernel

theorem abLen_valid (n : Nat) : HeaderLengthsValid abLen n :=
  ⟨by decide +kernel, .inr (.inr ⟨by decide +kernel, by decide +kernel⟩)⟩

theorem abContainer_len : ∀ v : Byte, (abContainer.read (8 + v.toNat)).toNat = abLen v := by decide +kernel

theorem witness_DecHdrChecksAndLoads_valid :
    264 ≤ abPacked.srcSize.toNat ∧ (∀ v : Byte, (abPacked.src.read (8 + v.toNat)).toNat ≤ 16) ∧
      HeaderLengthsValid (fun v => (abPacked.src.read (8 + v.toNat)).toNat)
        (((List.range 8).map (fun a => (abPacked.src.read a).toNat * 2 ^ (8 * a))).sum) := by
  have e : (fun v : Byte => (abPacked.src.read (8 + v.toNat)).toNat) = abLen := funext abContainer_len
  refine ⟨by decide, fun v => ?_, ?_⟩
  · rw [congrFun e v]
    unfold abLen
    split_ifs <;> decide
  · rw [e]; exact abLen_valid _

/-- Some lengths and their canonical code, as after `CB.BUILD`. -/
def builtFrom (len : Byte → Nat) : State :=
  { abPacked with
    lens := Table.ofFn (fun v => BitVec.ofNat 5 (len v)), code := Table.ofFn (canonicalCode len),
    status := { abPacked.status with codeV := true, hdrV := true } }

theorem builtFrom_lenOf {len : Byte → Nat} (h : ∀ v, len v ≤ 16) : (builtFrom len).lenOf = len := by
  funext v
  simp only [State.lenOf, builtFrom, Table.at_ofFn, BitVec.toNat_ofNat]
  exact Nat.mod_eq_of_lt ((h v).trans_lt (by norm_num))

theorem builtFrom_code (len : Byte → Nat) (v : Byte) : (builtFrom len).code.at v = canonicalCode len v := Table.at_ofFn _ v

theorem builtFrom_legal {len : Byte → Nat} (h : ∀ v, len v ≤ 16) (hc : ∀ v, (canonicalCode len v).wf)
    (hk : kraftSum len ≤ Config.kraftOne) : (builtFrom len).Legal := by
  refine legal_of ⟨fun v => ?_, fun v => ?_, fun _ v => ?_, fun _ => ?_, ?_⟩ ?_
  · have := congrFun (builtFrom_lenOf h) v
    rw [State.lenOf] at this
    exact this ▸ h v
  · rw [builtFrom_code]; exact hc v
  · rw [builtFrom_code]
    simp only [builtFrom, Table.at_ofFn, canonicalCode]
    split_ifs with h
    · rw [h]; rfl
    · rfl
  · rw [builtFrom_lenOf h]; exact hk
  · exact (tables_reset (s := abPacked) rfl rfl rfl).dtbl
  · refine ⟨?_, ?_, ?_, ?_, ?_, ?_, ?_, ?_, ?_, ?_, ?_, ?_⟩ <;> simp [builtFrom, abPacked, withSrc, State.reset] <;> decide

theorem witness_DecTblResolvesEveryCodeword :
    (builtFrom abLen).Legal ∧ (builtFrom abLen).status.codeV = true ∧
      (∀ v, (builtFrom abLen).code.at v = canonicalCode (builtFrom abLen).lenOf v) ∧
      (∀ v, (builtFrom abLen).lenOf v ≤ 8) ∧ (builtFrom abLen).lenOf 0x62 ≠ 0 ∧
      (0x80 : Byte).toNat / 2 ^ (8 - (builtFrom abLen).lenOf 0x62) = (canonicalCode (builtFrom abLen).lenOf 0x62).val.toNat ∧
      (0x62 : Byte) ∈ (canonicalOrder (builtFrom abLen).lenOf).getLast? := by
  have h : ∀ v, abLen v ≤ 16 := by decide +kernel
  rw [builtFrom_lenOf h]
  exact ⟨builtFrom_legal h (by decide +kernel) (by decide +kernel), rfl, builtFrom_code _, by decide +kernel, by decide, by decide +kernel,
    by decide +kernel⟩

/-- A length of 9, the least too long, as a host may write it into `LEN` (R293). -/
def nineLen (v : Byte) : Nat := if v = 0x61 then 9 else 0

theorem witness_DecTblResolvesEveryCodeword_window :
    (builtFrom nineLen).Legal ∧ (builtFrom nineLen).status.codeV = true ∧
      (∀ v, (builtFrom nineLen).code.at v = canonicalCode (builtFrom nineLen).lenOf v) ∧
      (0x61 : Byte) ∈ (canonicalOrder (builtFrom nineLen).lenOf).find? (fun c => 8 < (builtFrom nineLen).lenOf c) := by
  have h : ∀ v, nineLen v ≤ 16 := by decide +kernel
  rw [builtFrom_lenOf h]
  exact ⟨builtFrom_legal h (by decide +kernel) (by decide +kernel), rfl, builtFrom_code _, by decide +kernel⟩

theorem witness_DecTblResolvesEveryCodeword_empty :
    (builtFrom fun _ => 0).Legal ∧ (builtFrom fun _ => 0).status.codeV = true ∧
      (∀ v, (builtFrom fun _ => 0).code.at v = canonicalCode (builtFrom fun _ => 0).lenOf v) ∧
      (∀ v, (builtFrom fun _ => 0).lenOf v ≤ 8) ∧ present (builtFrom fun _ => 0).lenOf = [] := by
  rw [builtFrom_lenOf fun _ => Nat.zero_le _]
  exact ⟨builtFrom_legal (fun _ => Nat.zero_le _) (by decide +kernel) (by decide +kernel), rfl, builtFrom_code _, fun _ => Nat.zero_le _,
    by decide +kernel⟩

theorem witness_DecAllocSizesTheSink :
    abraTable.status.hdrV = true ∧ abraTable.orig.toNat ≤ abraTable.snkCap.toNat ∧
      ∃ s : State, s.status.hdrV = true ∧ s.snkCap.toNat < s.orig.toNat :=
  ⟨rfl, by decide, { abraTable with snkCap := 10 }, rfl, by decide⟩

theorem witness_DecGetDecodesOneSymbol_end :
    ∃ s : State, s.Legal ∧ s.status.dtblV = true ∧ s.status.snkV = true ∧ s.status.snkDec = true ∧ s.snkSize.toNat ≤ s.outpos.toNat :=
  ⟨{ abraReady with outpos := 11 }, legal_of (tables_abra rfl (.inl rfl) (.inl rfl)) (by decide), rfl, rfl, rfl, by decide⟩

theorem witness_DecGetDecodesOneSymbol_underrun :
    ∃ s : State, s.Legal ∧ s.status.dtblV = true ∧ s.status.snkV = true ∧ s.status.snkDec = true ∧
      s.outpos.toNat < s.snkSize.toNat ∧ 8 * s.srcSize.toNat ≤ s.bitpos.toNat :=
  ⟨{ abraReady with bitpos := 2136 }, legal_of (tables_abra rfl (.inl rfl) (.inl rfl)) (by decide), rfl, rfl, rfl, by decide, by decide⟩

theorem witness_DecGetDecodesOneSymbol_noCode :
    ∃ s : State, s.Legal ∧ s.status.dtblV = true ∧ s.status.snkV = true ∧ s.status.snkDec = true ∧
      s.outpos.toNat < s.snkSize.toNat ∧ s.bitpos.toNat < 8 * s.srcSize.toNat ∧ (s.dtbl.at (s.window s.bitpos.toNat)).len = 0 :=
  ⟨{ abraReady with dtbl := State.reset.dtbl, bitpos := 2135 }, legal_of (tables_abra rfl (.inl rfl) (.inr rfl)) (by decide), rfl, rfl, rfl,
    by decide, by decide, by simp [State.reset]⟩

/-- The last bit is 1 and begins a code of 3. -/
theorem witness_DecGetDecodesOneSymbol_overrun :
    ∃ s : State, s.Legal ∧ s.status.dtblV = true ∧ s.status.snkV = true ∧ s.status.snkDec = true ∧
      s.outpos.toNat < s.snkSize.toNat ∧ s.bitpos.toNat < 8 * s.srcSize.toNat ∧
      (s.dtbl.at (s.window s.bitpos.toNat)).len ≠ 0 ∧
      8 * s.srcSize.toNat < s.bitpos.toNat + (s.dtbl.at (s.window s.bitpos.toNat)).len.toNat :=
  ⟨{ abraReady with src := abraHeader ++ bytesAt 264 [0x4E, 0xAC, 0x9D], bitpos := 2135 },
    legal_of (tables_abra rfl (.inl rfl) (.inl rfl)) (by decide), rfl, rfl, rfl, by decide, by decide, by decide +kernel, by decide +kernel⟩

/-- The last code that fits: 3 bits from 2133. -/
theorem witness_DecGetDecodesOneSymbol_fits :
    ∃ s : State, s.Legal ∧ s.status.dtblV = true ∧ s.status.snkV = true ∧ s.status.snkDec = true ∧
      s.outpos.toNat < s.snkSize.toNat ∧ s.bitpos.toNat < 8 * s.srcSize.toNat ∧
      (s.dtbl.at (s.window s.bitpos.toNat)).len ≠ 0 ∧
      s.bitpos.toNat + (s.dtbl.at (s.window s.bitpos.toNat)).len.toNat ≤ 8 * s.srcSize.toNat :=
  ⟨{ abraReady with bitpos := 2133, outpos := 10 }, legal_of (tables_abra rfl (.inl rfl) (.inl rfl)) (by decide), rfl, rfl, rfl, by decide,
    by decide, by decide +kernel, by decide +kernel⟩

/-- Two symbols of "abracadabra", in a container of 265 bytes, and in one of 266. -/
def twoSymbols (size : Word) : State :=
  { abraReady with src := abraHeader ++ bytesAt 264 [0x4E], srcSize := size, snkSize := 2 }

theorem witness_DecBodyDecodesTheStream (size : Word) (h : size = 265 ∨ size = 266) :
    (twoSymbols size).Legal ∧ (twoSymbols size).status.dtblV = true ∧ (twoSymbols size).status.snkV = true ∧
      (twoSymbols size).status.snkDec = true ∧
      (∀ k < 2, ((twoSymbols size).walkEntry k).len ≠ 0 ∧ (twoSymbols size).walk (k + 1) ≤ 8 * (twoSymbols size).srcSize.toNat) ∧
      (size = 265 → ((twoSymbols size).walk 2 + 7) / 8 = (twoSymbols size).srcSize.toNat) ∧
      (size = 266 → ((twoSymbols size).walk 2 + 7) / 8 ≠ (twoSymbols size).srcSize.toNat) := by
  rcases h with rfl | rfl <;>
    exact ⟨legal_of (tables_abra rfl (.inl rfl) (.inl rfl)) (by decide), rfl, rfl, rfl, by decide +kernel, by decide +kernel, by decide +kernel⟩

/-- A container without a body: the first symbol starts at the end of SRC. -/
theorem witness_DecBodyDecodesTheStream_start :
    (twoSymbols 264).Legal ∧ (twoSymbols 264).status.dtblV = true ∧ (twoSymbols 264).status.snkV = true ∧
      (twoSymbols 264).status.snkDec = true ∧ 0 < (twoSymbols 264).snkSize.toNat ∧
      8 * (twoSymbols 264).srcSize.toNat ≤ (twoSymbols 264).walk 0 :=
  ⟨legal_of (tables_abra rfl (.inl rfl) (.inl rfl)) (by decide), rfl, rfl, rfl, by decide, by decide⟩

theorem witness_DecBodyDecodesTheStream_noCode :
    ∃ s : State, s.Legal ∧ s.status.dtblV = true ∧ s.status.snkV = true ∧ s.status.snkDec = true ∧ 0 < s.snkSize.toNat ∧
      s.walk 0 < 8 * s.srcSize.toNat ∧ (s.walkEntry 0).len = 0 :=
  ⟨{ abraReady with dtbl := State.reset.dtbl }, legal_of (tables_abra rfl (.inl rfl) (.inr rfl)) (by decide), rfl, rfl, rfl, by decide,
    by decide, by simp [State.walkEntry, State.reset]⟩

/-- Seven bits 0 and a bit 1: seven times 'a', then a code of 3 bits of which one is there. -/
theorem witness_DecBodyDecodesTheStream_overrun :
    ∃ s : State, s.Legal ∧ s.status.dtblV = true ∧ s.status.snkV = true ∧ s.status.snkDec = true ∧ 7 < s.snkSize.toNat ∧
      (∀ j < 7, (s.walkEntry j).len ≠ 0 ∧ s.walk (j + 1) ≤ 8 * s.srcSize.toNat) ∧ s.walk 7 < 8 * s.srcSize.toNat ∧
      (s.walkEntry 7).len ≠ 0 ∧ 8 * s.srcSize.toNat < s.walk (7 + 1) :=
  ⟨{ abraReady with src := abraHeader ++ bytesAt 264 [0x01], srcSize := 265, snkSize := 8 },
    legal_of (tables_abra rfl (.inl rfl) (.inl rfl)) (by decide), rfl, rfl, rfl, by decide, by decide +kernel, by decide +kernel,
    by decide +kernel, by decide +kernel⟩

theorem witness_DecBodypEqualsDecBody :
    abraReady.Legal ∧ abraReady.status.fault = false ∧ ∃ t, exec .decBody abraReady = .next t ∧ t.status.fault = false := by
  obtain ⟨t, h, hp⟩ := of_isNext (o := exec .decBody abraReady) (p := fun t => !t.status.fault) (by decide +kernel)
  exact ⟨abraReady_legal, rfl, t, h, by simpa using hp⟩

theorem witness_DecodeReadsTheContainer :
    abPacked.Legal ∧ abPacked.status.fault = false ∧ HeaderLengthsValid abLen [(0x61 : Byte), 0x62].length ∧
      (∀ x ∈ [(0x61 : Byte), 0x62], abLen x ≠ 0) ∧
      HoldsContainer abPacked.src abPacked.srcSize.toNat abLen [0x61, 0x62] ∧ [(0x61 : Byte), 0x62].length ≤ abPacked.snkCap.toNat :=
  ⟨abPacked_legal, rfl, abLen_valid _, by simp [abLen], ⟨by decide +kernel, by decide, abContainer_len, by decide +kernel⟩, by decide⟩

theorem witness_DecodepEqualsDecode :
    abPacked.Legal ∧ abPacked.status.fault = false ∧ ∃ t, exec .decode abPacked = .next t := by
  refine ⟨abPacked_legal, rfl, ?_⟩
  rw [exec, execDecode]
  exact exists_next _

theorem witness_RoundTripRestoresTheInput :
    ∃ s t u : State, s.Legal ∧ s.status.fault = false ∧ exec .encode s = .next t ∧ t.status.fault = false ∧ u.Legal ∧
      u.status.fault = false ∧ u.srcSize = t.snkSize ∧ (∀ a < t.snkSize.toNat, u.src.read a = t.snk.read a) ∧
      s.srcSize.toNat ≤ u.snkCap.toNat := by
  obtain ⟨t, h, hp⟩ := of_isNext test_encode
  simp only [Bool.and_eq_true, beq_iff_eq] at hp
  obtain ⟨⟨⟨h1, h2⟩, -⟩, h4⟩ := hp
  refine ⟨abStart, t, abPacked, abStart_legal, rfl, h, ?_, abPacked_legal, rfl, by rw [h2]; rfl, fun a _ => by rw [h1]; rfl, by decide⟩
  have := statusWord_getLsbD t 1 (by decide)
  rw [h4] at this
  simpa using this.symm

theorem witness_SingleStepsReproduceTheBulkCommands_encode :
    abraSized.status.fault = false ∧ abraSized.status.codeV = true ∧ abraSized.status.snkV = true ∧
      abraSized.status.snkDec = false ∧ abraSized.bitpos = 2112 ∧ abraSized.running = none ∧
      ∃ t, exec .encBody abraSized = .next t ∧ t.status.fault = false :=
  ⟨rfl, rfl, rfl, rfl, rfl, rfl, witness_EncBodypEqualsEncBody.2.2⟩

theorem witness_SingleStepsReproduceTheBulkCommands_decode :
    abraReady.status.fault = false ∧ abraReady.status.dtblV = true ∧ abraReady.status.snkV = true ∧
      abraReady.status.snkDec = true ∧ abraReady.bitpos = 2112 ∧ abraReady.outpos = 0 ∧ abraReady.running = none ∧
      ∃ t, exec .decBody abraReady = .next t ∧ t.status.fault = false :=
  ⟨rfl, rfl, rfl, rfl, rfl, rfl, rfl, witness_DecBodypEqualsDecBody.2.2⟩

theorem witness_SingleStepsReproduceTheBulkCommands_put :
    abraSized.status.fault = false ∧ abraSized.running = none ∧
      ∃ t, exec (.encPut 0x61) abraSized = .next t ∧ t.status.fault = false := by
  obtain ⟨t, h, hp⟩ := of_isNext (o := exec (.encPut 0x61) abraSized) (p := fun t => !t.status.fault) (by decide +kernel)
  exact ⟨rfl, rfl, t, h, by simpa using hp⟩

end Sys2Proof.Tests
end

section
/-! PROOFS. The decoder and the encoder are inverse to each other (R96, R98), and a word is in a row of the encoding table exactly when it
matches under the row's mask (O3). -/

namespace Sys2Proof

/-! ### What each format accepts (R92, R97) -/

theorem decodeC0_eq_ok {w : Word} {i j : Instr} :
    decodeC0 w i = .ok j ↔ w.extractLsb' 0 24 = 0 ∧ i = j := by
  unfold decodeC0
  split <;> simp_all

theorem decodeC1_eq_ok {w : Word} {mk : BitVec 5 → Instr} {j : Instr} :
    decodeC1 w mk = .ok j ↔
      w.extractLsb' 5 19 = 0 ∧ legalLen (w.extractLsb' 0 5) = true ∧ mk (w.extractLsb' 0 5) = j := by
  unfold decodeC1
  split
  · split <;> simp_all
  · simp_all

theorem decodeC2_eq_ok {w : Word} {mk : Byte → Instr} {j : Instr} :
    decodeC2 w mk = .ok j ↔ w.extractLsb' 8 16 = 0 ∧ mk (w.extractLsb' 0 8) = j := by
  unfold decodeC2
  split <;> simp_all

/-- A word whose must-be-0 bits are 0 is its opcode byte and its `k`-bit operand field put together (R90, R92). -/
theorem opcode_or_operand {w : Word} {op : Nat} (k : Nat) (hop : (w.extractLsb' 24 8).toNat = op)
    (hzero : w.extractLsb' k (24 - k) = 0) : (BitVec.ofNat 8 op ++ 0#24) ||| (w.extractLsb' 0 k).zeroExtend 32 = w := by
  rw [← hop, BitVec.ofNat_toNat, BitVec.setWidth_eq]
  refine BitVec.eq_of_getLsbD_eq fun b hb => ?_
  rw [BitVec.getLsbD_or, BitVec.getLsbD_append]
  by_cases h24 : b < 24
  · by_cases hk : b < k
    · simp [h24, hk, hb]
    · have hbit := congrArg (fun x => x.getLsbD (b - k)) hzero
      have hw : w.getLsbD b = false := by
        simpa [show k + (b - k) = b by omega, show b - k < 24 - k by omega] using hbit
      simp [h24, hk, hw]
  · simp [h24, hb, show 24 + (b - 24) = b by omega, show b - 24 < 8 by omega]

/-! ### Decoding and encoding -/

/-- A word of format C0 that decodes is the command's word. -/
theorem encode_of_decodeC0 {w : Word} {i j : Instr} {op : Nat} (hop : (w.extractLsb' 24 8).toNat = op)
    (h : decodeC0 w i = .ok j) (hi : encode i = BitVec.ofNat 8 op ++ 0#24) (hwf : i.wellFormed = true) :
    j.wellFormed = true ∧ encode j = w := by
  obtain ⟨hzero, rfl⟩ := decodeC0_eq_ok.1 h
  exact ⟨hwf, hi.trans (by simpa using opcode_or_operand 0 hop hzero)⟩

theorem encode_of_decodeC1 {w : Word} {mk : BitVec 5 → Instr} {j : Instr} {op : Nat}
    (hop : (w.extractLsb' 24 8).toNat = op) (h : decodeC1 w mk = .ok j)
    (hmk : ∀ len, encode (mk len) = (BitVec.ofNat 8 op ++ 0#24) ||| len.zeroExtend 32)
    (hwf : ∀ len, (mk len).wellFormed = legalLen len) :
    j.wellFormed = true ∧ encode j = w := by
  obtain ⟨hzero, hlen, rfl⟩ := decodeC1_eq_ok.1 h
  exact ⟨(hwf _).trans hlen, (hmk _).trans (opcode_or_operand 5 hop hzero)⟩

theorem encode_of_decodeC2 {w : Word} {mk : Byte → Instr} {j : Instr} {op : Nat}
    (hop : (w.extractLsb' 24 8).toNat = op) (h : decodeC2 w mk = .ok j)
    (hmk : ∀ v, encode (mk v) = (BitVec.ofNat 8 op ++ 0#24) ||| v.zeroExtend 32)
    (hwf : ∀ v, (mk v).wellFormed = true) :
    j.wellFormed = true ∧ encode j = w := by
  obtain ⟨hzero, rfl⟩ := decodeC2_eq_ok.1 h
  exact ⟨hwf _, (hmk _).trans (opcode_or_operand 8 hop hzero)⟩

/-- A word that decodes is the word of the command it decodes to, and that command is legal (R96, R101). -/
theorem encode_of_decode {w : Word} {j : Instr} (h : decode w = .ok j) : j.wellFormed = true ∧ encode j = w := by
  unfold decode at h
  split at h
  case h_3 hop => exact encode_of_decodeC1 hop h (fun _ => rfl) (fun _ => rfl)
  case h_4 hop => exact encode_of_decodeC1 hop h (fun _ => rfl) (fun _ => rfl)
  case h_6 hop => exact encode_of_decodeC2 hop h (fun _ => rfl) (fun _ => rfl)
  case h_16 hop => exact encode_of_decodeC2 hop h (fun _ => rfl) (fun _ => rfl)
  case h_27 => cases h
  all_goals
    rename_i hop
    exact encode_of_decodeC0 hop h rfl rfl

/-- The word of a legal command decodes to it, operand included (R96, R98). -/
theorem decode_encode {i : Instr} (h : i.wellFormed = true) : decode (encode i) = .ok i := by
  cases i
  case bvZero len => revert len; decide +kernel
  case bvNext len => revert len; decide +kernel
  case bvLdc v => revert v; decide +kernel
  case encPut v => revert v; decide +kernel
  all_goals rfl

theorem decode_eq_ok_iff {w : Word} {i : Instr} : decode w = .ok i ↔ i.wellFormed = true ∧ encode i = w := by
  refine ⟨encode_of_decode, ?_⟩
  rintro ⟨h, rfl⟩
  exact decode_encode h

/-! ### Rows of the encoding table -/

open Laws in
/-- Every command is in its row of the encoding table (R96). -/
theorem tableRow : ∀ i : Instr, TableRow.Statement i
  | .nop => TableRow.nop
  | .srst => TableRow.srst
  | .bvZero len => TableRow.bvZero len
  | .bvNext len => TableRow.bvNext len
  | .bvCopy => TableRow.bvCopy
  | .bvLdc v => TableRow.bvLdc v
  | .ftClr => TableRow.ftClr
  | .ftScan => TableRow.ftScan
  | .ftScanp => TableRow.ftScanp
  | .pmRun => TableRow.pmRun
  | .cbBuild => TableRow.cbBuild
  | .encAlloc => TableRow.encAlloc
  | .encHdr => TableRow.encHdr
  | .encBody => TableRow.encBody
  | .encBodyp => TableRow.encBodyp
  | .encPut v => TableRow.encPut v
  | .encodep => TableRow.encodep
  | .encode => TableRow.encode
  | .decHdr => TableRow.decHdr
  | .decTbl => TableRow.decTbl
  | .decAlloc => TableRow.decAlloc
  | .decBody => TableRow.decBody
  | .decBodyp => TableRow.decBodyp
  | .decGet => TableRow.decGet
  | .decodep => TableRow.decodep
  | .decode => TableRow.decode

/-- The match word of a row decodes to a command of the row's format. -/
theorem decode_matchWord_map_formatOf (i : Instr) : (decode (matchWord i)).map formatOf = .ok (formatOf i) := by
  cases i <;>
    · rw [matchWord, formatOf]
      rfl

/-- The match words of different rows differ (R96): commands with one match word are of one format. -/
theorem formatOf_eq_of_matchWord_eq {i j : Instr} (h : matchWord i = matchWord j) : formatOf i = formatOf j := by
  have hi := decode_matchWord_map_formatOf i
  rw [h, decode_matchWord_map_formatOf j] at hi
  exact (Except.ok.inj hi).symm

/-- A word is its bits under a mask and the others. -/
theorem masked_or_unmasked (w m : Word) : (w &&& m) ||| (w &&& ~~~m) = w := by
  refine BitVec.eq_of_getLsbD_eq fun b hb => ?_
  cases hm : m[b] <;> simp [hb, hm]

/-- Masking with the `k` low bits keeps the `k`-bit operand field. -/
theorem and_lowMask (w : Word) (k : Nat) : w &&& BitVec.ofNat 32 (2 ^ k - 1) = (w.extractLsb' 0 k).zeroExtend 32 := by
  refine BitVec.eq_of_getLsbD_eq fun b hb => ?_
  rw [BitVec.getLsbD_and, BitVec.getLsbD_ofNat, Nat.testBit_two_pow_sub_one]
  simp [hb, Bool.and_comm]

/-- A word that matches a row under its mask is the row's word for some operand, legal or not (R96, R98). -/
theorem exists_encode_of_masked {w : Word} {i : Instr} (h : w &&& maskWord (formatOf i) = matchWord i) :
    ∃ j, matchWord j = matchWord i ∧ encode j = w := by
  have hw := masked_or_unmasked w (maskWord (formatOf i))
  rw [h] at hw
  have h0 : w &&& ~~~0xFFFFFFFF#32 = 0 := (and_lowMask w 0).trans (by simp)
  have h5 : w &&& ~~~0xFFFFFFE0#32 = (w.extractLsb' 0 5).zeroExtend 32 := and_lowMask w 5
  have h8 : w &&& ~~~0xFFFFFF00#32 = (w.extractLsb' 0 8).zeroExtend 32 := and_lowMask w 8
  cases i
  case bvZero => exact ⟨.bvZero (w.extractLsb' 0 5), rfl, (congrArg _ h5.symm).trans hw⟩
  case bvNext => exact ⟨.bvNext (w.extractLsb' 0 5), rfl, (congrArg _ h5.symm).trans hw⟩
  case bvLdc => exact ⟨.bvLdc (w.extractLsb' 0 8), rfl, (congrArg _ h8.symm).trans hw⟩
  case encPut => exact ⟨.encPut (w.extractLsb' 0 8), rfl, (congrArg _ h8.symm).trans hw⟩
  all_goals exact ⟨_, rfl, (congrArg _ h0.symm).trans hw⟩

/-- Settles O3: both sides say that `w` is the word of a legal command of the row of `i`. -/
theorem commandIffMaskMatches : Obligations.CommandIffMaskMatches := by
  unfold Obligations.CommandIffMaskMatches
  intro w i
  constructor
  · rintro ⟨j, hdec, hmatch⟩
    obtain ⟨hwf, rfl⟩ := decode_eq_ok_iff.1 hdec
    obtain ⟨hmask, hlegal⟩ := tableRow j
    rw [← formatOf_eq_of_matchWord_eq hmatch, ← hmatch]
    exact ⟨hmask, hlegal.1 hwf⟩
  · rintro ⟨hmask, hlen⟩
    obtain ⟨j, hmatch, rfl⟩ := exists_encode_of_masked hmask
    rw [← formatOf_eq_of_matchWord_eq hmatch] at hlen
    exact ⟨j, decode_encode ((tableRow j).2.2 hlen), hmatch⟩

end Sys2Proof
end

section
/-! PROOFS. The sub-commands of the macros do not see `BUSY` (R45) and keep `FAULT` while they do not fault (R252), so a macro is its
sub-commands one after the other (R100, O12). -/

namespace Sys2Proof.Machine

/-! ### Runs do not see `BUSY` -/

/-- A run's result with `BUSY = 0`, whether it ends in a state or in a fault. -/
def idleRun : Run → Run
  | .ok s => .ok s.retire
  | .error e => .error ⟨e.fault, e.state.retire⟩

@[simp] theorem idleRun_ok (s : State) : idleRun (.ok s) = .ok s.retire := rfl
@[simp] theorem idleRun_error (e : Raised) : idleRun (.error e) = .error ⟨e.fault, e.state.retire⟩ := rfl

/-- A command ends with `BUSY = 0` in any case (R91 step 3, R252). -/
@[simp] theorem finish_idleRun (r : Run) : finish (idleRun r) = finish r := by
  cases r <;> rfl

/-- The run does the same whether `BUSY` is 1 or 0 when it begins. -/
def BusyBlind (run : State → Run) : Prop := ∀ s, run s.retire = idleRun (run s)

theorem BusyBlind.bind {r k : State → Run} (hr : BusyBlind r) (hk : BusyBlind k) : BusyBlind (fun s => r s >>= k) := by
  intro s
  simp only [hr s]
  cases r s with
  | ok t => exact hk t
  | error e => rfl

theorem statusWord_retire_getLsbD (s : State) {k : Nat} (hk : k < 32) (h0 : k ≠ 0) :
    s.retire.statusWord.getLsbD k = s.statusWord.getLsbD k := by
  rw [statusWord_getLsbD _ k hk, statusWord_getLsbD _ k hk, beq_false_of_ne h0]
  rfl

/-- A prerequisite that does not ask for `BUSY` finds the same wrong bits with `BUSY = 0`. -/
theorem seqMask_retire {r : Req} (hneed : r.need.getLsbD 0 = false) (hclear : r.clear.getLsbD 0 = false) (s : State) :
    seqMask r s.retire = seqMask r s := by
  refine BitVec.eq_of_getLsbD_eq fun k hk => ?_
  rw [seqMask_getLsbD r _ k hk, seqMask_getLsbD r _ k hk]
  by_cases h0 : k = 0
  · subst h0
    simp only [hneed, hclear, Bool.false_and]
  · rw [statusWord_retire_getLsbD s hk h0]

/-- A run behind a prerequisite that does not ask for `BUSY`. -/
theorem BusyBlind.require {r : Req} {k : State → Run} (hk : BusyBlind k) (hneed : r.need.getLsbD 0 = false := by rfl)
    (hclear : r.clear.getLsbD 0 = false := by rfl) : BusyBlind (fun s => Machine.require r s >>= fun _ => k s) := by
  intro s
  have hmask := seqMask_retire hneed hclear s
  simp only [Machine.require, hmask]
  split
  · exact hk s
  · rfl

/-! ### The sub-commands do not see `BUSY` -/

@[simp] theorem retire_lenOf (s : State) : s.retire.lenOf = s.lenOf := rfl
@[simp] theorem retire_codeLenOf (s : State) : s.retire.codeLenOf = s.codeLenOf := rfl
@[simp] theorem retire_symbols (s : State) : s.retire.symbols = s.symbols := rfl
@[simp] theorem retire_weights (s : State) : s.retire.weights = s.weights := rfl
@[simp] theorem retire_containerBytes (s : State) : s.retire.containerBytes = s.containerBytes := rfl
@[simp] theorem retire_headerOps (s : State) : s.retire.headerOps = s.headerOps := rfl
@[simp] theorem retire_hdrCheck (s : State) : s.retire.hdrCheck = s.hdrCheck := rfl
@[simp] theorem retire_lookup (s : State) (off : Nat) : s.retire.lookup off = s.lookup off := rfl

theorem busyBlind_ftScan : BusyBlind runFtScan := fun _ => rfl

theorem busyBlind_ftScanp : BusyBlind runFtScanp := by
  intro s
  dsimp +instances only [runFtScanp, retire_srcSize, retire_params]
  split <;> rfl

theorem busyBlind_decHdr : BusyBlind runDecHdr := by
  intro s
  simp only [runDecHdr, retire_hdrCheck]
  cases s.hdrCheck <;> rfl

theorem busyBlind_pmRun : BusyBlind runPmRun := by
  intro s
  simp only [runPmRun, retire_symbols, retire_weights]
  split <;> rfl

theorem busyBlind_cbBuild : BusyBlind runCbBuild := by
  intro s
  dsimp +instances only [runCbBuild, retire_lenOf, retire_lens]
  split
  · rfl
  · cases assignCodes ((canonicalOrder s.lenOf).map s.lens.at) <;> rfl

theorem busyBlind_encAlloc : BusyBlind runEncAlloc := by
  refine BusyBlind.require (r := reqCode) fun s => ?_
  dsimp +instances only [retire_freq, retire_code, retire_containerBytes, retire_snkCap]
  split
  · rfl
  · split <;> rfl

theorem busyBlind_encHdr : BusyBlind runEncHdr := by
  refine BusyBlind.require (r := reqEnc) fun s => ?_
  dsimp +instances only [retire_snkSize, retire_snk, retire_headerOps]
  generalize applyOps s.snk s.headerOps = written
  split <;> rfl

theorem busyBlind_decTbl : BusyBlind runDecTbl := by
  refine BusyBlind.require (r := reqCode) fun s => ?_
  dsimp +instances only [retire_codeLenOf]
  split <;> rfl

theorem busyBlind_decAlloc : BusyBlind runDecAlloc := by
  refine BusyBlind.require (r := reqHdr) fun s => ?_
  dsimp +instances only [retire_orig, retire_snkCap]
  split <;> rfl

/-! ### The body commands do not see `BUSY` -/

theorem putSymbol_retire (s : State) (v : Byte) : putSymbol s.retire v = (putSymbol s v).map State.retire := by
  dsimp +instances only [putSymbol, retire_code, retire_snkSize, retire_snk, retire_bitpos]
  split
  · rfl
  · cases pack s.snkSize s.snk (s.code.at v) s.bitpos.toNat <;> rfl

theorem foldlM_putSymbol_retire (xs : List Byte) (s : State) :
    xs.foldlM putSymbol s.retire = (xs.foldlM putSymbol s).map State.retire := by
  induction xs generalizing s with
  | nil => rfl
  | cons x xs ih =>
    rw [List.foldlM_cons, List.foldlM_cons, putSymbol_retire]
    cases putSymbol s x with
    | ok t => exact ih t
    | error f => rfl

theorem putBody_retire (s : State) : putBody s.retire = (putBody s).map State.retire :=
  foldlM_putSymbol_retire s.srcBytes s.rewindEnc

theorem getSymbol_retire (s : State) : getSymbol s.retire = (getSymbol s).map State.retire := by
  dsimp +instances only [getSymbol, retire_outpos, retire_snkSize, retire_bitpos, retire_lookup]
  split
  · rfl
  · cases s.lookup s.bitpos.toNat <;> rfl

theorem getSymbols_retire (n : Nat) (s : State) : getSymbols n s.retire = (getSymbols n s).map State.retire := by
  induction n generalizing s with
  | zero => rfl
  | succ n ih =>
    dsimp +instances only [getSymbols, retire_outpos, retire_snkSize]
    rw [getSymbol_retire]
    split
    · cases getSymbol s with
      | ok t => exact ih t
      | error f => rfl
    · rfl

theorem getBody_retire (s : State) : getBody s.retire = (getBody s).map State.retire := by
  have h : getSymbols s.snkSize.toNat s.retire.rewindDec = _ := getSymbols_retire s.snkSize.toNat s.rewindDec
  simp only [getBody, retire_snkSize, h]
  cases getSymbols s.snkSize.toNat s.rewindDec with
  | error f => rfl
  | ok t =>
    simp only [Except.map, ok_bind, retire_srcSize, retire_bitpos]
    cases bodySizeCheck t.srcSize t.bitpos.toNat <;> rfl

@[simp] theorem discover_retire (s : State) (n i off : Nat) : s.retire.discover n i off = s.discover n i off := by
  induction n generalizing i off with
  | zero => rfl
  | succ n ih =>
    simp only [State.discover, retire_lookup, retire_params, ih]
    rfl

@[simp] theorem decodeOps_retire (s : State) (off : Nat) (is : List Nat) : s.retire.decodeOps off is = s.decodeOps off is := by
  induction is generalizing off with
  | nil => rfl
  | cons i is ih => exact congrArg _ (ih _)

theorem getBodyPaged_retire (s : State) : s.retire.getBodyPaged = s.getBodyPaged.map State.retire := by
  simp only [State.getBodyPaged, retire_snkSize, discover_retire, retire_srcSize, decodeOps_retire]
  cases s.discover s.snkSize.toNat 0 Config.hdrBits with
  | error f => rfl
  | ok p =>
    simp only [ok_bind]
    cases bodySizeCheck s.srcSize p.2 <;> rfl

@[simp] theorem pageOffset_retire (s : State) (k : Nat) : s.retire.pageOffset k = s.pageOffset k := by
  induction k with
  | zero => rfl
  | succ k ih => exact congrArg (· + s.pageBits k) ih

@[simp] theorem encPageOps_retire (s : State) : s.retire.encPageOps = s.encPageOps :=
  funext fun k => congrArg (codeOps s.code · (s.encPage k)) (pageOffset_retire s k)

theorem putBodyPaged_retire (s : State) : s.retire.putBodyPaged = s.putBodyPaged.retire := by
  simp only [State.putBodyPaged, encPageOps_retire, pageOffset_retire]
  rfl

/-- Raising the fault of a body that does the same whether `BUSY` is 1 or 0. -/
theorem raiseIn_map_retire (s : State) (x : Except FaultRec State) :
    raiseIn s.retire (x.map State.retire) = idleRun (raiseIn s x) := by
  cases x <;> rfl

theorem busyBlind_encBody : BusyBlind runEncBody := by
  refine BusyBlind.require (r := reqEnc) fun s => ?_
  rw [putBody_retire]
  exact raiseIn_map_retire (s.loseSink s.snkSize.toNat) (putBody s)

theorem busyBlind_decBody : BusyBlind runDecBody := by
  refine BusyBlind.require (r := reqDec) fun s => ?_
  rw [getBody_retire]
  exact raiseIn_map_retire (s.loseSink s.snkSize.toNat) (getBody s)

theorem busyBlind_encBodyp : BusyBlind runEncBodyp := by
  intro s
  dsimp +instances only [runEncBodyp, retire_srcSize, retire_params]
  rw [busyBlind_encBody s, putBodyPaged_retire]
  split
  · rfl
  · cases runEncBody s <;> rfl

theorem busyBlind_decBodyp : BusyBlind runDecBodyp := by
  have hpaged : BusyBlind (fun s => require reqDec s >>= fun _ => raiseIn s s.getBodyPaged) := by
    refine BusyBlind.require fun s => ?_
    rw [getBodyPaged_retire]
    exact raiseIn_map_retire s s.getBodyPaged
  intro s
  dsimp +instances only [runDecBodyp, retire_snkSize, retire_params]
  split
  · exact busyBlind_decBody s
  · exact hpaged s

/-! ### Commands that do not fault keep `FAULT` -/

/-- A run that does not fault leaves `FAULT` as it was. -/
def KeepsFault (run : State → Run) : Prop := ∀ s t, run s = .ok t → t.status.fault = s.status.fault

/-- A prerequisite changes nothing. -/
theorem KeepsFault.require {r : Req} {k : State → Run} (hk : KeepsFault k) :
    KeepsFault (fun s => Machine.require r s >>= fun _ => k s) := by
  intro s t h
  obtain ⟨_, -, hrun⟩ := bind_eq_ok.1 h
  exact hk s t hrun

theorem keepsFault_ftScan : KeepsFault runFtScan := by
  rintro s t ⟨⟩
  rfl

theorem keepsFault_ftScanp : KeepsFault runFtScanp := by
  intro s t h
  unfold runFtScanp at h
  split at h
  · exact keepsFault_ftScan s t h
  · cases h
    rfl

theorem keepsFault_pmRun : KeepsFault runPmRun := by
  intro s t h
  simp only [runPmRun] at h
  split at h <;> cases h
  rfl

theorem keepsFault_cbBuild : KeepsFault runCbBuild := by
  intro s t h
  unfold runCbBuild at h
  split at h
  · cases h
  · obtain ⟨codes, -, ⟨⟩⟩ := bind_eq_ok.1 h
    rfl

theorem keepsFault_encAlloc : KeepsFault runEncAlloc := by
  refine KeepsFault.require (r := reqCode) fun s t h => ?_
  split at h
  · cases h
  · split at h <;> cases h
    rfl

theorem keepsFault_encHdr : KeepsFault runEncHdr := by
  refine KeepsFault.require (r := reqEnc) fun s t h => ?_
  split at h <;> cases h
  rfl

theorem keepsFault_decHdr : KeepsFault runDecHdr := by
  intro s t h
  obtain ⟨_, -, ⟨⟩⟩ := bind_eq_ok.1 h
  rfl

theorem keepsFault_decTbl : KeepsFault runDecTbl := by
  refine KeepsFault.require (r := reqCode) fun s t h => ?_
  dsimp only at h
  split at h <;> cases h
  rfl

theorem keepsFault_decAlloc : KeepsFault runDecAlloc := by
  refine KeepsFault.require (r := reqHdr) fun s t h => ?_
  split at h <;> cases h
  rfl

/-! ### Macros -/

/-- From an unfaulted state the run does what the listed commands do one after the other, up to the first that faults; it does not see
`BUSY`. -/
structure Expands (run : State → Run) (is : List Instr) : Prop where
  blind : BusyBlind run
  same : ∀ s, s.status.fault = false → finish (run s) = execUntilFault is s

/-- One command, the last of a macro: with or without a fault, nothing comes after it. -/
theorem Expands.last {i : Instr} {run : State → Run} (hexec : ∀ s, exec i s = finish (run s)) (hblind : BusyBlind run) :
    Expands run [i] where
  blind := hblind
  same s _ := by
    obtain ⟨t, -, h⟩ | ⟨e, -, h⟩ := finish_next (run s)
    all_goals
      simp only [execUntilFault, hexec, h]
      exact (ite_self _).symm

/-- One command in front: if it faults nothing more is done, and if not the rest begins with `FAULT` and `BUSY` 0. -/
theorem Expands.cons {i : Instr} {run rest : State → Run} {is : List Instr} (hexec : ∀ s, exec i s = finish (run s))
    (hblind : BusyBlind run) (hkeeps : KeepsFault run) (hrest : Expands rest is) : Expands (fun s => run s >>= rest) (i :: is) where
  blind := hblind.bind hrest.blind
  same s hs := by
    cases hrun : run s with
    | error e => simp [execUntilFault, hexec, hrun]
    | ok t =>
      have ht : t.status.fault = false := (hkeeps s t hrun).trans hs
      calc finish (rest t)
        _ = finish (rest t.retire) := by rw [hrest.blind t, finish_idleRun]
        _ = execUntilFault is t.retire := hrest.same _ ht
        _ = execUntilFault (i :: is) s := by simp [execUntilFault, hexec, hrun, ht]

/-- `ENCODE` and `ENCODEP` (R100): a scan of the input, the commands between, and a body command. -/
theorem encode_expands {iScan iBody : Instr} {scan body : State → Run} (hscan : ∀ s, exec iScan s = finish (scan s))
    (hscanBlind : BusyBlind scan) (hscanKeeps : KeepsFault scan) (hbody : Expands body [iBody]) :
    Expands (fun s => scan s >>= fun s => runPmRun s >>= fun s => runCbBuild s >>= fun s => runEncAlloc s >>= fun s =>
      runEncHdr s >>= body) [iScan, .pmRun, .cbBuild, .encAlloc, .encHdr, iBody] :=
  .cons hscan hscanBlind hscanKeeps <|
  .cons (fun _ => rfl) busyBlind_pmRun keepsFault_pmRun <|
  .cons (fun _ => rfl) busyBlind_cbBuild keepsFault_cbBuild <|
  .cons (fun _ => rfl) busyBlind_encAlloc keepsFault_encAlloc <|
  .cons (fun _ => rfl) busyBlind_encHdr keepsFault_encHdr hbody

/-- `DECODE` and `DECODEP` (R100): the header, the tables, the sink, and a body command. -/
theorem decode_expands {iBody : Instr} {body : State → Run} (hbody : Expands body [iBody]) :
    Expands (fun s => runDecHdr s >>= fun s => runCbBuild s >>= fun s => runDecTbl s >>= fun s => runDecAlloc s >>= body)
      [.decHdr, .cbBuild, .decTbl, .decAlloc, iBody] :=
  .cons (fun _ => rfl) busyBlind_decHdr keepsFault_decHdr <|
  .cons (fun _ => rfl) busyBlind_cbBuild keepsFault_cbBuild <|
  .cons (fun _ => rfl) busyBlind_decTbl keepsFault_decTbl <|
  .cons (fun _ => rfl) busyBlind_decAlloc keepsFault_decAlloc hbody

/-- Settles O12: each macro's run is its sub-commands' runs bound together, which do not see the `BUSY` that falls between them. -/
theorem macrosAreTheirExpansions : Obligations.MacrosAreTheirExpansions := by
  unfold Obligations.MacrosAreTheirExpansions
  intro s hs
  have encBody : Expands runEncBody [.encBody] := .last (fun _ => rfl) busyBlind_encBody
  have encBodyp : Expands runEncBodyp [.encBodyp] := .last (fun _ => rfl) busyBlind_encBodyp
  have decBody : Expands runDecBody [.decBody] := .last (fun _ => rfl) busyBlind_decBody
  have decBodyp : Expands runDecBodyp [.decBodyp] := .last (fun _ => rfl) busyBlind_decBodyp
  exact ⟨(encode_expands (iScan := .ftScan) (fun _ => rfl) busyBlind_ftScan keepsFault_ftScan encBody).same s hs,
    (encode_expands (iScan := .ftScanp) (fun _ => rfl) busyBlind_ftScanp keepsFault_ftScanp encBodyp).same s hs,
    (decode_expands decBody).same s hs, (decode_expands decBodyp).same s hs⟩

end Sys2Proof.Machine
end

section
/-! PROOFS. Left-justified values (R117): what one successor adds, the values along a chain, and the step at which it overflows. -/

namespace Sys2Proof.Machine

/-- `lj` of R117: the value of a bit vector as the leading bits of 16. -/
def BV.leftJustified (b : BV) : Nat := b.val.toNat * 2 ^ (16 - b.len.toNat)

/-- How much of the 2^16 left-justified values codewords of these lengths take up: each one `2^(16 − len)` (R117). -/
def codeSpace (ls : List (BitVec 5)) : Nat := (ls.map (fun l => 2 ^ (16 - l.toNat))).sum

@[simp] theorem codeSpace_nil : codeSpace [] = 0 := rfl

@[simp] theorem codeSpace_cons (l : BitVec 5) (ls : List (BitVec 5)) :
    codeSpace (l :: ls) = 2 ^ (16 - l.toNat) + codeSpace ls := rfl

@[simp] theorem bvZero_len (l : BitVec 5) : (bvZero l).len = l := rfl

@[simp] theorem bvZero_leftJustified (l : BitVec 5) : (bvZero l).leftJustified = 0 := by
  simp [BV.leftJustified, bvZero]

theorem leftJustified_lt_of_wf {b : BV} (h : b.wf) : b.leftJustified < 2 ^ 16 := by
  obtain ⟨hlen, hval⟩ := h
  calc b.val.toNat * 2 ^ (16 - b.len.toNat)
    _ < 2 ^ b.len.toNat * 2 ^ (16 - b.len.toNat) := Nat.mul_lt_mul_of_pos_right hval (by positivity)
    _ = 2 ^ 16 := pow_mul_pow_sub 2 hlen

/-! ### One successor -/

/-- The successor before its check, left-justified: the vector's left-justified value and its own place. -/
theorem successor_leftJustified {b : BV} {n : Nat} (hle : b.len.toNat ≤ n) (hn : n ≤ 16) :
    (b.val.toNat + 1) * 2 ^ (n - b.len.toNat) * 2 ^ (16 - n) = b.leftJustified + 2 ^ (16 - b.len.toNat) := by
  have hexp : n - b.len.toNat + (16 - n) = 16 - b.len.toNat := by omega
  rw [Nat.mul_assoc, ← Nat.pow_add, hexp, Nat.succ_mul, BV.leftJustified]

theorem bvNext_leftJustified {b c : BV} {nl : BitVec 5} (hl : nl.toNat ≤ 16) (h : bvNext b nl = .ok c) :
    c.leftJustified = b.leftJustified + 2 ^ (16 - b.len.toNat) := by
  obtain ⟨hle, rfl, hval, -⟩ := bvNext_ok hl h
  rw [BV.leftJustified, hval, successor_leftJustified hle hl]

/-- With a length that does not fall, `bv_next` raises nothing but `BV_OVERFLOW`, and then the successor's left-justified value has
reached 2^16. -/
theorem bvNext_error {b : BV} {nl : BitVec 5} {f : FaultRec} (hle : b.len.toNat ≤ nl.toNat) (hl : nl.toNat ≤ 16)
    (h : bvNext b nl = .error f) : f.cause = .bvOverflow ∧ 2 ^ 16 ≤ b.leftJustified + 2 ^ (16 - b.len.toNat) := by
  obtain ⟨hlt, -⟩ | ⟨-, hover, e⟩ | ⟨-, -, e⟩ := bvNext_cases b nl
  · exact absurd hle (Nat.not_le_of_lt hlt)
  · obtain rfl := Except.error.inj (e.symm.trans h)
    refine ⟨rfl, ?_⟩
    calc 2 ^ 16
      _ = 2 ^ nl.toNat * 2 ^ (16 - nl.toNat) := (pow_mul_pow_sub 2 hl).symm
      _ ≤ _ := Nat.mul_le_mul_right _ hover
      _ = _ := successor_leftJustified hle hl
  · cases e.symm.trans h

/-! ### A chain of successors -/

theorem codeChain_cons_eq_ok {prev : BV} {l : BitVec 5} {ls : List (BitVec 5)} {cs : List BV} :
    codeChain prev (l :: ls) = .ok cs ↔ ∃ c cs', bvNext prev l = .ok c ∧ codeChain c ls = .ok cs' ∧ cs = c :: cs' := by
  simp [codeChain, bind_eq_ok, eq_comm (a := cs)]

theorem codeChain_cons_eq_error {prev : BV} {l : BitVec 5} {ls : List (BitVec 5)} {f : FaultRec} :
    codeChain prev (l :: ls) = .error f ↔
      bvNext prev l = .error f ∨ ∃ c, bvNext prev l = .ok c ∧ codeChain c ls = .error f := by
  simp [codeChain, bind_eq_error]

/-- The chain from `prev` has the lengths asked for, and each of its vectors is well formed and lies, left-justified, above `prev` by
the places of `prev` and of the vectors between. -/
theorem codeChain_ok {prev : BV} {ls : List (BitVec 5)} {cs : List BV} (hprev : prev.wf) (hl : ∀ l ∈ ls, l.toNat ≤ 16)
    (h : codeChain prev ls = .ok cs) :
    cs.map BV.len = ls ∧ ∀ i (hi : i < (prev :: cs).length), (prev :: cs)[i].wf ∧
      (prev :: cs)[i].leftJustified = prev.leftJustified + codeSpace ((prev.len :: ls).take i) := by
  induction ls generalizing prev cs with
  | nil =>
    cases h
    simpa using hprev
  | cons l ls ih =>
    obtain ⟨c, cs, hc, hcs, rfl⟩ := codeChain_cons_eq_ok.1 h
    obtain ⟨hl0, hls⟩ := List.forall_mem_cons.1 hl
    obtain ⟨-, rfl, -, -⟩ := bvNext_ok hl0 hc
    obtain ⟨hlens, hvals⟩ := ih (bvNext_wf hl0 hc) hls hcs
    refine ⟨by rw [List.map_cons, hlens], fun i hi => ?_⟩
    cases i with
    | zero => exact ⟨hprev, rfl⟩
    | succ i =>
      obtain ⟨hwf, hval⟩ := hvals i (Nat.lt_of_succ_lt_succ hi)
      refine ⟨hwf, hval.trans ?_⟩
      rw [bvNext_leftJustified hl0 hc, List.take_succ_cons, codeSpace_cons, Nat.add_assoc]

/-- Along lengths that do not fall a chain raises nothing but `BV_OVERFLOW`, and then the left-justified value of some vector of it
would have reached 2^16. -/
theorem codeChain_error {prev : BV} {ls : List (BitVec 5)} {f : FaultRec}
    (hrise : (prev.len :: ls).Pairwise (fun k l => k.toNat ≤ l.toNat)) (hl : ∀ l ∈ ls, l.toNat ≤ 16)
    (h : codeChain prev ls = .error f) :
    f.cause = .bvOverflow ∧
      ∃ i < (prev.len :: ls).length, 2 ^ 16 ≤ prev.leftJustified + codeSpace ((prev.len :: ls).take i) := by
  induction ls generalizing prev with
  | nil => cases h
  | cons l ls ih =>
    obtain ⟨hl0, hls⟩ := List.forall_mem_cons.1 hl
    obtain ⟨hprev, hrise'⟩ := List.pairwise_cons.1 hrise
    obtain hf | ⟨c, hc, hf⟩ := codeChain_cons_eq_error.1 h
    · obtain ⟨hcause, hover⟩ := bvNext_error (hprev l List.mem_cons_self) hl0 hf
      exact ⟨hcause, 1, by simp, by simpa using hover⟩
    · obtain ⟨-, rfl, -, -⟩ := bvNext_ok hl0 hc
      obtain ⟨hcause, i, hi, hover⟩ := ih hrise' hls hf
      refine ⟨hcause, i + 1, Nat.succ_lt_succ hi, ?_⟩
      rwa [bvNext_leftJustified hl0 hc, Nat.add_assoc, ← codeSpace_cons, ← List.take_succ_cons] at hover

/-! ### The codes of a list of lengths -/

theorem assignCodes_cons_eq_ok {l : BitVec 5} {ls : List (BitVec 5)} {cs : List BV} :
    assignCodes (l :: ls) = .ok cs ↔ ∃ cs', codeChain (bvZero l) ls = .ok cs' ∧ cs = bvZero l :: cs' := by
  simp only [assignCodes, bind_eq_ok, Except.ok.injEq, eq_comm (a := cs)]

theorem assignCodes_cons_eq_error {l : BitVec 5} {ls : List (BitVec 5)} {f : FaultRec} :
    assignCodes (l :: ls) = .error f ↔ codeChain (bvZero l) ls = .error f := by
  simp [assignCodes, bind_eq_error]

/-- The i-th code is well formed and its left-justified value is the code space of the lengths before it. -/
theorem assignCodes_ok {ls : List (BitVec 5)} {cs : List BV} (hl : ∀ l ∈ ls, l.toNat ≤ 16) (h : assignCodes ls = .ok cs) :
    cs.map BV.len = ls ∧ ∀ i (hi : i < cs.length), cs[i].wf ∧ cs[i].leftJustified = codeSpace (ls.take i) := by
  cases ls with
  | nil =>
    cases h
    simp
  | cons l ls =>
    obtain ⟨cs, hcs, rfl⟩ := assignCodes_cons_eq_ok.1 h
    obtain ⟨hl0, hls⟩ := List.forall_mem_cons.1 hl
    obtain ⟨hlens, hvals⟩ := codeChain_ok (bvZero_wf hl0) hls hcs
    exact ⟨by rw [List.map_cons, hlens, bvZero_len], by simpa using hvals⟩

theorem assignCodes_error {ls : List (BitVec 5)} {f : FaultRec} (hrise : ls.Pairwise (fun k l => k.toNat ≤ l.toNat))
    (hl : ∀ l ∈ ls, l.toNat ≤ 16) (h : assignCodes ls = .error f) :
    f.cause = .bvOverflow ∧ ∃ i < ls.length, 2 ^ 16 ≤ codeSpace (ls.take i) := by
  cases ls with
  | nil => cases h
  | cons l ls =>
    simpa using codeChain_error (prev := bvZero l) hrise (List.forall_mem_cons.1 hl).2 (assignCodes_cons_eq_error.1 h)

/-- Assigning the codes overflows exactly when the code space before some code has reached 2^16: a code that is assigned is well
formed, so it lies below. -/
theorem assignCodes_overflow_iff {ls : List (BitVec 5)} (hrise : ls.Pairwise (fun k l => k.toNat ≤ l.toNat))
    (hl : ∀ l ∈ ls, l.toNat ≤ 16) :
    (∃ f, assignCodes ls = .error f ∧ f.cause = .bvOverflow) ↔ ∃ i < ls.length, 2 ^ 16 ≤ codeSpace (ls.take i) := by
  constructor
  · rintro ⟨f, hf, -⟩
    exact (assignCodes_error hrise hl hf).2
  · rintro ⟨i, hi, hover⟩
    cases h : assignCodes ls with
    | error f => exact ⟨f, rfl, (assignCodes_error hrise hl h).1⟩
    | ok cs =>
      obtain ⟨hlens, hvals⟩ := assignCodes_ok hl h
      have hlen : cs.length = ls.length := by simpa using congrArg List.length hlens
      obtain ⟨hwf, hval⟩ := hvals i (hi.trans_eq hlen.symm)
      exact absurd hover (Nat.not_le_of_lt (hval ▸ leftJustified_lt_of_wf hwf))

/-- Settles O30: a successor adds `2^(16 − len)`, so by induction along the chain its vectors lie at the sums of R117, and `bv_next`
overflows exactly when such a sum does not fit 16 bits. -/
theorem successorAdvancesLeftJustifiedValue : Obligations.SuccessorAdvancesLeftJustifiedValue := by
  unfold Obligations.SuccessorAdvancesLeftJustifiedValue
  refine ⟨fun b c nl _ hl h => bvNext_leftJustified hl h, fun ls hrise hl => ⟨fun cs h => ?_, ?_, fun f h => ?_⟩⟩
  · obtain ⟨hlens, hvals⟩ := assignCodes_ok hl h
    exact ⟨hlens, fun i hi => (hvals i hi).2⟩
  · exact assignCodes_overflow_iff hrise hl
  · exact (assignCodes_error hrise hl h).1

end Sys2Proof.Machine
end

section
/-! PROOFS. The lanes of `FT.SCANP` count what `FT.SCAN` counts (R134): counting forgets the order of the bytes, and the reductions of the
lanes add up to one count of all their bytes. -/

namespace Sys2Proof.Machine

/-! ### Counting and its reduction -/

/-- A count does not depend on the order of the bytes. -/
theorem countInto_perm {xs ys : List Byte} (h : xs.Perm ys) (t : Table Word) : countInto t xs = countInto t ys :=
  Table.ext fun v => by rw [countInto_at, countInto_at, h.count_eq]

/-- Adding a lane's own count is counting on from the table (R132). -/
theorem addCounts_countInto_zero (t : Table Word) (xs : List Byte) :
    addCounts t (countInto (Table.const 0) xs) = countInto t xs :=
  Table.ext fun v => by simp [countInto_at]

/-- Two reductions may change places. -/
theorem addCounts_right_comm (t c d : Table Word) : addCounts (addCounts t c) d = addCounts (addCounts t d) c :=
  Table.ext fun v => by simp only [addCounts_at, BitVec.add_assoc, BitVec.add_comm (c.at v)]

/-- The order of the reductions does not change their result (R132). -/
theorem foldl_addCounts_perm {cs ds : List (Table Word)} (h : cs.Perm ds) (t : Table Word) :
    cs.foldl addCounts t = ds.foldl addCounts t :=
  h.foldl_eq' (fun c _ d _ t => addCounts_right_comm t c d) t

/-- Reducing the lanes' own counts one after the other is one count of all their bytes. -/
theorem foldl_addCounts_map_countInto (f : Nat → List Byte) (ls : List Nat) (t : Table Word) :
    (ls.map (fun l => countInto (Table.const 0) (f l))).foldl addCounts t = countInto t (ls.flatMap f) := by
  induction ls generalizing t with
  | nil => rfl
  | cons l ls ih =>
    rw [List.map_cons, List.foldl_cons, addCounts_countInto_zero, ih, List.flatMap_cons, countInto_append]

/-! ### The bytes of the lanes -/

/-- The bytes that lane `l` counts in pass 1 of `FT.SCANP` (R132). -/
def State.laneBytes (s : State) (l : Nat) : List Byte :=
  (lanePages s.sched.count s.params.lanes (pageCount s.srcSize.toNat s.params.pageBytes) l).flatMap
    (fun k => s.srcAt (pageAddrs s.srcSize.toNat s.params.pageBytes k))

theorem laneCounts_eq_countInto (s : State) (l : Nat) : s.laneCounts l = countInto (Table.const 0) (s.laneBytes l) := rfl

/-- The pages of SRC hold its bytes, in order (R133). -/
theorem flatMap_srcAt_pageAddrs (s : State) {p : Nat} (hp : 1 ≤ p) :
    (List.range (pageCount s.srcSize.toNat p)).flatMap (fun k => s.srcAt (pageAddrs s.srcSize.toNat p k)) = s.srcBytes := by
  rw [State.srcBytes, ← pages_partition s.srcSize.toNat p hp]
  exact List.map_flatMap.symm

/-- Whatever the schedule, the lanes together count each input byte once (R133, R265). -/
theorem flatMap_laneBytes_perm {s : State} (h : s.params.legal) :
    ((List.range s.params.lanes).flatMap s.laneBytes).Perm s.srcBytes :=
  (flatMap_lanePages_perm s.sched.count h.2 _ _).trans (.of_eq (flatMap_srcAt_pageAddrs s h.1))

/-! ### The paged scan -/

/-- The reductions of the lanes, in the order the schedule gives, make the histogram of the input (R132). -/
theorem foldl_addCounts_laneCounts {s : State} (h : s.params.legal) :
    (taskOrder s.sched.count.turns ((List.range s.params.lanes).map s.laneCounts)).foldl addCounts (Table.const 0) =
      countInto (Table.const 0) s.srcBytes :=
  calc
    _ = ((List.range s.params.lanes).map s.laneCounts).foldl addCounts (Table.const 0) :=
      foldl_addCounts_perm (taskOrder_perm _ _) _
    _ = countInto (Table.const 0) ((List.range s.params.lanes).flatMap s.laneBytes) := by
      simp only [funext (laneCounts_eq_countInto s), foldl_addCounts_map_countInto]
    _ = countInto (Table.const 0) s.srcBytes := countInto_perm (flatMap_laneBytes_perm h) _

theorem runFtScanp_eq_runFtScan {s : State} (h : s.params.legal) : runFtScanp s = runFtScan s := by
  unfold runFtScanp
  split
  · rfl
  · rw [foldl_addCounts_laneCounts h, runFtScan]

/-- Settles O34: below the threshold `FT.SCANP` is `FT.SCAN`, and from it on the lanes' reductions make the same table. -/
theorem ftScanpEqualsFtScan : Obligations.FtScanpEqualsFtScan := by
  unfold Obligations.FtScanpEqualsFtScan
  intro s h
  exact congrArg finish (runFtScanp_eq_runFtScan h)

end Sys2Proof.Machine
end

section
/-! PROOFS. Package-merge satisfies Kraft equality (R150). Let a symbol that is contained `c` times in the chosen items fall `1 - 2^(-c)` short
of the whole. The invariant of the rounds (R145): the shortfall of the `m` lightest items is `m / 2`. A round keeps it, because the `m` lightest
of its items are some first packages, the singletons of some symbols, and every symbol of these packages is among these symbols: a package is
heavier than the singleton of any symbol in it. At the end `2n - 2` items are chosen, so the shortfall of `n` symbols is `n - 1`. -/

namespace Sys2Proof.Machine

/-! ### The first items of a stable sort -/

/-- The first `m` of a list with `a` inserted either stop before `a`, and then none of them may follow `a`, or hold `a`. -/
theorem take_orderedInsert_cases {α : Type} (r : α → α → Prop) [DecidableRel r] (a : α) (l : List α) (m : Nat) :
    (m ≤ l.length ∧ (l.orderedInsert r a).take m = l.take m ∧ ((l.orderedInsert r a).drop m).Perm (a :: l.drop m) ∧
        ∀ b ∈ l.take m, ¬ r a b) ∨
      ∃ k, m = k + 1 ∧ ((l.orderedInsert r a).take m).Perm (a :: l.take k) ∧ (l.orderedInsert r a).drop m = l.drop k := by
  induction l generalizing m with
  | nil =>
    cases m with
    | zero => exact .inl (by simp)
    | succ k => exact .inr ⟨k, by simp⟩
  | cons b l ih =>
    cases m with
    | zero => exact .inl ⟨Nat.zero_le _, rfl, List.perm_orderedInsert r a _, by simp⟩
    | succ m =>
      by_cases hab : r a b
      · exact .inr ⟨m, rfl, by simp [hab]⟩
      · rw [List.orderedInsert_of_not_le r l hab]
        rcases ih m with ⟨hm, ht, hd, hn⟩ | ⟨k, rfl, ht, hd⟩
        · exact .inl ⟨Nat.succ_le_succ hm, by simp [ht], hd, by simpa [hab] using hn⟩
        · exact .inr ⟨k + 1, rfl, (ht.cons b).trans (.swap a b _), hd⟩

/-- When a sorted list stands before another one, the first of the sort of both are first ones of the one and of the sort of the other
put together, and what is left is left of the two. -/
theorem exists_take_insertionSort_append {α : Type} {r : α → α → Prop} [DecidableRel r] {p : List α} (hp : p.Pairwise r) (z : List α)
    {m : Nat} (hm : m ≤ p.length + z.length) :
    ∃ q k, q + k = m ∧ q ≤ p.length ∧ k ≤ z.length ∧
      (((p ++ z).insertionSort r).take m).Perm (p.take q ++ (z.insertionSort r).take k) ∧
      (((p ++ z).insertionSort r).drop m).Perm (p.drop q ++ (z.insertionSort r).drop k) := by
  induction p generalizing m with
  | nil => exact ⟨0, m, Nat.zero_add m, Nat.zero_le _, by simpa using hm, .refl _, .refl _⟩
  | cons a p ih =>
    rw [List.pairwise_cons] at hp
    obtain ⟨ha, hp⟩ := hp
    rw [List.cons_append, List.insertionSort_cons]
    rcases take_orderedInsert_cases r a ((p ++ z).insertionSort r) m with ⟨hl, ht, hd, hn⟩ | ⟨j, rfl, ht, hd⟩
    · obtain ⟨q, k, rfl, hq, hk, ht', hd'⟩ := ih hp (by simpa using hl)
      have hq0 : p.take q = [] := List.eq_nil_iff_forall_not_mem.2 fun b hb =>
        hn b (ht'.mem_iff.2 (List.mem_append_left _ hb)) (ha b (List.mem_of_mem_take hb))
      obtain rfl : q = 0 := by simpa [hq] using congrArg List.length hq0
      exact ⟨0, k, rfl, Nat.zero_le _, hk, (List.Perm.of_eq ht).trans ht', hd.trans (hd'.cons a)⟩
    · obtain ⟨q, k, rfl, hq, hk, ht', hd'⟩ := ih hp (by simpa [Nat.add_right_comm] using hm)
      exact ⟨q + 1, k, by omega, Nat.succ_le_succ hq, hk, ht.trans (ht'.cons a), (List.Perm.of_eq hd).trans hd'⟩

/-! ### How often the items of a list contain a symbol -/

/-- How often symbol `i` is contained in the items of `l` (R147). -/
def occurrences (l : List Item) (i : Nat) : Nat := (l.map (fun x => x.cnt.getD i 0)).sum

@[simp] theorem occurrences_nil (i : Nat) : occurrences [] i = 0 := rfl

@[simp] theorem occurrences_cons (x : Item) (l : List Item) (i : Nat) :
    occurrences (x :: l) i = x.cnt.getD i 0 + occurrences l i := List.sum_cons

@[simp] theorem occurrences_append (l₁ l₂ : List Item) (i : Nat) :
    occurrences (l₁ ++ l₂) i = occurrences l₁ i + occurrences l₂ i := by
  simp [occurrences]

theorem occurrences_perm {l₁ l₂ : List Item} (h : l₁.Perm l₂) (i : Nat) : occurrences l₁ i = occurrences l₂ i :=
  (h.map _).sum_eq

theorem exists_mem_of_occurrences_ne_zero {l : List Item} {i : Nat} (h : occurrences l i ≠ 0) : ∃ x ∈ l, x.cnt.getD i 0 ≠ 0 := by
  contrapose! h
  exact List.sum_eq_zero (by simpa using h)

/-- With two weights or more the lengths are the occurrences in the chosen items (R147). -/
theorem lengths_eq_map_occurrences {ws : List Nat} (h : 2 ≤ ws.length) :
    lengths ws = (List.range ws.length).map (occurrences ((sortByWeight (mergedItems ws)).take (2 * ws.length - 2))) := by
  rw [lengths, if_neg (by omega), if_neg (by omega)]
  rfl

/-! ### Items that weigh at least what each of their symbols weighs -/

/-- What every item of the working list satisfies when the weights are positive: it counts every symbol of the symbol array, weighs something,
and weighs no less than any symbol it contains. -/
structure Item.Outweighs (ws : List Nat) (x : Item) : Prop where
  cnt_length : x.cnt.length = ws.length
  weight_pos : 0 < x.weight
  le_weight  : ∀ i, x.cnt.getD i 0 ≠ 0 → ws.getD i 0 ≤ x.weight

theorem singleton_cnt_getD {ws : List Nat} {i : Nat} (hi : i < ws.length) (j : Nat) :
    (singleton ws j).cnt.getD i 0 = if i = j then 1 else 0 := by
  simp [singleton, hi]

theorem package_cnt_getD {ws : List Nat} {x y : Item} (hx : x.Outweighs ws) (hy : y.Outweighs ws) (i : Nat) :
    (package x y).cnt.getD i 0 = x.cnt.getD i 0 + y.cnt.getD i 0 := by
  have h : x.cnt.length = y.cnt.length := hx.cnt_length.trans hy.cnt_length.symm
  by_cases hi : i < x.cnt.length
  · simp [package, hi, h ▸ hi]
  · simp [package, hi, h ▸ hi]

/-- A package is heavier than any symbol in it: its other item weighs something. -/
theorem lt_package_weight {ws : List Nat} {x y : Item} (hx : x.Outweighs ws) (hy : y.Outweighs ws) {i : Nat}
    (h : (package x y).cnt.getD i 0 ≠ 0) : ws.getD i 0 < (package x y).weight := by
  have hw : (package x y).weight = x.weight + y.weight := rfl
  have hxw := hx.weight_pos
  have hyw := hy.weight_pos
  rw [package_cnt_getD hx hy] at h
  rcases Nat.eq_zero_or_pos (x.cnt.getD i 0) with h0 | h0
  · have := hy.le_weight i (by omega)
    omega
  · have := hx.le_weight i h0.ne'
    omega

theorem package_outweighs {ws : List Nat} {x y : Item} (hx : x.Outweighs ws) (hy : y.Outweighs ws) : (package x y).Outweighs ws where
  cnt_length := by simp [package, hx.cnt_length, hy.cnt_length]
  weight_pos := Nat.add_pos_left hx.weight_pos _
  le_weight _ h := (lt_package_weight hx hy h).le

theorem singleton_outweighs {ws : List Nat} (hpos : ∀ w ∈ ws, 0 < w) {i : Nat} (hi : i < ws.length) :
    (singleton ws i).Outweighs ws where
  cnt_length := by simp [singleton]
  weight_pos := by simpa [singleton, hi] using hpos _ (List.getElem_mem hi)
  le_weight j h := by
    have hj : j < ws.length := by
      by_contra hj
      exact h (List.getD_eq_default _ _ (by simpa [singleton] using hj))
    rw [singleton_cnt_getD hj, ite_ne_right_iff] at h
    obtain ⟨rfl, -⟩ := h
    exact le_rfl

/-! ### Packages of neighbours -/

theorem length_pairUp : ∀ l : List Item, (pairUp l).length = l.length / 2
  | [] => rfl
  | [_] => by simp [pairUp]
  | x :: y :: l => by
    rw [pairUp, List.length_cons, length_pairUp l, List.length_cons, List.length_cons]
    omega

theorem exists_package_of_mem_pairUp {l : List Item} {p : Item} (h : p ∈ pairUp l) : ∃ x ∈ l, ∃ y ∈ l, p = package x y := by
  induction l using pairUp.induct with
  | case1 x y l ih =>
    rw [pairUp, List.mem_cons] at h
    rcases h with rfl | h
    · exact ⟨x, by simp, y, by simp, rfl⟩
    · obtain ⟨x', hx, y', hy, rfl⟩ := ih h
      exact ⟨x', by simp [hx], y', by simp [hy], rfl⟩
  | case2 l hl => simp [pairUp] at h

theorem pairUp_sorted {l : List Item} (h : l.Pairwise (fun x y => x.weight ≤ y.weight)) :
    (pairUp l).Pairwise (fun x y => x.weight ≤ y.weight) := by
  induction l using pairUp.induct with
  | case1 x y l ih =>
    simp only [List.pairwise_cons, List.forall_mem_cons] at h
    obtain ⟨⟨-, hx⟩, hy, hl⟩ := h
    refine List.pairwise_cons.2 ⟨fun p hp => ?_, ih hl⟩
    obtain ⟨a, ha, b, hb, rfl⟩ := exists_package_of_mem_pairUp hp
    exact Nat.add_le_add (hx a ha) (hy b hb)
  | case2 l hl => simp [pairUp]

/-- The first `q` packages contain what the first `2 * q` items contain. -/
theorem occurrences_take_pairUp {ws : List Nat} (i : Nat) : ∀ {l : List Item} {q : Nat},
    (∀ x ∈ l, x.Outweighs ws) → 2 * q ≤ l.length → occurrences ((pairUp l).take q) i = occurrences (l.take (2 * q)) i
  | _, 0, _, _ => rfl
  | [_], q + 1, _, hq => absurd hq (by rw [List.length_singleton]; omega)
  | x :: y :: l, q + 1, hl, hq => by
    simp only [List.forall_mem_cons] at hl
    obtain ⟨hx, hy, hl⟩ := hl
    have hrest := occurrences_take_pairUp i (q := q) hl (by simpa [Nat.mul_succ] using hq)
    rw [pairUp, List.take_succ_cons, occurrences_cons, package_cnt_getD hx hy, hrest, Nat.mul_succ, List.take_succ_cons,
      List.take_succ_cons, occurrences_cons, occurrences_cons, Nat.add_assoc]

/-! ### The sort, and the sorted singletons -/

theorem sortByWeight_sorted (l : List Item) : (sortByWeight l).Pairwise (fun x y => x.weight ≤ y.weight) :=
  haveI : Std.Total (fun x y : Item => x.weight ≤ y.weight) := ⟨fun _ _ => le_total _ _⟩
  haveI : IsTrans Item (fun x y => x.weight ≤ y.weight) := ⟨fun _ _ _ => le_trans⟩
  List.pairwise_insertionSort _ _

theorem length_sortByWeight (l : List Item) : (sortByWeight l).length = l.length := List.length_insertionSort _ _

theorem mem_sortByWeight {l : List Item} {x : Item} : x ∈ sortByWeight l ↔ x ∈ l := List.mem_insertionSort _

/-- The symbols in the order in which the sort of R146 puts their singletons. -/
def weightOrder (ws : List Nat) : List Nat :=
  (List.range ws.length).insertionSort (fun i j => ws.getD i 0 ≤ ws.getD j 0)

theorem sortByWeight_singletons (ws : List Nat) : sortByWeight (singletons ws) = (weightOrder ws).map (singleton ws) :=
  (List.map_insertionSort _ _ (singleton ws) _ fun _ _ _ _ => Iff.rfl).symm

theorem weightOrder_perm (ws : List Nat) : (weightOrder ws).Perm (List.range ws.length) := List.perm_insertionSort _ _

theorem weightOrder_nodup (ws : List Nat) : (weightOrder ws).Nodup := (weightOrder_perm ws).nodup_iff.2 List.nodup_range

theorem mem_weightOrder {ws : List Nat} {i : Nat} : i ∈ weightOrder ws ↔ i < ws.length :=
  (weightOrder_perm ws).mem_iff.trans List.mem_range

theorem length_singletons (ws : List Nat) : (singletons ws).length = ws.length := by
  simp [singletons]

/-- The singletons of different symbols contain each of these symbols once. -/
theorem occurrences_map_singleton {ws : List Nat} {is : List Nat} (h : is.Nodup) {i : Nat} (hi : i < ws.length) :
    occurrences (is.map (singleton ws)) i = if i ∈ is then 1 else 0 := by
  induction is with
  | nil => rfl
  | cons j is ih =>
    obtain ⟨hj, his⟩ := List.nodup_cons.1 h
    rw [List.map_cons, occurrences_cons, singleton_cnt_getD hi, ih his]
    by_cases hij : i = j
    · simp [hij, hj]
    · simp [hij]

/-! ### The shortfall -/

/-- How far the `n` symbols with lengths `c` are short of `n` in Kraft's sum. -/
def kraftShortfall (n : Nat) (c : Nat → Nat) : ℚ := ∑ i ∈ Finset.range n, (1 - 1 / 2 ^ c i)

theorem sum_map_range_eq_sub_kraftShortfall (n : Nat) (c : Nat → Nat) :
    (((List.range n).map c).map (fun l => (1 : ℚ) / 2 ^ l)).sum = n - kraftShortfall n c := by
  have hsum : ∑ i ∈ Finset.range n, (1 : ℚ) / 2 ^ c i = (((List.range n).map c).map (fun l => (1 : ℚ) / 2 ^ l)).sum := by
    rw [List.map_map]
    rfl
  rw [kraftShortfall, Finset.sum_sub_distrib, hsum]
  simp

/-- Lengthening by one the symbols `is`, all that have a length among them, halves the shortfall and adds a half for each of them. -/
theorem kraftShortfall_add_one {n : Nat} {c c' : Nat → Nat} {is : List Nat} (hnd : is.Nodup) (his : ∀ i ∈ is, i < n)
    (hc : ∀ i < n, c i ≠ 0 → i ∈ is) (hc' : ∀ i < n, c' i = c i + if i ∈ is then 1 else 0) :
    kraftShortfall n c' = (is.length + kraftShortfall n c) / 2 := by
  have hterm : ∀ i ∈ Finset.range n, (1 - 1 / 2 ^ c' i : ℚ) = ((if i ∈ is.toFinset then 1 else 0) + (1 - 1 / 2 ^ c i)) / 2 := by
    intro i hi
    have hin := Finset.mem_range.1 hi
    rw [hc' i hin]
    by_cases h : i ∈ is
    · simp [h, pow_succ]
      ring
    · have h0 : c i = 0 := by_contra fun h0 => h (hc i hin h0)
      simp [h, h0]
  have hsub : is.toFinset ⊆ Finset.range n := fun i hi => Finset.mem_range.2 (his i (List.mem_toFinset.1 hi))
  rw [kraftShortfall, Finset.sum_congr rfl hterm, ← Finset.sum_div, Finset.sum_add_distrib, Finset.sum_ite_mem,
    Finset.inter_eq_right.2 hsub, Finset.sum_const, List.toFinset_card_of_nodup hnd, nsmul_one, kraftShortfall]

/-! ### The rounds -/

/-- The invariant of the rounds of R145: the `m` lightest items fall `m / 2` short. -/
structure Balanced (ws : List Nat) (l : List Item) : Prop where
  outweighs : ∀ x ∈ l, x.Outweighs ws
  shortfall : ∀ m ≤ l.length, kraftShortfall ws.length (occurrences ((sortByWeight l).take m)) = m / 2

theorem balanced_nil (ws : List Nat) : Balanced ws [] where
  outweighs := by simp
  shortfall m hm := by
    obtain rfl := Nat.le_zero.1 hm
    simp [sortByWeight, kraftShortfall]

theorem mergeRound_outweighs {ws : List Nat} (hpos : ∀ w ∈ ws, 0 < w) {l : List Item} (hl : ∀ x ∈ l, x.Outweighs ws) :
    ∀ x ∈ mergeRound ws l, x.Outweighs ws := by
  intro x hx
  rcases List.mem_append.1 hx with hx | hx
  · obtain ⟨a, ha, b, hb, rfl⟩ := exists_package_of_mem_pairUp hx
    exact package_outweighs (hl a (mem_sortByWeight.1 ha)) (hl b (mem_sortByWeight.1 hb))
  · obtain ⟨i, hi, rfl⟩ := List.mem_map.1 hx
    exact singleton_outweighs hpos (List.mem_range.1 hi)

/-- The `m` lightest items of a round are its first `q` packages and the singletons of the `k` lightest symbols, up to their order. -/
structure RoundSplit (ws : List Nat) (l : List Item) (m q k : Nat) : Prop where
  taken : ((sortByWeight (mergeRound ws l)).take m).Perm
    ((pairUp (sortByWeight l)).take q ++ ((weightOrder ws).take k).map (singleton ws))
  rest : ((sortByWeight (mergeRound ws l)).drop m).Perm
    ((pairUp (sortByWeight l)).drop q ++ ((weightOrder ws).drop k).map (singleton ws))

/-- The first items of a sorted round split, since the packages come first in the list that is sorted, and the sort is stable (R146). -/
theorem exists_roundSplit (ws : List Nat) (l : List Item) {m : Nat} (hm : m ≤ (mergeRound ws l).length) :
    ∃ q k, q + k = m ∧ 2 * q ≤ l.length ∧ k ≤ ws.length ∧ RoundSplit ws l m q k := by
  obtain ⟨q, k, hqk, hq, hk, ht, hd⟩ :=
    exists_take_insertionSort_append (pairUp_sorted (sortByWeight_sorted l)) (singletons ws) (hm.trans_eq List.length_append)
  rw [length_pairUp, length_sortByWeight] at hq
  refine ⟨q, k, hqk, by omega, hk.trans_eq (length_singletons ws), ?_, ?_⟩
  · rw [List.map_take, ← sortByWeight_singletons]
    exact ht
  · rw [List.map_drop, ← sortByWeight_singletons]
    exact hd

/-- When the first items of a sorted list hold a package and the rest holds the singleton of a symbol, that symbol is not in the package. -/
theorem package_cnt_eq_zero_of_singleton_mem_drop {ws : List Nat} {l : List Item} {m i : Nat} {x y : Item} (hx : x.Outweighs ws)
    (hy : y.Outweighs ws) (hp : package x y ∈ (sortByWeight l).take m) (hs : singleton ws i ∈ (sortByWeight l).drop m) :
    (package x y).cnt.getD i 0 = 0 := by
  have hsorted := sortByWeight_sorted l
  rw [← List.take_append_drop m (sortByWeight l), List.pairwise_append] at hsorted
  obtain ⟨-, -, hle⟩ := hsorted
  by_contra h
  exact absurd (hle _ hp _ hs) (lt_package_weight hx hy h).not_ge

/-- The singleton of every symbol in the packages among the lightest items of a round is among these items too. -/
theorem RoundSplit.mem_take_weightOrder {ws : List Nat} {l : List Item} {m q k : Nat} (hs : RoundSplit ws l m q k)
    (hl : ∀ x ∈ l, x.Outweighs ws) {i : Nat} (hi : i < ws.length) (h : occurrences ((pairUp (sortByWeight l)).take q) i ≠ 0) :
    i ∈ (weightOrder ws).take k := by
  obtain ⟨p, hp, hpi⟩ := exists_mem_of_occurrences_ne_zero h
  obtain ⟨x, hx, y, hy, rfl⟩ := exists_package_of_mem_pairUp (List.mem_of_mem_take hp)
  have hsplit : i ∈ (weightOrder ws).take k ++ (weightOrder ws).drop k := by
    rwa [List.take_append_drop, mem_weightOrder]
  refine (List.mem_append.1 hsplit).resolve_right fun hrest => hpi ?_
  exact package_cnt_eq_zero_of_singleton_mem_drop (hl x (mem_sortByWeight.1 hx)) (hl y (mem_sortByWeight.1 hy))
    (hs.taken.mem_iff.2 (List.mem_append_left _ hp)) (hs.rest.mem_iff.2 (List.mem_append_right _ (List.mem_map_of_mem hrest)))

theorem mergeRound_balanced {ws : List Nat} (hpos : ∀ w ∈ ws, 0 < w) {l : List Item} (hl : Balanced ws l) :
    Balanced ws (mergeRound ws l) where
  outweighs := mergeRound_outweighs hpos hl.outweighs
  shortfall m hm := by
    obtain ⟨q, k, rfl, hq, hk, hs⟩ := exists_roundSplit ws l hm
    have hnd : ((weightOrder ws).take k).Nodup := (weightOrder_nodup ws).sublist (List.take_sublist _ _)
    have hpackages : occurrences ((pairUp (sortByWeight l)).take q) = occurrences ((sortByWeight l).take (2 * q)) :=
      funext fun i =>
        occurrences_take_pairUp i (fun x hx => hl.outweighs x (mem_sortByWeight.1 hx)) (hq.trans_eq (length_sortByWeight l).symm)
    have hsingles : ((weightOrder ws).take k).length = k := by
      rw [List.length_take, (weightOrder_perm ws).length_eq, List.length_range, Nat.min_eq_left hk]
    have hoccurs : ∀ i < ws.length, occurrences ((sortByWeight (mergeRound ws l)).take (q + k)) i =
        occurrences ((pairUp (sortByWeight l)).take q) i + if i ∈ (weightOrder ws).take k then 1 else 0 := fun i hi => by
      rw [occurrences_perm hs.taken, occurrences_append, occurrences_map_singleton hnd hi]
    rw [kraftShortfall_add_one hnd (fun i hi => mem_weightOrder.1 (List.mem_of_mem_take hi))
        (fun i => hs.mem_take_weightOrder hl.outweighs) hoccurs,
      hsingles, hpackages, hl.shortfall _ hq]
    push_cast
    ring

theorem singletons_balanced {ws : List Nat} (hpos : ∀ w ∈ ws, 0 < w) : Balanced ws (singletons ws) :=
  mergeRound_balanced hpos (balanced_nil ws)

theorem mergeRounds_balanced {ws : List Nat} (hpos : ∀ w ∈ ws, 0 < w) (cutoff fuel : Nat) {l : List Item} (hl : Balanced ws l) :
    Balanced ws (mergeRounds ws cutoff fuel l) := by
  induction fuel generalizing l with
  | zero => exact hl
  | succ fuel ih =>
    rw [mergeRounds]
    split
    · exact ih (mergeRound_balanced hpos hl)
    · exact hl

/-! ### How many items there are -/

theorem length_mergeRound (ws : List Nat) (l : List Item) : (mergeRound ws l).length = l.length / 2 + ws.length := by
  rw [mergeRound, List.length_append, length_pairUp, length_sortByWeight, length_singletons]

/-- The rounds end at the cutoff exactly: no round passes it (R148). -/
theorem length_mergeRounds {ws : List Nat} (fuel : Nat) {l : List Item} (hle : l.length ≤ 2 * ws.length - 2)
    (hfuel : 2 * ws.length - 2 ≤ l.length + fuel) :
    (mergeRounds ws (2 * ws.length - 2) fuel l).length = 2 * ws.length - 2 := by
  induction fuel generalizing l with
  | zero => exact hle.antisymm hfuel
  | succ fuel ih =>
    rw [mergeRounds]
    split
    · have := length_mergeRound ws l
      exact ih (by omega) (by omega)
    · omega

/-- The working list ends with `2n - 2` items (R148). -/
theorem length_mergedItems {ws : List Nat} (h : 2 ≤ ws.length) : (mergedItems ws).length = 2 * ws.length - 2 := by
  have := length_singletons ws
  exact length_mergeRounds _ (by omega) (by omega)

/-! ### Kraft equality -/

theorem kraftShortfall_mergedItems {ws : List Nat} (h : 2 ≤ ws.length) (hpos : ∀ w ∈ ws, 0 < w) :
    kraftShortfall ws.length (occurrences ((sortByWeight (mergedItems ws)).take (2 * ws.length - 2))) = ws.length - 1 := by
  have hbal : Balanced ws (mergedItems ws) := mergeRounds_balanced hpos _ _ (singletons_balanced hpos)
  rw [hbal.shortfall _ (length_mergedItems h).ge, Nat.cast_sub (by omega)]
  push_cast
  ring

/-- Settles O37: the shortfall of the `2n - 2` items that the rounds end with is `n - 1`. -/
theorem packageMergeSatisfiesKraftEquality : Obligations.PackageMergeSatisfiesKraftEquality := by
  unfold Obligations.PackageMergeSatisfiesKraftEquality
  refine ⟨fun ws h hpos => ?_, fun w => by simp [lengths], by simp [lengths]⟩
  rw [lengths_eq_map_occurrences h, sum_map_range_eq_sub_kraftShortfall, kraftShortfall_mergedItems h hpos]
  ring

end Sys2Proof.Machine
end

section
/-! PROOFS. The canonical code (R160 to R166): each present value takes up `2^(16 − len)` of the left-justified values from `codeStart`
on, next to one another in canonical order, and together they take up K. -/

namespace Sys2Proof.Machine

/-! ### Canonical order -/

theorem canonicalLT_irrefl (len : Byte → Nat) (v : Byte) : ¬ canonicalLT len v v := by
  simp

theorem canonicalLT_trichotomy (len : Byte → Nat) {u v : Byte} (h : u ≠ v) : canonicalLT len u v ∨ canonicalLT len v u := by
  have hne : u.toNat ≠ v.toNat := BitVec.toNat_ne_iff_ne.2 h
  omega

theorem canonicalLT_trans {len : Byte → Nat} {u v w : Byte} (huv : canonicalLT len u v) (hvw : canonicalLT len v w) :
    canonicalLT len u w := by
  omega

theorem len_le_of_canonicalLT {len : Byte → Nat} {u v : Byte} (h : canonicalLT len u v) : len u ≤ len v :=
  h.elim Nat.le_of_lt fun e => e.1.le

theorem mem_present {len : Byte → Nat} {v : Byte} : v ∈ present len ↔ len v ≠ 0 := by
  simp [present, mem_allBytes]

theorem canonicalOrder_perm (len : Byte → Nat) : (canonicalOrder len).Perm (present len) := List.perm_insertionSort _ _

theorem mem_canonicalOrder {len : Byte → Nat} {v : Byte} : v ∈ canonicalOrder len ↔ len v ≠ 0 :=
  (canonicalOrder_perm len).mem_iff.trans mem_present

theorem canonicalOrder_nodup (len : Byte → Nat) : (canonicalOrder len).Nodup :=
  (canonicalOrder_perm len).nodup_iff.2 (allBytes_nodup.filter _)

theorem canonicalOrder_sorted (len : Byte → Nat) : (canonicalOrder len).Pairwise (canonicalLT len) := by
  have : Std.Total (canonicalLE len) := ⟨fun u v => by omega⟩
  have : IsTrans Byte (canonicalLE len) := ⟨fun u v w huv hvw => by omega⟩
  have hle : (canonicalOrder len).Pairwise (canonicalLE len) := List.pairwise_insertionSort _ _
  refine (hle.and (canonicalOrder_nodup len)).imp fun {u v} ⟨h, hne⟩ => ?_
  have hne' : u.toNat ≠ v.toNat := BitVec.toNat_ne_iff_ne.2 hne
  omega

/-- The last value of the order comes after every other one. -/
theorem canonicalLT_getLast {len : Byte → Nat} {v : Byte} (hv : v ∈ (canonicalOrder len).getLast?) {u : Byte} (hu : len u ≠ 0)
    (hne : u ≠ v) : canonicalLT len u v := by
  obtain ⟨us, hus⟩ := List.getLast?_eq_some_iff.1 hv
  have hsort := canonicalOrder_sorted len
  have hmem := mem_canonicalOrder.2 hu
  rw [hus] at hsort hmem
  have hu' : u ∈ us := by simpa [hne] using hmem
  exact (List.pairwise_append.1 hsort).2.2 u hu' v (List.mem_singleton_self v)

/-- No value comes before the first of the order. -/
theorem not_canonicalLT_head {len : Byte → Nat} {v : Byte} (hv : v ∈ (canonicalOrder len).head?) {u : Byte} (hu : len u ≠ 0) :
    ¬ canonicalLT len u v := by
  obtain ⟨us, hus⟩ := List.head?_eq_some_iff.1 hv
  have hsort := canonicalOrder_sorted len
  have hmem := mem_canonicalOrder.2 hu
  rw [hus] at hsort hmem
  rcases List.mem_cons.1 hmem with rfl | hmem
  · exact canonicalLT_irrefl len u
  · exact fun h => canonicalLT_irrefl len u (canonicalLT_trans h ((List.pairwise_cons.1 hsort).1 u hmem))

/-! ### Over-subscribed lengths -/

theorem kraftOne_eq : Config.kraftOne = 2 ^ 16 := rfl

theorem codeSpace_append (ks ls : List (BitVec 5)) : codeSpace (ks ++ ls) = codeSpace ks + codeSpace ls := by
  simp [codeSpace]

/-- Along lengths that do not fall, the code space before the last code and 2^16 are multiples of what the last code takes up: if the
whole is above 2^16, then what stands before the last code has reached it. -/
theorem lt_codeSpace_iff {ls : List (BitVec 5)} (hrise : ls.Pairwise (fun k l => k.toNat ≤ l.toNat)) :
    2 ^ 16 < codeSpace ls ↔ ∃ i < ls.length, 2 ^ 16 ≤ codeSpace (ls.take i) := by
  constructor
  · intro h
    obtain rfl | ⟨ks, l, rfl⟩ := List.eq_nil_or_concat' ls
    · simp at h
    · have hle : ∀ k ∈ ks, k.toNat ≤ l.toNat := fun k hk =>
        (List.pairwise_append.1 hrise).2.2 k hk l (List.mem_singleton_self l)
      have hdvd : 2 ^ (16 - l.toNat) ∣ codeSpace ks := by
        refine List.dvd_sum fun d hd => ?_
        obtain ⟨k, hk, rfl⟩ := List.mem_map.1 hd
        exact pow_dvd_pow 2 (Nat.sub_le_sub_left (hle k hk) 16)
      rw [codeSpace_append, codeSpace_cons, codeSpace_nil, Nat.add_zero] at h
      refine ⟨ks.length, by simp, ?_⟩
      rw [List.take_left' rfl]
      exact Nat.le_of_lt_add_of_dvd h (pow_dvd_pow 2 (Nat.sub_le 16 _)) hdvd
  · rintro ⟨i, hi, h⟩
    have hpos : 0 < 2 ^ (16 - ls[i].toNat) := by positivity
    rw [← List.take_append_drop i ls, codeSpace_append, List.drop_eq_getElem_cons hi, codeSpace_cons]
    omega

/-- K of R162 is the code space of the lengths in canonical order. -/
theorem kraftSum_lenOf (s : State) : kraftSum s.lenOf = codeSpace ((canonicalOrder s.lenOf).map s.lens.at) := by
  rw [codeSpace, List.map_map, ((canonicalOrder_perm s.lenOf).map _).sum_eq, kraftSum]
  simp [Nat.shiftLeft_eq, State.lenOf, Function.comp_def]

theorem lengths_canonicalOrder_rise (s : State) :
    ((canonicalOrder s.lenOf).map s.lens.at).Pairwise (fun k l => k.toNat ≤ l.toNat) :=
  List.pairwise_map.2 ((canonicalOrder_sorted s.lenOf).imp len_le_of_canonicalLT)

/-- `CB.BUILD` makes the Kraft test before anything else (R162). -/
theorem exec_cbBuild_of_overSubscribed {s : State} (h : Config.kraftOne < kraftSum s.lenOf) :
    ∃ t, exec .cbBuild s = .next t ∧ FaultTaken .bvOverflow (BitVec.ofNat 32 (kraftSum s.lenOf)) s t := by
  have hrun : runCbBuild s = .error ⟨⟨.bvOverflow, low32 (kraftSum s.lenOf)⟩, s⟩ := if_pos h
  rw [show exec .cbBuild s = finish (runCbBuild s) from rfl, hrun]
  exact finish_raise _ _ s

/-- Settles O40: the chain overflows when the code space before some code has reached 2^16, that is when the whole code space, which is
K, is above it. -/
theorem codeChainOverflowsIffOverSubscribed : Obligations.CodeChainOverflowsIffOverSubscribed := by
  unfold Obligations.CodeChainOverflowsIffOverSubscribed
  intro s hs
  refine ⟨?_, exec_cbBuild_of_overSubscribed⟩
  have hrise := lengths_canonicalOrder_rise s
  have hl : ∀ l ∈ (canonicalOrder s.lenOf).map s.lens.at, l.toNat ≤ 16 := List.forall_mem_map.2 fun v _ => hs.lens v
  calc _ ↔ _ := assignCodes_overflow_iff hrise hl
    _ ↔ 2 ^ 16 < codeSpace _ := (lt_codeSpace_iff hrise).symm
    _ ↔ Config.kraftOne < kraftSum s.lenOf := by rw [kraftSum_lenOf, kraftOne_eq]

/-! ### Where the codes of the closed form lie -/

theorem sum_map_filter_allBytes (p : Byte → Bool) (f : Byte → Nat) :
    ((allBytes.filter p).map f).sum = ∑ v with p v = true, f v := by
  rw [← List.sum_toFinset f (allBytes_nodup.filter p)]
  congr 1
  ext v
  simp [mem_allBytes]

theorem kraftSum_eq_sum (len : Byte → Nat) : kraftSum len = ∑ u with len u ≠ 0, 2 ^ (16 - len u) := by
  simp [kraftSum, present, sum_map_filter_allBytes, Nat.shiftLeft_eq]

theorem codeStart_eq_sum (len : Byte → Nat) (v : Byte) :
    codeStart len v = ∑ u with len u ≠ 0 ∧ canonicalLT len u v, 2 ^ (16 - len u) := by
  simp [codeStart, present, List.filter_filter, sum_map_filter_allBytes, and_comm]

section
variable {len : Byte → Nat}

/-- `v` takes up the next values after those that the values before it take up. -/
theorem codeStart_add_eq_sum {v : Byte} (hv : len v ≠ 0) :
    codeStart len v + 2 ^ (16 - len v) = ∑ u with len u ≠ 0 ∧ (u = v ∨ canonicalLT len u v), 2 ^ (16 - len u) := by
  have hins : (Finset.univ.filter fun u => len u ≠ 0 ∧ (u = v ∨ canonicalLT len u v)) =
      insert v (Finset.univ.filter fun u => len u ≠ 0 ∧ canonicalLT len u v) := by
    ext u
    by_cases hu : u = v <;> simp [hu, hv]
  rw [hins, Finset.sum_insert (by simp), codeStart_eq_sum, Nat.add_comm]

theorem codeStart_add_le {u v : Byte} (hu : len u ≠ 0) (h : canonicalLT len u v) :
    codeStart len u + 2 ^ (16 - len u) ≤ codeStart len v := by
  rw [codeStart_add_eq_sum hu, codeStart_eq_sum]
  refine Finset.sum_le_sum_of_subset (Finset.monotone_filter_right _ fun w _ ⟨hw, hwu⟩ => ⟨hw, ?_⟩)
  rcases hwu with rfl | hwu
  · exact h
  · exact canonicalLT_trans hwu h

theorem codeStart_lt {u v : Byte} (hu : len u ≠ 0) (h : canonicalLT len u v) : codeStart len u < codeStart len v :=
  (Nat.lt_add_of_pos_right (by positivity)).trans_le (codeStart_add_le hu h)

theorem codeStart_add_le_kraftSum {v : Byte} (hv : len v ≠ 0) : codeStart len v + 2 ^ (16 - len v) ≤ kraftSum len := by
  rw [codeStart_add_eq_sum hv, kraftSum_eq_sum]
  exact Finset.sum_le_sum_of_subset (Finset.monotone_filter_right _ fun _ _ h => h.1)

theorem codeStart_getLast {v : Byte} (hv : v ∈ (canonicalOrder len).getLast?) :
    codeStart len v + 2 ^ (16 - len v) = kraftSum len := by
  rw [codeStart_add_eq_sum (mem_canonicalOrder.1 (List.mem_of_getLast? hv)), kraftSum_eq_sum]
  refine Finset.sum_congr (Finset.filter_congr fun u _ => and_iff_left_of_imp fun hu => ?_) fun _ _ => rfl
  exact or_iff_not_imp_left.2 (canonicalLT_getLast hv hu)

theorem codeStart_head {v : Byte} (hv : v ∈ (canonicalOrder len).head?) : codeStart len v = 0 := by
  rw [codeStart_eq_sum]
  refine Finset.sum_eq_zero fun u hu => ?_
  obtain ⟨-, hu, hlt⟩ := Finset.mem_filter.1 hu
  exact absurd hlt (not_canonicalLT_head hv hu)

/-- The values before `v` are no longer than `v`, so each of them takes up a multiple of what `v` does. -/
theorem dvd_codeStart (len : Byte → Nat) (v : Byte) : 2 ^ (16 - len v) ∣ codeStart len v := by
  rw [codeStart_eq_sum]
  refine Finset.dvd_sum fun u hu => ?_
  obtain ⟨-, -, hlt⟩ := Finset.mem_filter.1 hu
  exact pow_dvd_pow 2 (Nat.sub_le_sub_left (len_le_of_canonicalLT hlt) 16)

/-- `codeStart` of the closed form is the left-justified value of the code (R117): with lengths that are not over-subscribed nothing is
lost in 16 bits. -/
theorem canonicalCode_val_mul (hk : kraftSum len ≤ Config.kraftOne) {v : Byte} (hv : len v ≠ 0) :
    (canonicalCode len v).val.toNat * 2 ^ (16 - len v) = codeStart len v := by
  have hpos : 0 < 2 ^ (16 - len v) := by positivity
  have hlt : codeStart len v < 2 ^ 16 :=
    (Nat.lt_add_of_pos_right hpos).trans_le ((codeStart_add_le_kraftSum hv).trans (hk.trans_eq kraftOne_eq))
  have hval : (canonicalCode len v).val.toNat = codeStart len v / 2 ^ (16 - len v) := by
    rw [canonicalCode, if_neg hv, BitVec.toNat_ofNat, Nat.shiftRight_eq_div_pow,
      Nat.mod_eq_of_lt ((Nat.div_le_self _ _).trans_lt hlt)]
  rw [hval, Nat.div_mul_cancel (dvd_codeStart len v)]

/-! ### The parts of R166 -/

/-- The first `len u` bits of a codeword are the code of another value only if its left-justified value lies in what that value takes up,
but no two values' spaces overlap. -/
theorem canonicalCode_leadingBits_ne (hl : ∀ v, len v ≤ 16) (hk : kraftSum len ≤ Config.kraftOne) {u v : Byte} (hne : u ≠ v)
    (hu : len u ≠ 0) (hv : len v ≠ 0) (hle : len u ≤ len v) :
    (canonicalCode len v).val.toNat / 2 ^ (len v - len u) ≠ (canonicalCode len u).val.toNat := by
  intro h
  have hpos : 0 < 2 ^ (16 - len v) := by positivity
  have hexp : 16 - len u = (len v - len u) + (16 - len v) := by
    have := hl v
    omega
  have hdiv : codeStart len v / 2 ^ (16 - len u) = codeStart len u / 2 ^ (16 - len u) := by
    rw [← canonicalCode_val_mul hk hu, ← canonicalCode_val_mul hk hv, Nat.mul_div_cancel _ (by positivity), ← h, hexp, pow_add,
      Nat.mul_div_mul_right _ _ hpos]
  have hlow := Nat.div_mul_le_self (codeStart len v) (2 ^ (16 - len u))
  have hhigh := Nat.lt_div_mul_add (a := codeStart len v) (b := 2 ^ (16 - len u)) (by positivity)
  rw [hdiv, Nat.div_mul_cancel (dvd_codeStart len u)] at hlow hhigh
  rcases canonicalLT_trichotomy len hne with huv | hvu
  · exact absurd (codeStart_add_le hu huv) (Nat.not_le_of_lt hhigh)
  · exact absurd (codeStart_lt hv hvu) (Nat.not_lt_of_le hlow)

theorem canonicalCode_last_eq (hl : ∀ v, len v ≤ 16) (hk : kraftSum len = Config.kraftOne) {v : Byte}
    (hv : v ∈ (canonicalOrder len).getLast?) : (canonicalCode len v).val.toNat = 2 ^ len v - 1 := by
  have hlen : len v ≠ 0 := mem_canonicalOrder.1 (List.mem_of_getLast? hv)
  have hmul : ((canonicalCode len v).val.toNat + 1) * 2 ^ (16 - len v) = 2 ^ len v * 2 ^ (16 - len v) := by
    rw [pow_mul_pow_sub 2 (hl v), Nat.succ_mul, canonicalCode_val_mul hk.le hlen, codeStart_getLast hv, hk, kraftOne_eq]
  exact Nat.eq_sub_of_add_eq (Nat.eq_of_mul_eq_mul_right (by positivity) hmul)

theorem canonicalCode_len {v : Byte} (hl : len v ≤ 16) : (canonicalCode len v).len.toNat = len v := by
  unfold canonicalCode
  split
  · next h => simp [h]
  · exact (BitVec.toNat_ofNat _ _).trans (Nat.mod_eq_of_lt (by omega))

theorem barrier_canonicalCode {v : Byte} (hl : len v ≤ 8) :
    barrier (canonicalCode len v) = (canonicalCode len v).val.toNat * 2 ^ (8 - len v) := by
  rw [barrier, Nat.shiftLeft_eq, canonicalCode_len (hl.trans (by norm_num))]

/-- A barrier is the first 8 of the 16 bits of the left-justified value, and the bits after them are 0. -/
theorem barrier_mul (hk : kraftSum len ≤ Config.kraftOne) {v : Byte} (hl : len v ≤ 8) (hv : len v ≠ 0) :
    barrier (canonicalCode len v) * 2 ^ 8 = codeStart len v := by
  have hexp : 16 - len v = 8 - len v + 8 := by omega
  rw [← canonicalCode_val_mul hk hv, barrier_canonicalCode hl, hexp, pow_add, Nat.mul_assoc]

theorem barrier_lt (hl : ∀ v, len v ≤ 8) (hk : kraftSum len ≤ Config.kraftOne) {u v : Byte} (hu : len u ≠ 0) (hv : len v ≠ 0)
    (h : canonicalLT len u v) : barrier (canonicalCode len u) < barrier (canonicalCode len v) := by
  have hlt := codeStart_lt hu h
  rw [← barrier_mul hk (hl u) hu, ← barrier_mul hk (hl v) hv] at hlt
  exact Nat.lt_of_mul_lt_mul_right hlt

theorem barrier_head (hl : ∀ v, len v ≤ 8) (hk : kraftSum len ≤ Config.kraftOne) {v : Byte} (hv : v ∈ (canonicalOrder len).head?) :
    barrier (canonicalCode len v) = 0 := by
  have h := barrier_mul hk (hl v) (mem_canonicalOrder.1 (List.mem_of_head? hv))
  rw [codeStart_head hv] at h
  exact (Nat.mul_eq_zero.1 h).resolve_right (by norm_num)

theorem canonicalOrder_ne_nil (h : kraftSum len ≠ 0) : canonicalOrder len ≠ [] := by
  intro hnil
  have hp : present len = [] := (hnil ▸ (canonicalOrder_perm len).symm).eq_nil
  exact h (by simp [kraftSum, hp])

/-- A window has the last value whose barrier it has reached; there is one, because the first barrier is 0. -/
theorem existsUnique_window_value (hl : ∀ v, len v ≤ 8) (hk : kraftSum len = Config.kraftOne) (w : Nat) :
    ∃! v, len v ≠ 0 ∧ barrier (canonicalCode len v) ≤ w ∧
      ∀ u, len u ≠ 0 → canonicalLT len v u → w < barrier (canonicalCode len u) := by
  have hreached : (Finset.univ.filter fun v => len v ≠ 0 ∧ barrier (canonicalCode len v) ≤ w).Nonempty := by
    obtain ⟨c, cs, hcs⟩ := List.exists_cons_of_ne_nil (canonicalOrder_ne_nil (len := len) (by rw [hk]; norm_num))
    have hc : c ∈ (canonicalOrder len).head? := by simp [hcs]
    exact ⟨c, Finset.mem_filter.2 ⟨Finset.mem_univ c, mem_canonicalOrder.1 (List.mem_of_head? hc),
      (barrier_head hl hk.le hc).trans_le (Nat.zero_le w)⟩⟩
  obtain ⟨v, hv, hmax⟩ := Finset.exists_max_image _ (fun v => barrier (canonicalCode len v)) hreached
  obtain ⟨-, hv0, hvw⟩ := Finset.mem_filter.1 hv
  have hnext : ∀ u, len u ≠ 0 → canonicalLT len v u → w < barrier (canonicalCode len u) := by
    intro u hu hvu
    by_contra hwu
    have hle := hmax u (Finset.mem_filter.2 ⟨Finset.mem_univ u, hu, Nat.le_of_not_lt hwu⟩)
    exact absurd (barrier_lt hl hk.le hv0 hu hvu) (Nat.not_lt_of_le hle)
  refine ⟨v, ⟨hv0, hvw, hnext⟩, fun u ⟨hu0, huw, hunext⟩ => ?_⟩
  by_contra hne
  rcases canonicalLT_trichotomy len hne with huv | hvu
  · exact absurd hvw (Nat.not_le_of_lt (hunext v hv0 huv))
  · exact absurd huw (Nat.not_le_of_lt (hnext u hu0 hvu))

theorem canonicalCode_single {v : Byte} (hp : present len = [v]) (h1 : len v = 1) :
    canonicalCode len v = ⟨0, 1⟩ ∧ kraftSum len = 32768 := by
  have hstart : codeStart len v = 0 := by simp [codeStart, hp]
  exact ⟨by simp [canonicalCode, h1, hstart], by simp [kraftSum, hp, h1]⟩

end

/-- Settles O41: the code of each value, left-justified, lies at its `codeStart`, and the spaces of the codes follow one another without
overlapping. -/
theorem canonicalCodeIsPrefixFree : Obligations.CanonicalCodeIsPrefixFree := by
  unfold Obligations.CanonicalCodeIsPrefixFree
  intro len hl hk
  have hpresent : ∀ {v}, v ∈ canonicalOrder len → len v ≠ 0 := mem_canonicalOrder.1
  refine ⟨?_, fun u v => canonicalCode_leadingBits_ne hl hk, fun hk v hv => canonicalCode_last_eq hl hk hv, fun hk hl => ?_,
    fun v => canonicalCode_single⟩
  · refine (canonicalOrder_sorted len).imp_of_mem fun hu hv h => ?_
    rw [canonicalCode_val_mul hk (hpresent hu), canonicalCode_val_mul hk (hpresent hv)]
    exact codeStart_lt (hpresent hu) h
  · simp only [← barrier_canonicalCode (hl _)]
    exact ⟨(canonicalOrder_sorted len).imp_of_mem fun hu hv => barrier_lt hl hk.le (hpresent hu) (hpresent hv),
      fun v => barrier_head hl hk.le, fun w => existsUnique_window_value hl hk w.toNat⟩

end Sys2Proof.Machine
end

section
/-! PROOFS. `ENC.BODYP` ends as `ENC.BODY` does (R182). `ENC.BODY` performs the accesses of the input bytes one after the other (R174). The
pages hold these bytes in order and the offsets of pass 2 are those at which `ENC.BODY` arrives at them (R179, R180), so together the
pages perform the same accesses; all of them are ORs, so their order does not matter (R66). -/

namespace Sys2Proof.Machine

/-! ### The length of a body -/

@[simp] theorem length_bits (b : BV) : b.bits.length = b.len.toNat := by simp [BV.bits]

@[simp] theorem bodyStream_nil (code : Byte → BV) : bodyStream code [] = [] := rfl

@[simp] theorem bodyStream_cons (code : Byte → BV) (x : Byte) (xs : List Byte) :
    bodyStream code (x :: xs) = (code x).bits ++ bodyStream code xs := rfl

@[simp] theorem bodyStream_append (code : Byte → BV) (xs ys : List Byte) :
    bodyStream code (xs ++ ys) = bodyStream code xs ++ bodyStream code ys := List.flatMap_append

/-- Counting the occurrences of each value gives the length of the codewords (R179). -/
theorem sum_count_mul_len (code : Byte → BV) (xs : List Byte) :
    (allBytes.map (fun v => xs.count v * (code v).len.toNat)).sum = (bodyStream code xs).length := by
  have habsent : ∀ v, v ∉ xs.toFinset → xs.count v * (code v).len.toNat = 0 := fun v hv => by
    rw [List.count_eq_zero.2 (mt List.mem_toFinset.2 hv), Nat.zero_mul]
  calc (allBytes.map (fun v => xs.count v * (code v).len.toNat)).sum
    _ = ∑ v, xs.count v * (code v).len.toNat := by simpa using sum_map_filter_allBytes (fun _ => true) _
    _ = ∑ v ∈ xs.toFinset, xs.count v * (code v).len.toNat :=
      (Finset.sum_subset (Finset.subset_univ _) fun v _ => habsent v).symm
    _ = (xs.map (fun v => (code v).len.toNat)).sum := (Finset.sum_list_map_count xs _).symm
    _ = (bodyStream code xs).length := by simp [bodyStream, List.length_flatMap]

/-! ### The accesses of a body -/

theorem codeOps_append (code : Table BV) (off : Nat) (xs ys : List Byte) :
    codeOps code off (xs ++ ys) = codeOps code off xs ++ codeOps code (off + (bodyStream code.at xs).length) ys := by
  induction xs generalizing off with
  | nil => rfl
  | cons x xs ih => simp [codeOps, ih, Nat.add_assoc]

/-- The encoder changes SNK by `MemOr` alone (R66, R115). -/
theorem exists_or_of_mem_codeOps {code : Table BV} {off : Nat} {xs : List Byte} {o : MemOp} (h : o ∈ codeOps code off xs) :
    ∃ a v, o = .or a v := by
  induction xs generalizing off with
  | nil => cases h
  | cons x xs ih =>
    rcases List.mem_append.1 h with h | h
    · obtain ⟨j, -, rfl⟩ := mem_packOps h
      exact ⟨_, _, rfl⟩
    · exact ih h

theorem codeOps_commute (code : Table BV) (off : Nat) (xs : List Byte) : (codeOps code off xs).Pairwise MemOp.Commutes := by
  refine List.pairwise_of_forall_mem_list fun o ho p hp => ?_
  obtain ⟨a, v, rfl⟩ := exists_or_of_mem_codeOps ho
  obtain ⟨b, w, rfl⟩ := exists_or_of_mem_codeOps hp
  exact .inr ⟨a, v, b, w, rfl, rfl⟩

/-! ### The body, sequential -/

/-- What `ENC.PUT v` does when it does not fault (R173). -/
theorem putSymbol_ok {s t : State} {v : Byte} (h : putSymbol s v = .ok t) :
    (s.bitpos.toNat + (s.code.at v).len.toNat + 7) / 8 ≤ s.snkSize.toNat ∧
      t = s.setSnkPos (applyOps s.snk (packOps (s.code.at v) s.bitpos.toNat)) (s.bitpos.toNat + (s.code.at v).len.toNat) := by
  obtain ⟨-, he⟩ | ⟨-, -, he⟩ | ⟨-, hfit, hok⟩ := putSymbol_cases s v
  · cases he.symm.trans h
  · cases he.symm.trans h
  · exact ⟨hfit, Except.ok.inj (h.symm.trans hok)⟩

/-- Putting some bytes, when no fault is raised, performs their accesses from `BITPOS` on, all of them below `SNK_SIZE`, and leaves
`BITPOS` at the end of their codewords. -/
theorem foldlM_putSymbol_ok {xs : List Byte} {s t : State} (h : xs.foldlM putSymbol s = .ok t) :
    (∀ o ∈ codeOps s.code s.bitpos.toNat xs, o.addr < s.snkSize.toNat) ∧
      t = s.setSnkPos (applyOps s.snk (codeOps s.code s.bitpos.toNat xs))
        (s.bitpos.toNat + (bodyStream s.code.at xs).length) := by
  induction xs generalizing s with
  | nil =>
    cases h
    exact ⟨fun o ho => (List.not_mem_nil ho).elim, by simp [codeOps, State.setSnkPos]⟩
  | cons x xs ih =>
    obtain ⟨u, hu, h⟩ := bind_eq_ok.1 (List.foldlM_cons.symm.trans h)
    obtain ⟨hfit, rfl⟩ := putSymbol_ok hu
    have hpos : (BitVec.ofNat 64 (s.bitpos.toNat + (s.code.at x).len.toNat)).toNat =
        s.bitpos.toNat + (s.code.at x).len.toNat := by
      have hsize := s.snkSize.isLt
      exact (BitVec.toNat_ofNat _ _).trans (Nat.mod_eq_of_lt (by omega))
    obtain ⟨haddr, rfl⟩ := ih h
    simp only [setSnkPos_code, setSnkPos_bitpos, setSnkPos_snkSize, setSnkPos_snk, hpos] at haddr ⊢
    constructor
    · intro o ho
      rcases List.mem_append.1 ho with ho | ho
      · exact (packOps_addr_lt ho).2.trans_le hfit
      · exact haddr o ho
    · simp [codeOps, State.setSnkPos, Nat.add_assoc]

/-- What `ENC.BODY` does when it does not fault (R174). -/
theorem putBody_ok {s t : State} (h : putBody s = .ok t) :
    (∀ o ∈ codeOps s.code Config.hdrBits s.srcBytes, o.addr < s.snkSize.toNat) ∧
      t = s.setSnkPos (applyOps s.snk (codeOps s.code Config.hdrBits s.srcBytes))
        (Config.hdrBits + (bodyStream s.code.at s.srcBytes).length) :=
  foldlM_putSymbol_ok h

/-! ### The body, paged -/

theorem pageBits_eq_length (s : State) (k : Nat) : s.pageBits k = (bodyStream s.code.at (s.encPage k)).length :=
  sum_count_mul_len s.code.at (s.encPage k)

/-- A page begins where the codewords of the pages before it end (R180). -/
theorem pageOffset_eq (s : State) (k : Nat) :
    s.pageOffset k = Config.hdrBits + (bodyStream s.code.at ((List.range k).flatMap s.encPage)).length := by
  induction k with
  | zero => rfl
  | succ k ih => simp [State.pageOffset, ih, pageBits_eq_length, List.range_succ, Nat.add_assoc]

/-- The first `n` pages, one after the other, perform the accesses of their bytes from the end of the header on. -/
theorem flatMap_encPageOps (s : State) (n : Nat) :
    (List.range n).flatMap s.encPageOps = codeOps s.code Config.hdrBits ((List.range n).flatMap s.encPage) := by
  induction n with
  | zero => rfl
  | succ n ih => simp [List.range_succ, ih, codeOps_append, State.encPageOps, pageOffset_eq]

/-- The pages hold the input bytes, in order (R133, R178). -/
theorem flatMap_encPage {s : State} (h : s.params.legal) : (List.range s.encPages).flatMap s.encPage = s.srcBytes :=
  flatMap_srcAt_pageAddrs s h.1

/-- Whatever the schedule, the pages perform the accesses of `ENC.BODY`, each exactly once (R181, R265). -/
theorem passOps_encPageOps_perm {s : State} (h : s.params.legal) :
    (passOps s.sched.body s.params.lanes s.encPages s.encPageOps).Perm (codeOps s.code Config.hdrBits s.srcBytes) := by
  rw [← flatMap_encPage h, ← flatMap_encPageOps]
  exact passOps_perm _ h.2 _ _

/-- Where `ENC.BODY` does not fault, the three passes end in its state. -/
theorem putBodyPaged_of_putBody_ok {s t : State} (hs : s.Legal) (h : putBody s = .ok t) : s.putBodyPaged = t := by
  obtain ⟨haddr, rfl⟩ := putBody_ok h
  have hsnk := applyOps_perm (passOps_encPageOps_perm hs.params).symm hs.snk
    (fun o ho => (haddr o ho).trans s.snkSize.isLt) (codeOps_commute ..)
  rw [State.putBodyPaged, ← hsnk, pageOffset_eq, flatMap_encPage hs.params]

theorem runEncBody_ok {s t : State} (h : runEncBody s = .ok t) : putBody s = .ok t := by
  obtain ⟨-, -, hbody⟩ := bind_eq_ok.1 h
  exact raiseIn_eq_ok.1 hbody

/-- The paged body is the sequential one, whatever the parameters and the schedule. -/
theorem runEncBodyp_eq_runEncBody {s : State} (hs : s.Legal) : runEncBodyp s = runEncBody s := by
  unfold runEncBodyp
  split
  · rfl
  · cases h : runEncBody s with
    | error r => rfl
    | ok t => exact congrArg Except.ok (putBodyPaged_of_putBody_ok hs (runEncBody_ok h))

/-- Settles O46: the pages perform the accesses of `ENC.BODY`, in an order that does not matter, and the fault is found by the
pseudocode of `ENC.BODY` itself (R183). -/
theorem encBodypEqualsEncBody : Obligations.EncBodypEqualsEncBody := by
  unfold Obligations.EncBodypEqualsEncBody
  intro s t hs _ ht
  have hp : exec .encBodyp s = .next t := (congrArg finish (runEncBodyp_eq_runEncBody hs)).trans ht
  exact ⟨fun _ => hp, t, hp, rfl⟩

end Sys2Proof.Machine
end

section
/-! PROOFS. `DEC.BODYP` ends as `DEC.BODY` does (R218). The discovery pass makes the lookups of `DEC.BODY`, at the same offsets and in the
same order, so it finds the same fault or ends at the same offset (R215). The writes of the pages are the writes of `DEC.BODY`, each to an
address of its own, so their order does not matter (R217). -/

namespace Sys2Proof.Machine

/-! ### The body, sequential -/

/-- What a lookup that does not fault answers: the entry at the window, of a codeword that ends inside SRC (R208). -/
theorem lookup_ok {s : State} {off : Nat} {e : DEntry} (h : s.lookup off = .ok e) :
    e = s.dtbl.at (s.window off) ∧ off + e.len.toNat ≤ 8 * s.srcSize.toNat := by
  obtain ⟨-, he⟩ | ⟨-, -, he⟩ | ⟨-, -, -, he⟩ | ⟨-, hin, hok⟩ := lookup_cases s off
  · cases he.symm.trans h
  · cases he.symm.trans h
  · cases he.symm.trans h
  · obtain rfl := Except.ok.inj (hok.symm.trans h)
    exact ⟨rfl, hin⟩

/-- A step of the discovery pass (R215). -/
theorem discover_succ_eq_ok {s : State} {n i off : Nat} {p : List Nat × Nat} :
    s.discover (n + 1) i off = .ok p ↔ ∃ e q, s.lookup off = .ok e ∧ s.discover n (i + 1) (off + e.len.toNat) = .ok q ∧
      p = (if i % s.params.pageBytes = 0 then off :: q.1 else q.1, q.2) := by
  simp only [State.discover, bind_eq_ok, Except.ok.injEq, eq_comm (a := p)]
  grind

/-- The discovery pass ends where it began, or inside SRC. -/
theorem discover_end_le {s : State} {b : Nat} (hb : 8 * s.srcSize.toNat ≤ b) {n i off : Nat} {p : List Nat × Nat} (hoff : off ≤ b)
    (h : s.discover n i off = .ok p) : p.2 ≤ b := by
  induction n generalizing i off p with
  | zero =>
    cases h
    exact hoff
  | succ n ih =>
    obtain ⟨e, q, he, hq, rfl⟩ := discover_succ_eq_ok.1 h
    exact ih (p := q) ((lookup_ok he).2.trans hb) hq

/-- The loop of `DEC.BODY` faults where the discovery pass does, and otherwise has made the writes of the symbols (R210, R217). -/
theorem getSymbols_emit (s : State) {n i off : Nat} (m : Mem) (hi : i + n = s.snkSize.toNat) (hoff : off < 2 ^ 64) :
    getSymbols n (s.emit m i off) =
      (s.discover n i off).map fun p => s.emit (applyOps m (s.decodeOps off (List.range' i n))) (i + n) p.2 := by
  induction n generalizing i off m with
  | zero => rfl
  | succ n ih =>
    have hsize := s.snkSize.isLt
    have hout : (BitVec.ofNat 32 i).toNat = i := (BitVec.toNat_ofNat _ _).trans (Nat.mod_eq_of_lt (by omega))
    have hpos : (BitVec.ofNat 64 off).toNat = off := (BitVec.toNat_ofNat _ _).trans (Nat.mod_eq_of_lt hoff)
    have hlt : i < s.snkSize.toNat := by omega
    have hlookup : (s.emit m i off).lookup off = s.lookup off := rfl
    simp only [getSymbols, getSymbol, emit_outpos, emit_snkSize, emit_bitpos, emit_snk, hout, hpos, hlookup, hlt, if_true,
      Nat.not_le_of_lt hlt, if_false, State.discover]
    cases he : s.lookup off with
    | error f => rfl
    | ok e =>
      obtain ⟨rfl, hin⟩ := lookup_ok he
      have hsrc := s.srcSize.isLt
      refine (ih (i := i + 1) (m.write i (s.dtbl.at (s.window off)).val) (by omega) (by omega)).trans ?_
      simp only [ok_bind]
      cases s.discover n (i + 1) (off + (s.dtbl.at (s.window off)).len.toNat) with
      | error f => rfl
      | ok q =>
        rw [Nat.add_right_comm]
        rfl

/-- `DEC.BODY` as its discovery and the writes of all its symbols in order. -/
theorem getBody_eq_discover (s : State) : getBody s = (do
    let p ← s.discover s.snkSize.toNat 0 Config.hdrBits
    bodySizeCheck s.srcSize p.2
    .ok (s.emit (applyOps s.snk (s.decodeOps Config.hdrBits (List.range s.snkSize.toNat))) s.snkSize.toNat p.2)) := by
  rw [getBody, State.rewindDec, getSymbols_emit s s.snk (Nat.zero_add _) (by norm_num)]
  cases h : s.discover s.snkSize.toNat 0 Config.hdrBits with
  | error f => rfl
  | ok p =>
    have hsrc := s.srcSize.isLt
    have hend : p.2 ≤ 2 ^ 63 := discover_end_le (by omega) (by norm_num) h
    have hpos : (BitVec.ofNat 64 p.2).toNat = p.2 := (BitVec.toNat_ofNat _ _).trans (Nat.mod_eq_of_lt (by omega))
    simp only [Except.map, ok_bind, emit_srcSize, emit_bitpos, hpos, Nat.zero_add, List.range_eq_range']

/-! ### The body, paged -/

/-- The discovery pass follows the walk from symbol to symbol, and notes where the pages begin (R215). -/
theorem discover_walk {s : State} {n i : Nat} {p : List Nat × Nat} (h : s.discover n i (s.walk i) = .ok p) :
    p = (((List.range' i n).filter (· % s.params.pageBytes = 0)).map s.walk, s.walk (i + n)) := by
  induction n generalizing i p with
  | zero =>
    cases h
    rfl
  | succ n ih =>
    obtain ⟨e, q, he, hq, rfl⟩ := discover_succ_eq_ok.1 h
    obtain ⟨rfl, -⟩ := lookup_ok he
    obtain rfl := ih (i := i + 1) hq
    rw [List.range'_succ, List.filter_cons, Nat.add_right_comm i 1 n]
    by_cases hi : i % s.params.pageBytes = 0 <;> simp [hi, Nat.add_assoc]

theorem lt_pageCount_iff {size p k : Nat} (hp : 1 ≤ p) : k < pageCount size p ↔ k * p < size := by
  rw [pageCount, ← Nat.succ_le_iff, Nat.le_div_iff_mul_le hp, Nat.succ_mul]
  omega

/-- The first indices of the pages are the multiples of the page size (R133). -/
theorem filter_pageStarts (size : Nat) {p : Nat} (hp : 1 ≤ p) :
    (List.range size).filter (· % p = 0) = (List.range (pageCount size p)).map (· * p) := by
  refine List.Pairwise.eq_of_mem_iff (r := (· < ·)) (List.pairwise_lt_range.filter _)
    (List.pairwise_map.2 (List.pairwise_lt_range.imp fun h => Nat.mul_lt_mul_of_pos_right h hp)) fun i => ?_
  simp only [List.mem_filter, List.mem_range, decide_eq_true_eq, List.mem_map]
  constructor
  · rintro ⟨hi, h0⟩
    have hmul := Nat.div_mul_cancel (Nat.dvd_of_mod_eq_zero h0)
    exact ⟨i / p, (lt_pageCount_iff hp).2 (hmul.trans_lt hi), hmul⟩
  · rintro ⟨k, hk, rfl⟩
    exact ⟨(lt_pageCount_iff hp).1 hk, Nat.mul_mod_left k p⟩

/-- The write of decoded symbol `j` (R210, R217). -/
def State.symbolWrite (s : State) (j : Nat) : MemOp := .write j (s.walkEntry j).val

/-- The writes of consecutive symbols, from where the walk arrives at the first. -/
theorem decodeOps_walk (s : State) (i n : Nat) :
    s.decodeOps (s.walk i) (List.range' i n) = (List.range' i n).map s.symbolWrite := by
  induction n generalizing i with
  | zero => rfl
  | succ n ih => exact congrArg _ (ih (i + 1))

theorem decodeOps_hdrBits (s : State) (n : Nat) : s.decodeOps Config.hdrBits (List.range n) = (List.range n).map s.symbolWrite := by
  rw [List.range_eq_range']
  exact decodeOps_walk s 0 n

/-- The pages, one after the other, make the writes of `DEC.BODY`. -/
theorem flatMap_pages_decodeOps {s : State} (hp : 1 ≤ s.params.pageBytes) {p : List Nat × Nat} {n : Nat}
    (h : s.discover n 0 Config.hdrBits = .ok p) :
    (List.range (pageCount n s.params.pageBytes)).flatMap
        (fun k => s.decodeOps (p.1.getD k 0) (pageAddrs n s.params.pageBytes k)) =
      s.decodeOps Config.hdrBits (List.range n) := by
  obtain rfl := discover_walk (i := 0) h
  have hpage : ∀ k ∈ List.range (pageCount n s.params.pageBytes),
      s.decodeOps ((((List.range' 0 n).filter (· % s.params.pageBytes = 0)).map s.walk).getD k 0)
        (pageAddrs n s.params.pageBytes k) = (pageAddrs n s.params.pageBytes k).map s.symbolWrite := fun k hk => by
    rw [← List.range_eq_range', filter_pageStarts n hp, pageAddrs, ← decodeOps_walk]
    simp [List.mem_range.1 hk]
  rw [List.flatMap_congr hpage, ← List.map_flatMap, pages_partition n _ hp, decodeOps_hdrBits]

/-- Symbols are written each to an address of its own. -/
theorem decodeOps_addr_ne (s : State) (n : Nat) :
    (s.decodeOps Config.hdrBits (List.range n)).Pairwise fun o p => o.addr ≠ p.addr := by
  rw [decodeOps_hdrBits]
  exact List.pairwise_map.2 (List.pairwise_lt_range.imp fun h => h.ne)

theorem decodeOps_addr_lt {s : State} {n : Nat} : ∀ o ∈ s.decodeOps Config.hdrBits (List.range n), o.addr < n := by
  rw [decodeOps_hdrBits]
  exact List.forall_mem_map.2 fun j hj => List.mem_range.1 hj

/-- The paged body is the sequential one, whatever the parameters and the schedule. -/
theorem getBodyPaged_eq_getBody {s : State} (hp : s.params.legal) (hsnk : s.snk.wf) : s.getBodyPaged = getBody s := by
  rw [State.getBodyPaged, getBody_eq_discover]
  cases h : s.discover s.snkSize.toNat 0 Config.hdrBits with
  | error f => rfl
  | ok p =>
    have hperm := (passOps_perm s.sched.body hp.2 _ _).trans (.of_eq (flatMap_pages_decodeOps hp.1 h))
    have hops := applyOps_perm hperm.symm hsnk (fun o ho => (decodeOps_addr_lt o ho).trans s.snkSize.isLt)
      ((decodeOps_addr_ne s _).imp .inl)
    simp only [ok_bind, hops]

/-! ### The two commands -/

/-- From the threshold on `DEC.BODYP` does what `DEC.BODY` does, but that it writes nothing before it faults. -/
theorem runDecBodyp_of_le {s : State} (hp : s.params.legal) (hsnk : s.snk.wf) (h : s.params.decParMin ≤ s.snkSize.toNat) :
    runDecBodyp s = require reqDec s >>= fun _ => raiseIn s (getBody s) := by
  rw [runDecBodyp, if_neg (Nat.not_lt_of_le h), getBodyPaged_eq_getBody hp hsnk]

/-- Where `DEC.BODY` does not fault, `DEC.BODYP` ends in the same state. -/
theorem runDecBodyp_of_runDecBody_ok {s t : State} (hp : s.params.legal) (hsnk : s.snk.wf) (h : runDecBody s = .ok t) :
    runDecBodyp s = .ok t := by
  by_cases hmin : s.params.decParMin ≤ s.snkSize.toNat
  · rw [runDecBodyp_of_le hp hsnk hmin]
    obtain ⟨u, hreq, hbody⟩ := bind_eq_ok.1 h
    exact bind_eq_ok.2 ⟨u, hreq, raiseIn_eq_ok.2 (raiseIn_eq_ok.1 hbody)⟩
  · rw [runDecBodyp, if_pos (Nat.lt_of_not_le hmin), h]

theorem require_error {r : Req} {s : State} {e : Raised} (h : require r s = .error e) : e.state = s := by
  rcases require_cases r s with ⟨-, hok⟩ | ⟨-, herr⟩
  · cases hok.symm.trans h
  · obtain rfl := Except.error.inj (herr.symm.trans h)
    rfl

/-- Where `DEC.BODY` faults, `DEC.BODYP` takes the same fault with the same registers, and from the threshold on in the state it was
accepted in. -/
theorem runDecBodyp_of_runDecBody_error {s : State} (hp : s.params.legal) (hsnk : s.snk.wf) {e : Raised}
    (h : runDecBody s = .error e) :
    ∃ u, runDecBodyp s = .error ⟨e.fault, u⟩ ∧ u = { e.state with snk := u.snk, free := u.free } ∧
      (s.params.decParMin ≤ s.snkSize.toNat → u = s) := by
  by_cases hmin : s.params.decParMin ≤ s.snkSize.toNat
  · rw [runDecBodyp_of_le hp hsnk hmin]
    rcases bind_eq_error.1 h with hreq | ⟨_, hreq, hbody⟩
    · obtain ⟨f, r⟩ := e
      obtain rfl : r = s := require_error hreq
      exact ⟨r, by rw [hreq, error_bind], rfl, fun _ => rfl⟩
    · obtain ⟨f, r⟩ := e
      obtain ⟨hf, rfl⟩ := raiseIn_eq_error.1 hbody
      exact ⟨s, by rw [hreq, ok_bind, hf, raiseIn_error], rfl, fun _ => rfl⟩
  · rw [runDecBodyp, if_pos (Nat.lt_of_not_le hmin), h]
    exact ⟨e.state, rfl, rfl, fun h => absurd h hmin⟩

theorem keepsFault_decBody : KeepsFault runDecBody := by
  refine KeepsFault.require (r := reqDec) fun s t h => ?_
  rw [raiseIn_eq_ok, getBody_eq_discover] at h
  obtain ⟨p, -, h⟩ := bind_eq_ok.1 h
  obtain ⟨_, -, ⟨⟩⟩ := bind_eq_ok.1 h
  rfl

/-- Settles O55: the discovery pass finds the fault of `DEC.BODY` before anything is written, and where there is none the pages make its
writes, in an order that does not matter. -/
theorem decBodypEqualsDecBody : Obligations.DecBodypEqualsDecBody := by
  unfold Obligations.DecBodypEqualsDecBody
  intro s t hs hfault ht
  have hbody : finish (runDecBody s) = .next t := ht
  have hexec : exec .decBodyp s = finish (runDecBodyp s) := rfl
  cases h : runDecBody s with
  | ok u =>
    obtain rfl : u.retire = t := by simpa [h] using hbody
    have hu : u.retire.status.fault = false := (keepsFault_decBody s u h).trans hfault
    rw [hexec, runDecBodyp_of_runDecBody_ok hs.params hs.snk h]
    exact ⟨fun _ => rfl, u.retire, rfl, rfl, fun hf => by rw [hu] at hf; cases hf⟩
  | error e =>
    obtain rfl : takeFault e.fault e.state = t := by simpa [h] using hbody
    obtain ⟨u, hu, heq, hmin⟩ := runDecBodyp_of_runDecBody_error hs.params hs.snk h
    rw [hexec, hu]
    refine ⟨fun hf => (by cases hf), takeFault e.fault u, rfl, ?_, fun _ hle => ?_⟩
    · exact congrArg (takeFault e.fault) heq
    · rw [hmin hle]
      exact ⟨rfl, rfl⟩

end Sys2Proof.Machine
end

section
/-! PROOFS. The lengths of `PM.RUN`. A round adds at most one occurrence of each symbol to the working list (R145), and halves what the list
falls short of twice the number of symbols, so `k` levels are enough for 2^k symbols and no length is above `k` (R148). With at most 256
symbols the lengths are therefore lengths a header may carry (R201). -/

namespace Sys2Proof.Machine

/-! ### No length is above the number of levels -/

theorem occurrences_take_le (l : List Item) (m i : Nat) : occurrences (l.take m) i ≤ occurrences l i := by
  conv_rhs => rw [← List.take_append_drop m l, occurrences_append]
  exact Nat.le_add_right _ _

theorem occurrences_sortByWeight (l : List Item) (i : Nat) : occurrences (sortByWeight l) i = occurrences l i :=
  occurrences_perm (List.perm_insertionSort _ l) i

/-- Packaging adds no occurrence, and drops those of an unpaired item. -/
theorem occurrences_pairUp_le {ws : List Nat} {l : List Item} (hl : ∀ x ∈ l, x.Outweighs ws) (i : Nat) :
    occurrences (pairUp l) i ≤ occurrences l i := by
  have hlen : (pairUp l).take (l.length / 2) = pairUp l := List.take_of_length_le (length_pairUp l).le
  rw [← hlen, occurrences_take_pairUp i hl (by omega)]
  exact occurrences_take_le l _ i

theorem occurrences_singletons {ws : List Nat} {i : Nat} (hi : i < ws.length) : occurrences (singletons ws) i = 1 := by
  rw [singletons, occurrences_map_singleton List.nodup_range hi, if_pos (List.mem_range.2 hi)]

theorem occurrences_mergeRound_le {ws : List Nat} {l : List Item} (hl : ∀ x ∈ l, x.Outweighs ws) {i : Nat} (hi : i < ws.length) :
    occurrences (mergeRound ws l) i ≤ occurrences l i + 1 := by
  have hpairs := occurrences_pairUp_le (fun x hx => hl x (mem_sortByWeight.1 hx)) i
  rw [occurrences_sortByWeight] at hpairs
  rw [mergeRound, occurrences_append, occurrences_singletons hi]
  exact Nat.add_le_add_right hpairs 1

/-- A list that falls short of `2n` by at most `2^(j+1)` items needs at most `j` rounds more. -/
theorem occurrences_mergeRounds_le {ws : List Nat} (hpos : ∀ w ∈ ws, 0 < w) {i : Nat} (hi : i < ws.length) (fuel : Nat) {j : Nat}
    {l : List Item} (hl : ∀ x ∈ l, x.Outweighs ws) (hlen : 2 * ws.length ≤ l.length + 2 ^ (j + 1)) :
    occurrences (mergeRounds ws (2 * ws.length - 2) fuel l) i ≤ occurrences l i + j := by
  induction fuel generalizing l j with
  | zero => exact Nat.le_add_right _ _
  | succ fuel ih =>
    rw [mergeRounds]
    split
    · cases j with
      | zero => omega
      | succ j =>
        have hround := length_mergeRound ws l
        have hnext := ih (mergeRound_outweighs hpos hl) (j := j) (by omega)
        have hadd := occurrences_mergeRound_le hl hi
        omega
    · exact Nat.le_add_right _ _

/-- With two positive weights or more and at most `2^k`, every length is at most `k` (R148). -/
theorem lengths_le_of_length_le_two_pow {ws : List Nat} (h : 2 ≤ ws.length) (hpos : ∀ w ∈ ws, 0 < w) {k : Nat}
    (hk : ws.length ≤ 2 ^ k) : ∀ l ∈ lengths ws, l ≤ k := by
  rw [lengths_eq_map_occurrences h]
  refine List.forall_mem_map.2 fun i hi => ?_
  have hi := List.mem_range.1 hi
  cases k with
  | zero => omega
  | succ j =>
    have hlen := length_singletons ws
    have hall := occurrences_mergeRounds_le hpos hi ws.length (j := j) (singletons_balanced hpos).outweighs (by omega)
    rw [occurrences_singletons hi] at hall
    calc _ ≤ occurrences (sortByWeight (mergedItems ws)) i := occurrences_take_le _ _ i
      _ = occurrences (mergedItems ws) i := occurrences_sortByWeight _ i
      _ ≤ j + 1 := hall.trans_eq (Nat.add_comm 1 j)

theorem length_lengths (ws : List Nat) : (lengths ws).length = ws.length := by
  unfold lengths
  split
  · next h => exact h.symm
  · split
    · next h => exact h.symm
    · simp

/-- The lengths of at most 256 positive weights fit the decode window. -/
theorem lengths_le_eight {ws : List Nat} (hpos : ∀ w ∈ ws, 0 < w) (h : ws.length ≤ 256) : ∀ l ∈ lengths ws, l ≤ 8 := by
  by_cases h2 : 2 ≤ ws.length
  · exact lengths_le_of_length_le_two_pow h2 hpos h
  · intro l hl
    unfold lengths at hl
    split at hl
    · cases hl
    · rw [if_pos (by omega), List.mem_singleton] at hl
      omega

/-! ### What `PM.RUN` leaves in `LEN` -/

theorem mem_symbols {s : State} {v : Byte} : v ∈ s.symbols ↔ s.freq.at v ≠ 0 := by
  simp [State.symbols, mem_allBytes]

theorem symbols_nodup (s : State) : s.symbols.Nodup := allBytes_nodup.filter _

theorem length_symbols_le (s : State) : s.symbols.length ≤ 256 := (List.length_filter_le _ _).trans_eq allBytes_length

theorem length_weights (s : State) : s.weights.length = s.symbols.length := List.length_map _

theorem weights_pos (s : State) : ∀ w ∈ s.weights, 0 < w :=
  List.forall_mem_map.2 fun _ hv => Nat.pos_of_ne_zero fun h0 => mem_symbols.1 hv (BitVec.eq_of_toNat_eq h0)

/-- What `PM.RUN` does: the lengths of package-merge for the symbols, 0 for every other value (R140, R147). -/
theorem runPmRun_ok {s t : State} (h : runPmRun s = .ok t) :
    (∃ lens n, t = s.setLens lens n) ∧ (∀ v, s.freq.at v = 0 → t.lenOf v = 0) ∧ s.symbols.map t.lenOf = lengths s.weights := by
  have hlen : s.symbols.length = (lengths s.weights).length := by rw [length_lengths, length_weights]
  have hfst : (s.symbols.zip (lengths s.weights)).map Prod.fst = s.symbols := List.map_fst_zip hlen.le
  have hsnd : (s.symbols.zip (lengths s.weights)).map Prod.snd = lengths s.weights := List.map_snd_zip hlen.ge
  simp only [runPmRun] at h
  split at h
  · cases h
  next hfind =>
  cases h
  generalize s.symbols.zip (lengths s.weights) = ps at *
  have hkeys : (ps.map fun p => (p.1, BitVec.ofNat 5 p.2)).map Prod.fst = s.symbols := by
    rw [← hfst, List.map_map]
    rfl
  refine ⟨⟨_, _, rfl⟩, fun v hv => ?_, ?_⟩
  · have hnot : v ∉ s.symbols := fun hmem => mem_symbols.1 hmem hv
    simp [State.lenOf, Table.at_putAll_of_notMem (hkeys ▸ hnot)]
  · rw [← hfst, ← hsnd, List.map_map]
    refine List.map_congr_left fun p hp => ?_
    have hle : p.2 ≤ 16 := by simpa using List.find?_eq_none.1 hfind p hp
    have hat : Table.at _ p.1 = BitVec.ofNat 5 p.2 :=
      Table.at_putAll_of_mem (t := Table.const 0) (hkeys ▸ symbols_nodup s) (List.mem_map.2 ⟨p, hp, rfl⟩)
    simp only [Function.comp_apply, State.lenOf, setLens_lens, hat]
    exact (BitVec.toNat_ofNat _ _).trans (Nat.mod_eq_of_lt (by omega))

/-! ### The lengths are ones a header may carry -/

theorem kraftSum_cast {len : Byte → Nat} (hl : ∀ v, len v ≤ 16) :
    (kraftSum len : ℚ) = 2 ^ 16 * (((present len).map len).map fun l => (1 : ℚ) / 2 ^ l).sum := by
  rw [kraftSum, Nat.cast_list_sum, List.map_map, List.map_map, ← List.sum_map_mul_left]
  congr 1
  refine List.map_congr_left fun v _ => ?_
  simp only [Function.comp_apply, Nat.shiftLeft_eq, Nat.one_mul, Nat.cast_pow, Nat.cast_ofNat, mul_one_div]
  exact pow_sub₀ 2 two_ne_zero (hl v)

/-- The lengths of `PM.RUN` fit the decode window (R148, R203). -/
theorem lenOf_le_eight_of_runPmRun_ok {s t : State} (h : runPmRun s = .ok t) (v : Byte) : t.lenOf v ≤ 8 := by
  obtain ⟨-, habsent, hmap⟩ := runPmRun_ok h
  by_cases hv : s.freq.at v = 0
  · exact (habsent v hv).trans_le (Nat.zero_le _)
  · refine lengths_le_eight (weights_pos s) ((length_weights s).trans_le (length_symbols_le s)) _ ?_
    rw [← hmap]
    exact List.mem_map_of_mem (mem_symbols.2 hv)

/-- The lengths of `PM.RUN` pass the checks of a header (R201), when every symbol has a length. -/
theorem headerLengthsValid_of_runPmRun_ok {s t : State} (h : runPmRun s = .ok t) (hcoded : ∀ v, s.freq.at v ≠ 0 → t.lenOf v ≠ 0)
    {n : Nat} (hn : s.symbols = [] → n = 0) : HeaderLengthsValid t.lenOf n := by
  obtain ⟨-, habsent, hmap⟩ := runPmRun_ok h
  have hpresent : present t.lenOf = s.symbols :=
    List.filter_congr fun v _ => decide_eq_decide.2 ⟨mt (habsent v), hcoded v⟩
  have hle := lenOf_le_eight_of_runPmRun_ok h
  refine ⟨hle, ?_⟩
  rw [hpresent]
  match hsym : s.symbols with
  | [] => exact .inl ⟨rfl, hn hsym⟩
  | [v] =>
    rw [hsym, lengths, length_weights, hsym] at hmap
    exact .inr (.inl ⟨v, rfl, by simpa using hmap⟩)
  | _ :: _ :: _ =>
    have hlen : 2 ≤ s.weights.length := by simp [length_weights, hsym]
    refine .inr (.inr ⟨by simp, ?_⟩)
    have hkraft := kraftSum_cast fun v => (hle v).trans (by norm_num)
    rw [hpresent, hmap, packageMergeSatisfiesKraftEquality.1 _ hlen (weights_pos s), mul_one] at hkraft
    exact_mod_cast hkraft

end Sys2Proof.Machine
end

section
/-! PROOFS. What `CB.BUILD` and `DEC.TBL` make: the canonical code in closed form, slot by slot (R161, R162), and the decode table that
resolves every window that begins with one of its codewords (R202, R205). -/

namespace Sys2Proof.Machine

/-! ### `CB.BUILD` -/

/-- In a sorted list the elements that come before one of them are those that stand before it. -/
theorem filter_before_eq_take {α : Type} {r : α → α → Prop} [DecidableRel r] (hirr : ∀ a, ¬ r a a)
    (htrans : ∀ a b c, r a b → r b c → r a c) {l : List α} (hl : l.Pairwise r) {i : Nat} (hi : i < l.length) :
    l.filter (r · l[i]) = l.take i := by
  have hsplit : l.take i ++ l[i] :: l.drop (i + 1) = l := by rw [← List.drop_eq_getElem_cons, List.take_append_drop]
  generalize l[i] = a at *
  generalize l.take i = before, l.drop (i + 1) = after at *
  subst hsplit
  obtain ⟨-, hafter, hbefore⟩ := List.pairwise_append.1 hl
  obtain ⟨hafter, -⟩ := List.pairwise_cons.1 hafter
  have h1 : before.filter (r · a) = before := List.filter_eq_self.2 fun b hb => by simpa using hbefore b hb a List.mem_cons_self
  have h2 : (a :: after).filter (r · a) = [] := List.filter_eq_nil_iff.2 fun b hb => by
    rcases List.mem_cons.1 hb with rfl | hb
    · simpa using hirr b
    · simpa using fun hba => hirr b (htrans b a b hba (hafter b hb))
  rw [List.filter_append, h1, h2, List.append_nil]

/-- The code space before a value of the canonical order is its `codeStart` (R161). -/
theorem codeSpace_take_canonicalOrder (s : State) {i : Nat} (hi : i < (canonicalOrder s.lenOf).length) :
    codeSpace (((canonicalOrder s.lenOf).map s.lens.at).take i) = codeStart s.lenOf (canonicalOrder s.lenOf)[i] := by
  have hbefore := filter_before_eq_take (canonicalLT_irrefl s.lenOf) (fun _ _ _ => canonicalLT_trans) (canonicalOrder_sorted s.lenOf) hi
  rw [codeSpace, ← List.map_take, ← hbefore, codeStart, List.map_map]
  exact (((canonicalOrder_perm s.lenOf).filter _).map _).sum_eq

theorem BV.eq_of_leftJustified {b c : BV} (hlen : b.len = c.len) (h : b.leftJustified = c.leftJustified) : b = c := by
  obtain ⟨bval, blen⟩ := b
  obtain ⟨cval, clen⟩ := c
  obtain rfl : blen = clen := hlen
  have hval : bval = cval := BitVec.eq_of_toNat_eq (Nat.eq_of_mul_eq_mul_right (by positivity) h)
  rw [hval]

section
variable {len : Byte → Nat}

theorem canonicalCode_leftJustified (hl : ∀ v, len v ≤ 16) (hk : kraftSum len ≤ Config.kraftOne) {v : Byte} (hv : len v ≠ 0) :
    (canonicalCode len v).leftJustified = codeStart len v := by
  rw [BV.leftJustified, canonicalCode_len (hl v), canonicalCode_val_mul hk hv]

theorem canonicalCode_wf (hl : ∀ v, len v ≤ 16) (hk : kraftSum len ≤ Config.kraftOne) (v : Byte) : (canonicalCode len v).wf := by
  refine ⟨(canonicalCode_len (hl v)).trans_le (hl v), ?_⟩
  rw [canonicalCode_len (hl v)]
  by_cases hv : len v = 0
  · simp [canonicalCode, hv]
  · refine Nat.lt_of_mul_lt_mul_right (a := 2 ^ (16 - len v)) ?_
    rw [canonicalCode_val_mul hk hv, pow_mul_pow_sub 2 (hl v)]
    have hend := codeStart_add_le_kraftSum hv
    have hpos : 0 < 2 ^ (16 - len v) := by positivity
    have hone := hk.trans_eq kraftOne_eq
    omega

end

/-- With lengths that are not over-subscribed the chain of R161 is the canonical code. -/
theorem assignCodes_canonicalOrder {s : State} (hl : ∀ v, s.lenOf v ≤ 16) (hk : kraftSum s.lenOf ≤ Config.kraftOne) :
    assignCodes ((canonicalOrder s.lenOf).map s.lens.at) = .ok ((canonicalOrder s.lenOf).map (canonicalCode s.lenOf)) := by
  have hlens : ∀ l ∈ (canonicalOrder s.lenOf).map s.lens.at, l.toNat ≤ 16 := List.forall_mem_map.2 fun v _ => hl v
  have hrise := lengths_canonicalOrder_rise s
  cases h : assignCodes ((canonicalOrder s.lenOf).map s.lens.at) with
  | error f =>
    have hover := (lt_codeSpace_iff hrise).2 (assignCodes_error hrise hlens h).2
    rw [← kraftSum_lenOf, ← kraftOne_eq] at hover
    exact absurd hk hover.not_ge
  | ok cs =>
    obtain ⟨hcs, hvals⟩ := assignCodes_ok hlens h
    have hlen : cs.length = (canonicalOrder s.lenOf).length := by simpa using congrArg List.length hcs
    congr 1
    refine List.ext_getElem (hlen.trans (List.length_map _).symm) fun i hi _ => ?_
    have hi' : i < (canonicalOrder s.lenOf).length := hi.trans_eq hlen
    have hv : s.lenOf (canonicalOrder s.lenOf)[i] ≠ 0 := mem_canonicalOrder.1 (List.getElem_mem hi')
    have hcslen : cs[i].len = s.lens.at (canonicalOrder s.lenOf)[i] := by
      simpa [hi, hi'] using congrArg (·[i]?) hcs
    rw [List.getElem_map]
    refine BV.eq_of_leftJustified (hcslen.trans (BitVec.eq_of_toNat_eq (canonicalCode_len (hl _)).symm)) ?_
    rw [(hvals i hi).2, codeSpace_take_canonicalOrder s hi', canonicalCode_leftJustified hl hk hv]

/-- The codes in canonical order, written slot by slot into a zeroed table, are the canonical code (R162). -/
theorem putAll_canonicalOrder (len : Byte → Nat) :
    Table.putAll (Table.const ⟨0, 0⟩) ((canonicalOrder len).zip ((canonicalOrder len).map (canonicalCode len))) =
      Table.ofFn (canonicalCode len) := by
  have hzip : (canonicalOrder len).zip ((canonicalOrder len).map (canonicalCode len)) =
      (canonicalOrder len).map fun v => (v, canonicalCode len v) := by
    simpa using List.zip_map' (f := id) (g := canonicalCode len) (l := canonicalOrder len)
  have hkeys : ((canonicalOrder len).map fun v => (v, canonicalCode len v)).map Prod.fst = canonicalOrder len := by
    simp [Function.comp_def]
  rw [hzip]
  refine Table.ext fun v => ?_
  rw [Table.at_ofFn]
  by_cases hv : len v = 0
  · have hnot : v ∉ canonicalOrder len := fun hmem => mem_canonicalOrder.1 hmem hv
    rw [Table.at_putAll_of_notMem (hkeys.symm ▸ hnot), Table.at_const, canonicalCode, if_pos hv]
  · exact Table.at_putAll_of_mem (hkeys.symm ▸ canonicalOrder_nodup len) (List.mem_map.2 ⟨v, mem_canonicalOrder.2 hv, rfl⟩)

/-- What `CB.BUILD` does when the lengths are not over-subscribed (R161, R162). -/
theorem runCbBuild_of_kraftSum_le {s : State} (hl : ∀ v, s.lenOf v ≤ 16) (hk : kraftSum s.lenOf ≤ Config.kraftOne) :
    runCbBuild s = .ok (s.setCode (Table.ofFn (canonicalCode s.lenOf)) (present s.lenOf).length) := by
  simp only [runCbBuild, if_neg (Nat.not_lt_of_le hk), assignCodes_canonicalOrder hl hk, raiseIn_ok, ok_bind,
    putAll_canonicalOrder]

theorem kraftSum_le_of_runCbBuild_ok {s t : State} (h : runCbBuild s = .ok t) : kraftSum s.lenOf ≤ Config.kraftOne := by
  unfold runCbBuild at h
  split at h
  · cases h
  next hk => exact Nat.le_of_not_lt hk

/-! ### `DEC.TBL` -/

/-- The fill loop leaves the windows before the first symbol's barrier alone. -/
theorem fillTable_at_of_lt {code : Table BV} {cs : List Byte} (t : Table DEntry) {w : Byte}
    (h : ∀ c ∈ cs, w.toNat < barrier (code.at c)) : (fillTable code cs t).at w = t.at w := by
  induction cs, t using fillTable.induct code with
  | case1 t => rfl
  | case2 c t =>
    have hc := h c List.mem_cons_self
    simp [fillTable, fillEntries, Nat.not_le_of_lt hc]
  | case3 c c' cs t ih =>
    have hc := h c List.mem_cons_self
    rw [fillTable, ih fun d hd => h d (List.mem_cons_of_mem _ hd)]
    simp [fillEntries, Nat.not_le_of_lt hc]

/-- When the barriers rise, a window that has reached a symbol's barrier and none above it takes that symbol's entry (R202). -/
theorem fillTable_at {code : Table BV} {cs : List Byte} (t : Table DEntry)
    (hrise : cs.Pairwise fun c d => barrier (code.at c) < barrier (code.at d)) {v w : Byte} (hv : v ∈ cs)
    (hlo : barrier (code.at v) ≤ w.toNat)
    (hhi : ∀ c ∈ cs, barrier (code.at v) < barrier (code.at c) → w.toNat < barrier (code.at c)) :
    (fillTable code cs t).at w = ⟨v, (code.at v).len⟩ := by
  induction cs, t using fillTable.induct code with
  | case1 t => cases hv
  | case2 c t =>
    obtain rfl := List.mem_singleton.1 hv
    simp [fillTable, fillEntries, hlo, w.isLt]
  | case3 c c' cs t ih =>
    obtain ⟨hc, hrest⟩ := List.pairwise_cons.1 hrise
    rw [fillTable]
    rcases List.mem_cons.1 hv with rfl | hv
    · have hnext : ∀ d ∈ c' :: cs, w.toNat < barrier (code.at d) := fun d hd => hhi d (List.mem_cons_of_mem _ hd) (hc d hd)
      rw [fillTable_at_of_lt _ hnext]
      simp [fillEntries, hlo, hnext c' List.mem_cons_self]
    · exact ih hrest hv fun d hd => hhi d (List.mem_cons_of_mem _ hd)

/-- `DTBL` gives every window that begins with a codeword of the canonical code of `len` its value and length (R205). -/
def State.Resolves (s : State) (len : Byte → Nat) : Prop :=
  ∀ v w : Byte, len v ≠ 0 → w.toNat / 2 ^ (8 - len v) = (canonicalCode len v).val.toNat →
    s.dtbl.at w = ⟨v, (canonicalCode len v).len⟩

/-- A window that begins with a codeword lies between its barrier and the next (R205). -/
theorem fillTable_canonicalCode_at {len : Byte → Nat} (hl : ∀ v, len v ≤ 8) (hk : kraftSum len ≤ Config.kraftOne) {v w : Byte}
    (hv : len v ≠ 0) (hw : w.toNat / 2 ^ (8 - len v) = (canonicalCode len v).val.toNat) (t : Table DEntry) :
    (fillTable (Table.ofFn (canonicalCode len)) (canonicalOrder len) t).at w = ⟨v, (canonicalCode len v).len⟩ := by
  have hbar : barrier (canonicalCode len v) = w.toNat / 2 ^ (8 - len v) * 2 ^ (8 - len v) := by
    rw [barrier_canonicalCode (hl v), hw]
  have hlo : barrier (canonicalCode len v) ≤ w.toNat := hbar.trans_le (Nat.div_mul_le_self _ _)
  have hend : w.toNat < barrier (canonicalCode len v) + 2 ^ (8 - len v) := hbar ▸ Nat.lt_div_mul_add (by positivity)
  have hnext : ∀ c, len c ≠ 0 → canonicalLT len v c → w.toNat < barrier (canonicalCode len c) := fun c hc hvc => by
    have hspace := codeStart_add_le hv hvc
    have hexp : 16 - len v = 8 - len v + 8 := by have := hl v; omega
    rw [← barrier_mul hk (hl v) hv, ← barrier_mul hk (hl c) hc, hexp, pow_add, ← Nat.add_mul] at hspace
    exact hend.trans_le (Nat.le_of_mul_le_mul_right hspace (by norm_num))
  have hfill := fillTable_at (code := Table.ofFn (canonicalCode len)) (cs := canonicalOrder len) t (v := v) (w := w)
  simp only [Table.at_ofFn] at hfill
  refine hfill ?_ (mem_canonicalOrder.2 hv) hlo fun c hc hvc => ?_
  · exact (canonicalOrder_sorted len).imp_of_mem fun hu hv => barrier_lt hl hk (mem_canonicalOrder.1 hu) (mem_canonicalOrder.1 hv)
  · have hne : v ≠ c := fun e => hvc.ne (by rw [e])
    refine hnext c (mem_canonicalOrder.1 hc) ((canonicalLT_trichotomy len hne).resolve_right fun hcv => ?_)
    exact hvc.not_gt (barrier_lt hl hk (mem_canonicalOrder.1 hc) hv hcv)

/-- What `DEC.TBL` does with a canonical code whose lengths fit the window (R202). -/
theorem runDecTbl_of_canonicalCode {s : State} {len : Byte → Nat} (hcodeV : s.status.codeV = true)
    (hcode : s.code = Table.ofFn (canonicalCode len)) (hl : ∀ v, len v ≤ 8) (hk : kraftSum len ≤ Config.kraftOne) :
    ∃ t, runDecTbl s = .ok (s.setDtbl t) ∧ (s.setDtbl t).Resolves len := by
  have hlen : s.codeLenOf = len := funext fun v => by
    rw [State.codeLenOf, hcode, Table.at_ofFn, canonicalCode_len ((hl v).trans (by norm_num))]
  have hfind : (canonicalOrder len).find? (fun c => len c > Config.windowBits) = none :=
    List.find?_eq_none.2 fun c _ => by simpa using hl c
  refine ⟨_, ?_, fun v w hv hw => fillTable_canonicalCode_at hl hk hv hw (Table.const ⟨0, 0⟩)⟩
  simp only [runDecTbl, require_code hcodeV, ok_bind, hlen, hfind, hcode]

end Sys2Proof.Machine
end

section
/-! PROOFS. What `ENCODE` and `ENCODEP` leave in SNK when they do not fault (R184, R185): the container of the input under the lengths of
`PM.RUN` (R70 to R73). The header is written byte by byte, each byte once (R172), and the body's accesses OR the codewords, one after the
other, into bits that the allocation has zeroed (R79, R174). -/

namespace Sys2Proof.Machine

/-! ### Accesses that write -/

/-- Where every address is touched once, a written byte stays. -/
theorem read_applyOps_of_write {ops : List MemOp} {m : Mem} (hm : m.wf) (hr : ∀ o ∈ ops, o.addr < 2 ^ 32)
    (hd : ops.Pairwise fun o p => o.addr ≠ p.addr) {a : Nat} {v : Byte} (h : .write a v ∈ ops) : (applyOps m ops).read a = v := by
  induction ops generalizing m with
  | nil => cases h
  | cons o os ih =>
    obtain ⟨ho, hos⟩ := List.pairwise_cons.1 hd
    rw [applyOps_cons]
    rcases List.mem_cons.1 h with rfl | h
    · rw [read_applyOps_of_not_touched (b := a) fun p hp => (ho p hp).symm]
      exact Mem.read_write_same hm a v
    · exact ih (MemOp.apply_wf hm (hr o List.mem_cons_self)) (fun p hp => hr p (List.mem_cons_of_mem _ hp)) hos h

/-- A bit of a byte that no access touches is left alone. -/
theorem bit_applyOps_of_not_touched {ops : List MemOp} {m : Mem} {k : Nat} (h : ∀ o ∈ ops, o.addr ≠ k / 8) :
    (applyOps m ops).bit k = m.bit k := by
  simp only [Mem.bit, Nat.shiftRight_eq_div_pow, Nat.reducePow, read_applyOps_of_not_touched h]

/-! ### The header -/

theorem hdrBits_eq : Config.hdrBits = 2112 := rfl

theorem headerOps_addr_lt (s : State) : ∀ o ∈ s.headerOps, o.addr < 264 := by
  intro o ho
  rcases List.mem_append.1 ho with ho | ho
  · obtain ⟨a, ha, rfl⟩ := List.mem_map.1 ho
    exact (List.mem_range.1 ha).trans (by norm_num)
  · obtain ⟨v, -, rfl⟩ := List.mem_map.1 ho
    exact Nat.add_lt_add_left v.isLt 8

/-- No byte of the header is written twice. -/
theorem headerOps_addr_ne (s : State) : s.headerOps.Pairwise fun o p => o.addr ≠ p.addr := by
  refine List.pairwise_append.2 ⟨?_, ?_, fun o ho p hp => ?_⟩
  · exact List.pairwise_map.2 (List.pairwise_lt_range.imp fun h => h.ne)
  · exact List.pairwise_map.2 (allBytes_sorted.imp fun h => (Nat.add_lt_add_left h _).ne)
  · obtain ⟨a, ha, rfl⟩ := List.mem_map.1 ho
    obtain ⟨v, -, rfl⟩ := List.mem_map.1 hp
    exact ((List.mem_range.1 ha).trans_le (Nat.le_add_right _ _)).ne

section
variable {s : State} (hsnk : s.snk.wf)
include hsnk

theorem read_headerOps {a : Nat} {v : Byte} (h : .write a v ∈ s.headerOps) : (applyOps s.snk s.headerOps).read a = v :=
  read_applyOps_of_write hsnk (fun o ho => (headerOps_addr_lt s o ho).trans (by norm_num)) (headerOps_addr_ne s) h

theorem headerOps_wf : (applyOps s.snk s.headerOps).wf :=
  applyOps_wf hsnk fun o ho => (headerOps_addr_lt s o ho).trans (by norm_num)

/-- The size field (R71). -/
theorem read_headerOps_size {a : Nat} (ha : a < 8) :
    ((applyOps s.snk s.headerOps).read a).toNat = s.srcSize.toNat >>> (8 * a) % 256 := by
  rw [read_headerOps hsnk (List.mem_append_left _ (List.mem_map.2 ⟨a, List.mem_range.2 ha, rfl⟩))]
  have hsize : (s.srcSize.zeroExtend 64).toNat = s.srcSize.toNat := BitVec.toNat_setWidth_of_le (by norm_num)
  rw [BitVec.toNat_setWidth, BitVec.toNat_ushiftRight, hsize]

/-- The length bytes (R72). -/
theorem read_headerOps_len (v : Byte) : ((applyOps s.snk s.headerOps).read (8 + v.toNat)).toNat = s.lenOf v := by
  rw [read_headerOps hsnk (List.mem_append_right _ (List.mem_map.2 ⟨v, mem_allBytes v, rfl⟩))]
  simp [State.lenOf]
  omega

end

theorem bit_headerOps (s : State) {k : Nat} (hk : 2112 ≤ k) : (applyOps s.snk s.headerOps).bit k = s.snk.bit k :=
  bit_applyOps_of_not_touched fun o ho => by
    have := headerOps_addr_lt s o ho
    omega

/-! ### The body -/

theorem codeOps_addr_ge {code : Table BV} {off : Nat} {xs : List Byte} : ∀ o ∈ codeOps code off xs, off / 8 ≤ o.addr := by
  induction xs generalizing off with
  | nil => simp [codeOps]
  | cons x xs ih =>
    intro o ho
    rcases List.mem_append.1 ho with ho | ho
    · exact (packOps_addr_lt ho).1
    · exact (Nat.div_le_div_right (Nat.le_add_right _ _)).trans (ih o ho)

theorem getD_bits (b : BV) (i : Nat) : b.bits.getD i false = (decide (i < b.len.toNat) && b.codeBit i) := by
  by_cases hi : i < b.len.toNat <;> simp [BV.bits, hi]

/-- The accesses of a body, bit by bit: the codewords are ORed in, one after the other, from `off` on (R73, R116). -/
theorem bit_codeOps {code : Table BV} (hcode : ∀ v, (code.at v).len.toNat ≤ 16) {xs : List Byte} {m : Mem} (hm : m.wf) {off : Nat}
    (hr : (off + (bodyStream code.at xs).length + 7) / 8 ≤ 2 ^ 32) (k : Nat) :
    (applyOps m (codeOps code off xs)).bit k = (m.bit k || (decide (off ≤ k) && (bodyStream code.at xs).getD (k - off) false)) := by
  induction xs generalizing m off with
  | nil => simp [codeOps]
  | cons x xs ih =>
    rw [bodyStream_cons, List.length_append, length_bits] at hr
    have hr1 : (off + (code.at x).len.toNat + 7) / 8 ≤ 2 ^ 32 := by omega
    have hwf : (applyOps m (packOps (code.at x) off)).wf :=
      applyOps_wf hm fun o ho => (packOps_addr_lt ho).2.trans_le hr1
    rw [codeOps, applyOps_append, ih hwf (by omega), bit_packOps hm (hcode x) hr1, bodyStream_cons, Bool.or_assoc]
    congr 1
    by_cases h1 : off ≤ k
    · by_cases h2 : k < off + (code.at x).len.toNat
      · rw [List.getD_append _ _ _ _ (by rw [length_bits]; omega), getD_bits]
        simp [h1, h2, Nat.not_le_of_lt h2, (Nat.sub_lt_iff_lt_add' h1).2 h2]
      · rw [List.getD_append_right _ _ _ _ (by rw [length_bits]; omega), length_bits, Nat.sub_sub]
        simp [h1, h2, Nat.le_of_not_lt h2]
    · have h2 : ¬ off + (code.at x).len.toNat ≤ k := by omega
      simp [h1, h2]

/-- What either body command leaves when it does not fault: the accesses of `ENC.BODY` (R174, R182). -/
theorem encBody_ok {body : State → Run} (hbody : body = runEncBody ∨ body = runEncBodyp) {s t : State} (hp : s.params.legal)
    (hsnk : s.snk.wf) (h : body s = .ok t) :
    (∀ o ∈ codeOps s.code Config.hdrBits s.srcBytes, o.addr < s.snkSize.toNat) ∧
      t = s.setSnkPos (applyOps s.snk (codeOps s.code Config.hdrBits s.srcBytes))
        (Config.hdrBits + (bodyStream s.code.at s.srcBytes).length) := by
  rcases hbody with rfl | rfl
  · exact putBody_ok (runEncBody_ok h)
  unfold runEncBodyp at h
  split at h
  · exact putBody_ok (runEncBody_ok h)
  · cases hseq : runEncBody s with
    | error r => simp [hseq] at h
    | ok u =>
      obtain rfl : s.putBodyPaged = t := by simpa [hseq] using h
      obtain ⟨haddr, -⟩ := putBody_ok (runEncBody_ok hseq)
      have hsnk' := applyOps_perm (passOps_encPageOps_perm hp).symm hsnk (fun o ho => (haddr o ho).trans s.snkSize.isLt)
        (codeOps_commute ..)
      refine ⟨haddr, ?_⟩
      rw [State.putBodyPaged, ← hsnk', pageOffset_eq, flatMap_encPage hp]

/-! ### The container -/

theorem length_srcBytes (s : State) : s.srcBytes.length = s.srcSize.toNat := by simp [State.srcBytes, State.srcAt]

/-- Header and body, written into an allocated sink, make the container of the input (R70 to R73). -/
theorem holdsContainer_of_writes {s : State} (hsnk : s.snk.wf) (hcode : s.code.at = canonicalCode s.lenOf) (hl : ∀ v, s.lenOf v ≤ 16)
    (hsize : s.snkSize.toNat = 264 + ceil8 (bodyStream s.code.at s.srcBytes).length)
    (hzero : ∀ a < s.snkSize.toNat, s.snk.read a = 0) :
    HoldsContainer (applyOps (applyOps s.snk s.headerOps) (codeOps s.code Config.hdrBits s.srcBytes)) s.snkSize.toNat s.lenOf
      s.srcBytes := by
  have hlt := s.snkSize.isLt
  have hheader : ∀ a < 264, (applyOps (applyOps s.snk s.headerOps) (codeOps s.code Config.hdrBits s.srcBytes)).read a =
      (applyOps s.snk s.headerOps).read a := fun a ha =>
    read_applyOps_of_not_touched fun o ho => by
      have := codeOps_addr_ge o ho
      rw [hdrBits_eq] at this
      omega
  have hcodeLen : ∀ v, (s.code.at v).len.toNat ≤ 16 := fun v => by
    rw [hcode, canonicalCode_len (hl v)]
    exact hl v
  rw [ceil8_eq] at hsize
  refine ⟨?_, fun a ha => ?_, fun v => ?_, fun k hk => ?_⟩
  · rw [hsize, ceil8_eq, hcode]
  · rw [hheader a (by omega), read_headerOps_size hsnk ha, length_srcBytes]
  · have := v.isLt
    rw [hheader _ (by omega), read_headerOps_len hsnk]
  · simp only [← hcode] at hk ⊢
    have hz : s.snk.bit (Config.hdrBits + k) = false := by
      simp [Mem.bit, Nat.shiftRight_eq_div_pow, hzero ((2112 + k) / 8) (by omega)]
    rw [bit_codeOps hcodeLen (headerOps_wf hsnk) (by rw [hdrBits_eq]; omega), bit_headerOps s (Nat.le_add_right _ _), hz]
    simp [hk]

/-! ### The commands between -/

/-- The histogram of the input (R131): no count wraps. -/
theorem countInto_srcBytes_toNat (s : State) (v : Byte) :
    ((countInto (Table.const 0) s.srcBytes).at v).toNat = s.srcBytes.count v := by
  have hlt : s.srcBytes.count v < 2 ^ 32 := List.count_le_length.trans_lt ((length_srcBytes s).trans_lt s.srcSize.isLt)
  simpa [countInto_at] using hlt

theorem countInto_srcBytes_ne_zero {s : State} {x : Byte} (hx : x ∈ s.srcBytes) :
    (countInto (Table.const 0) s.srcBytes).at x ≠ 0 := fun h0 => by
  have hcount := countInto_srcBytes_toNat s x
  rw [h0] at hcount
  exact absurd hx (List.count_eq_zero.1 hcount.symm)

/-- What `ENC.ALLOC` does when it does not fault (R170). -/
theorem runEncAlloc_ok {s t : State} (h : runEncAlloc s = .ok t) :
    (∀ v, s.freq.at v ≠ 0 → (s.code.at v).len ≠ 0) ∧ s.containerBytes ≤ s.snkCap.toNat ∧
      t = s.allocEnc s.bodyBits s.containerBytes (expandedFlag s.containerBytes s.srcSize) := by
  obtain ⟨-, -, h⟩ := bind_eq_ok.1 h
  split at h
  · cases h
  next hfind =>
  split at h
  · cases h
  next hcap =>
  cases h
  refine ⟨fun v hv h0 => ?_, Nat.le_of_not_lt hcap, rfl⟩
  exact of_decide_eq_false (find_allBytes_eq_none.1 hfind v) ⟨hv, h0⟩

/-- What `ENC.HDR` does when it does not fault (R172). -/
theorem runEncHdr_ok {s t : State} (h : runEncHdr s = .ok t) : ∃ m, m = applyOps s.snk s.headerOps ∧ t = s.setSnk m := by
  obtain ⟨-, -, h⟩ := bind_eq_ok.1 h
  split at h
  · cases h
  · exact ⟨_, rfl, (Except.ok.inj h).symm⟩

/-- A command that leaves `FAULT` at 0 has run to its end. -/
theorem finish_eq_next_unfaulted {r : Run} {t : State} (h : finish r = .next t) (hf : t.status.fault = false) :
    ∃ u, r = .ok u ∧ t = u.retire := by
  obtain ⟨u, hu, he⟩ | ⟨e, -, he⟩ := finish_next r
  · obtain rfl : u.retire = t := by simpa using he.symm.trans h
    exact ⟨u, hu, rfl⟩
  · obtain rfl : takeFault e.fault e.state = t := by simpa using he.symm.trans h
    cases hf

/-! ### Whole encode -/

/-- `t` holds in SNK a container of the input bytes of `s`, one that `DEC.HDR` accepts and in which every input byte has a code. -/
def EncodesTo (s t : State) : Prop :=
  ∃ len : Byte → Nat, HeaderLengthsValid len s.srcBytes.length ∧ (∀ x ∈ s.srcBytes, len x ≠ 0) ∧
    HoldsContainer t.snk t.snkSize.toNat len s.srcBytes

/-- Header and body, when neither faults, from a zeroed sink of the right size (R172, R174). -/
theorem encode_writes_ok {body : State → Run} (hbody : body = runEncBody ∨ body = runEncBodyp) {s t : State} (hp : s.params.legal)
    (hsnk : s.snk.wf) (hcode : s.code.at = canonicalCode s.lenOf) (hl : ∀ v, s.lenOf v ≤ 16)
    (hsize : s.snkSize.toNat = 264 + ceil8 (bodyStream s.code.at s.srcBytes).length)
    (hzero : ∀ a < s.snkSize.toNat, s.snk.read a = 0) (h : (runEncHdr s >>= body) = .ok t) :
    HoldsContainer t.snk t.snkSize.toNat s.lenOf s.srcBytes := by
  obtain ⟨u, hhdr, h⟩ := bind_eq_ok.1 h
  obtain ⟨m, hm, rfl⟩ := runEncHdr_ok hhdr
  have hmwf : m.wf := hm ▸ headerOps_wf hsnk
  obtain ⟨-, rfl⟩ := encBody_ok hbody (s := s.setSnk m) hp hmwf h
  have hholds := holdsContainer_of_writes hsnk hcode hl hsize hzero
  rw [← hm] at hholds
  exact hholds

/-- Allocation, header and body, when none faults, from a state with the histogram of the input and a canonical code (R170 to R174). -/
theorem encode_sink_ok {body : State → Run} (hbody : body = runEncBody ∨ body = runEncBodyp) {s t : State} (hp : s.params.legal)
    (hsnk : s.snk.wf) (hfreq : ∀ v, (s.freq.at v).toNat = s.srcBytes.count v) (hcode : s.code.at = canonicalCode s.lenOf)
    (hl : ∀ v, s.lenOf v ≤ 16) (h : (runEncAlloc s >>= fun s => runEncHdr s >>= body) = .ok t) :
    (∀ v, s.freq.at v ≠ 0 → s.lenOf v ≠ 0) ∧ HoldsContainer t.snk t.snkSize.toNat s.lenOf s.srcBytes := by
  obtain ⟨u, halloc, h⟩ := bind_eq_ok.1 h
  obtain ⟨hcoded, hcap, rfl⟩ := runEncAlloc_ok halloc
  have hbits : s.bodyBits = (bodyStream s.code.at s.srcBytes).length := by
    simp only [State.bodyBits, hfreq, sum_count_mul_len]
  have hsize : (low32 s.containerBytes).toNat = s.containerBytes :=
    (BitVec.toNat_ofNat _ _).trans (Nat.mod_eq_of_lt (hcap.trans_lt s.snkCap.isLt))
  have hneed : s.containerBytes = 264 + ceil8 (bodyStream s.code.at s.srcBytes).length := by rw [State.containerBytes, hbits]
  refine ⟨fun v hv h0 => hcoded v hv ?_, encode_writes_ok hbody (s := s.allocEnc _ _ _) hp
    (Mem.zeroBelow_wf hsnk _) hcode hl (hsize.trans hneed) (fun a ha => ?_) h⟩
  · rw [hcode, canonicalCode, if_pos h0]
  · exact (Mem.read_zeroBelow _ _ _).trans (if_pos (hsize ▸ ha))

/-- The commands of `ENCODE` after the scan (R100), with either body command. -/
theorem encode_run_ok {body : State → Run} (hbody : body = runEncBody ∨ body = runEncBodyp) {s t : State} (hs : s.Legal)
    (h : (runFtScan s >>= fun s => runPmRun s >>= fun s => runCbBuild s >>= fun s => runEncAlloc s >>= fun s =>
      runEncHdr s >>= body) = .ok t) : EncodesTo s t := by
  obtain ⟨s1, ⟨⟩, h⟩ := bind_eq_ok.1 h
  obtain ⟨s2, hpm, h⟩ := bind_eq_ok.1 h
  obtain ⟨s3, hcb, h⟩ := bind_eq_ok.1 h
  have hl : ∀ v, s2.lenOf v ≤ 16 := fun v => (lenOf_le_eight_of_runPmRun_ok hpm v).trans (by norm_num)
  rw [runCbBuild_of_kraftSum_le hl (kraftSum_le_of_runCbBuild_ok hcb)] at hcb
  obtain rfl := Except.ok.inj hcb
  obtain ⟨⟨lens, n, hs2⟩, -, -⟩ := runPmRun_ok hpm
  have hfreq : s2.freq = countInto (Table.const 0) s.srcBytes := by rw [hs2]; rfl
  have hsrc : s2.srcBytes = s.srcBytes := by rw [hs2]; rfl
  have hcode : (Table.ofFn (canonicalCode s2.lenOf)).at = canonicalCode s2.lenOf := funext (Table.at_ofFn _)
  obtain ⟨hcoded, hholds⟩ := encode_sink_ok hbody (s := s2.setCode _ _) (by rw [hs2]; exact hs.params) (by rw [hs2]; exact hs.snk)
    (fun v => by rw [setCode_freq, hfreq, countInto_srcBytes_toNat, ← hsrc]; rfl) hcode hl h
  refine ⟨s2.lenOf, headerLengthsValid_of_runPmRun_ok hpm (fun v hv => hcoded v ?_) fun hnone => ?_, fun x hx => hcoded x ?_,
    hsrc ▸ hholds⟩
  · rw [setCode_freq, hfreq]
    exact hv
  · refine List.length_eq_zero_iff.2 (List.eq_nil_iff_forall_not_mem.2 fun x hx => ?_)
    exact List.eq_nil_iff_forall_not_mem.1 hnone x (mem_symbols.2 (countInto_srcBytes_ne_zero hx))
  · rw [setCode_freq, hfreq]
    exact countInto_srcBytes_ne_zero hx

/-- What an encode command that does not fault leaves (R184, R185). -/
theorem exec_encode_ok {i : Instr} (hi : i = .encode ∨ i = .encodep) {s t : State} (hs : s.Legal) (h : exec i s = .next t)
    (hf : t.status.fault = false) : EncodesTo s t := by
  rcases hi with rfl | rfl
  · obtain ⟨u, hu, rfl⟩ := finish_eq_next_unfaulted h hf
    exact encode_run_ok (t := u) (.inl rfl) hs hu
  · obtain ⟨u, hu, rfl⟩ := finish_eq_next_unfaulted h hf
    rw [runFtScanp_eq_runFtScan hs.params] at hu
    exact encode_run_ok (t := u) (.inr rfl) hs hu

end Sys2Proof.Machine
end

section
/-! PROOFS. What `DECODE` and `DECODEP` make of a container (R220, R221), and the round trip (R222). The header passes its checks and gives
back the size and the lengths (R200, R201); the code and the table built from them are those the body was written with (R205); so at the
start of every codeword the window resolves it, and the walk goes from codeword to codeword (R208, R210). -/

namespace Sys2Proof.Machine

/-! ### The header -/

/-- The bytes of a number, each at its place, add up to it. -/
theorem sum_bytes (n k : Nat) : ((List.range k).map fun a => (n >>> (8 * a) % 256) <<< (8 * a)).sum = n % 2 ^ (8 * k) := by
  have hpow : ∀ a, 2 ^ (8 * a) = 256 ^ a := fun a => pow_mul 2 8 a
  simp only [Nat.shiftLeft_eq, Nat.shiftRight_eq_div_pow, hpow]
  induction k with
  | zero => simp [Nat.mod_one]
  | succ k ih =>
    rw [List.range_succ, List.map_append, List.sum_append, ih, Nat.mod_pow_succ]
    simp [Nat.mul_comm]

/-- The size field gives back the size (R71, R200). -/
theorem hdrSize_eq {s : State} {n : Nat} (hn : n < 2 ^ 64) (h : ∀ a < 8, (s.src.read a).toNat = n >>> (8 * a) % 256) :
    s.hdrSize = n := by
  have hbytes : (List.range 8).map (fun a => (s.src.read a).toNat <<< (8 * a)) =
      (List.range 8).map fun a => (n >>> (8 * a) % 256) <<< (8 * a) :=
    List.map_congr_left fun a ha => by rw [h a (List.mem_range.1 ha)]
  rw [State.hdrSize, hbytes, sum_bytes, Nat.mod_eq_of_lt hn]

theorem HeaderLengthsValid.kraftSum_le {len : Byte → Nat} {n : Nat} (h : HeaderLengthsValid len n) :
    kraftSum len ≤ Config.kraftOne := by
  obtain ⟨-, ⟨hp, -⟩ | ⟨v, hp, h1⟩ | ⟨-, hk⟩⟩ := h
  · simp [kraftSum, hp]
  · rw [(canonicalCode_single hp h1).2]
    norm_num
  · exact hk.le

/-- A header with valid lengths passes the checks of R201. -/
theorem hdrCheck_of_valid {s : State} (hsize : 264 ≤ s.srcSize.toNat) (h : HeaderLengthsValid s.hdrLen s.hdrSize) :
    s.hdrCheck = .ok () := by
  obtain ⟨hle, hshape⟩ := h
  have hrange : allBytes.find? (fun v => s.hdrLen v > Config.maxLen) = none :=
    find_allBytes_eq_none.2 fun v => decide_eq_false (Nat.not_lt_of_le ((hle v).trans (by norm_num)))
  have hwindow : allBytes.find? (fun v => s.hdrLen v > Config.windowBits) = none :=
    find_allBytes_eq_none.2 fun v => decide_eq_false (Nat.not_lt_of_le (hle v))
  have hempty : ¬ (present s.hdrLen = [] ∧ s.hdrSize ≠ 0) := by
    rintro ⟨hp, hn⟩
    rcases hshape with ⟨-, h0⟩ | ⟨v, hv, -⟩ | ⟨h2, -⟩
    · exact hn h0
    · simp [hp] at hv
    · simp [hp] at h2
  have hkraft : s.hdrKraftBad = false := by
    unfold State.hdrKraftBad
    rcases hshape with ⟨hp, -⟩ | ⟨v, hp, h1⟩ | ⟨h2, hk⟩
    · rw [hp]
    · simp [hp, h1]
    · split
      · rfl
      · next hp => simp [hp] at h2
      · simp [hk]
  rw [State.hdrCheck, if_neg (Nat.not_lt_of_le hsize), hrange, hwindow]
  simp only [if_neg hempty, hkraft, Bool.false_eq_true, if_false]

/-- What `DEC.HDR` loads from a header with valid lengths (R200). -/
theorem runDecHdr_of_valid {s : State} (hsize : 264 ≤ s.srcSize.toNat) (h : HeaderLengthsValid s.hdrLen s.hdrSize) :
    ∃ lens n, runDecHdr s = .ok (s.loadHeader s.hdrSize lens n) ∧ ∀ v, (lens.at v).toNat = s.hdrLen v := by
  refine ⟨_, _, by rw [runDecHdr, hdrCheck_of_valid hsize h]; rfl, fun v => ?_⟩
  rw [Table.at_ofFn]
  exact (BitVec.toNat_ofNat _ _).trans (Nat.mod_eq_of_lt ((h.1 v).trans_lt (by norm_num)))

/-- What `DEC.ALLOC` does when the original size fits the sink (R204). -/
theorem runDecAlloc_of_le {s : State} (hhdrV : s.status.hdrV = true) (h : s.orig.toNat ≤ s.snkCap.toNat) :
    runDecAlloc s = .ok s.allocDec := by
  rw [runDecAlloc, require_hdr hhdrV, ok_bind, if_neg (Nat.not_lt_of_le h)]

theorem State.Resolves.allocDec {s : State} {len : Byte → Nat} (h : s.Resolves len) : s.allocDec.Resolves len := h

/-! ### The body -/

/-- SRC holds these stream bits from bit offset `off` on (R9, R73). -/
def State.HoldsStream (s : State) (off : Nat) (bs : List Bool) : Prop := ∀ k (h : k < bs.length), s.src.bit (off + k) = bs[k]

theorem State.HoldsStream.left {s : State} {off : Nat} {as bs : List Bool} (h : s.HoldsStream off (as ++ bs)) :
    s.HoldsStream off as := fun k hk => by
  rw [h k (by rw [List.length_append]; omega), List.getElem_append_left hk]

theorem State.HoldsStream.right {s : State} {off : Nat} {as bs : List Bool} (h : s.HoldsStream off (as ++ bs)) :
    s.HoldsStream (off + as.length) bs := fun k hk => by
  rw [Nat.add_assoc, h (as.length + k) (by rw [List.length_append]; omega), List.getElem_append_right (Nat.le_add_right _ _)]
  simp

/-- A window that starts where a codeword lies begins with this codeword (R9, R209). -/
theorem window_div_eq_val {s : State} {c : BV} (hc : c.wf) (hc8 : c.len.toNat ≤ 8) {off : Nat}
    (hin : off + c.len.toNat ≤ 8 * s.srcSize.toNat) (hbits : s.HoldsStream off c.bits) :
    (s.window off).toNat / 2 ^ (8 - c.len.toNat) = c.val.toNat := by
  refine Nat.eq_of_testBit_eq fun j => ?_
  rw [Nat.testBit_div_two_pow, BitVec.testBit_toNat, BitVec.testBit_toNat]
  by_cases hj : j < c.len.toNat
  · have hpos : j + (8 - c.len.toNat) = 7 - (c.len.toNat - 1 - j) := by omega
    have hin' : off + (c.len.toNat - 1 - j) < 8 * s.srcSize.toNat := by omega
    have hidx : c.len.toNat - 1 - (c.len.toNat - 1 - j) = j := by omega
    rw [hpos, window_getLsbD s (by omega) (by omega), decide_eq_true hin', Bool.true_and, hbits _ (by rw [length_bits]; omega)]
    simp [BV.bits, BV.codeBit, hidx]
  · have hval : c.val.toNat < 2 ^ j := hc.2.trans_le (Nat.pow_le_pow_right (by norm_num) (Nat.le_of_not_lt hj))
    rw [BitVec.getLsbD_of_ge _ _ (by omega), ← BitVec.testBit_toNat, Nat.testBit_eq_false_of_lt hval]

section
variable {s : State} {len : Byte → Nat} (hl : ∀ v, len v ≤ 8) (hk : kraftSum len ≤ Config.kraftOne) (hres : s.Resolves len)
include hl hk hres

/-- Where a codeword lies in SRC, the lookup gives its value and its length (R205, R208). -/
theorem lookup_codeword {v : Byte} (hv : len v ≠ 0) {off : Nat} (hin : off + len v ≤ 8 * s.srcSize.toNat)
    (hbits : s.HoldsStream off (canonicalCode len v).bits) :
    s.dtbl.at (s.window off) = ⟨v, (canonicalCode len v).len⟩ ∧ s.lookup off = .ok ⟨v, (canonicalCode len v).len⟩ := by
  have hl16 : ∀ v, len v ≤ 16 := fun v => (hl v).trans (by norm_num)
  have hlen := canonicalCode_len (hl16 v)
  have hwindow := window_div_eq_val (canonicalCode_wf hl16 hk v) (by rw [hlen]; exact hl v) (by rw [hlen]; exact hin) hbits
  rw [hlen] at hwindow
  have hentry := hres v (s.window off) hv hwindow
  have hlen0 : (canonicalCode len v).len ≠ 0 := fun h0 => hv (by rw [← hlen, h0]; rfl)
  refine ⟨hentry, ?_⟩
  obtain ⟨hout, -⟩ | ⟨-, h0, -⟩ | ⟨-, -, hout, -⟩ | ⟨-, -, hok⟩ := lookup_cases s off
  · omega
  · exact absurd (by rw [← h0, hentry]) hlen0
  · rw [hentry, hlen] at hout
    omega
  · rw [hok, hentry]

/-- Where a stream of codewords lies in SRC, the discovery pass goes through it to its end, and the writes are those of its bytes
(R215, R217). -/
theorem discover_stream {xs : List Byte} (hxs : ∀ x ∈ xs, len x ≠ 0) {i off : Nat}
    (hin : off + (bodyStream (canonicalCode len) xs).length ≤ 8 * s.srcSize.toNat)
    (hbits : s.HoldsStream off (bodyStream (canonicalCode len) xs)) :
    (∃ pages, s.discover xs.length i off = .ok (pages, off + (bodyStream (canonicalCode len) xs).length)) ∧
      s.decodeOps off (List.range' i xs.length) = (xs.zipIdx i).map fun p => .write p.2 p.1 := by
  induction xs generalizing i off with
  | nil => exact ⟨⟨[], rfl⟩, rfl⟩
  | cons x xs ih =>
    obtain ⟨hx, hxs⟩ := List.forall_mem_cons.1 hxs
    have hlen := canonicalCode_len ((hl x).trans (by norm_num))
    rw [bodyStream_cons] at hbits
    have hrest := hbits.right
    rw [length_bits, hlen] at hrest
    simp only [bodyStream_cons, List.length_append, length_bits, hlen, ← Nat.add_assoc] at hin ⊢
    obtain ⟨hentry, hlookup⟩ := lookup_codeword hl hk hres hx (by omega) hbits.left
    obtain ⟨⟨pages, hdiscover⟩, hops⟩ := ih hxs (i := i + 1) hin hrest
    refine ⟨⟨_, discover_succ_eq_ok.2 ⟨_, _, hlookup, by rw [hlen]; exact hdiscover, rfl⟩⟩, ?_⟩
    rw [List.length_cons, List.range'_succ, State.decodeOps, hentry, hlen, hops]
    rfl

/-- The body commands on a stream that ends in the last byte of SRC (R210): no fault, and the bytes of the stream in SNK. -/
theorem runDecBody_stream (hsnk : s.snk.wf) (hdtblV : s.status.dtblV = true) (hsnkV : s.status.snkV = true)
    (hsnkDec : s.status.snkDec = true) {xs : List Byte} (hxs : ∀ x ∈ xs, len x ≠ 0) (hn : s.snkSize.toNat = xs.length)
    (hsize : s.srcSize.toNat = 264 + ceil8 (bodyStream (canonicalCode len) xs).length)
    (hbits : s.HoldsStream Config.hdrBits (bodyStream (canonicalCode len) xs)) :
    ∃ m pos, runDecBody s = .ok (s.emit m s.snkSize.toNat pos) ∧ ∀ a (h : a < xs.length), m.read a = xs[a] := by
  rw [ceil8_eq] at hsize
  have hin : Config.hdrBits + (bodyStream (canonicalCode len) xs).length ≤ 8 * s.srcSize.toNat := by
    rw [hdrBits_eq]
    omega
  obtain ⟨⟨pages, hdiscover⟩, hops⟩ := discover_stream hl hk hres hxs (i := 0) hin hbits
  rw [← hn] at hdiscover
  have hend : bodySizeCheck s.srcSize (Config.hdrBits + (bodyStream (canonicalCode len) xs).length) = .ok () :=
    if_neg (not_not.2 (by rw [ceil8_eq, hdrBits_eq]; omega))
  refine ⟨applyOps s.snk (s.decodeOps Config.hdrBits (List.range s.snkSize.toNat)),
    Config.hdrBits + (bodyStream (canonicalCode len) xs).length, ?_, fun a ha => ?_⟩
  · rw [runDecBody, require_dec hdtblV hsnkV hsnkDec, ok_bind, getBody_eq_discover, hdiscover, ok_bind, hend, ok_bind, raiseIn_ok]
  · refine read_applyOps_of_write hsnk (fun o ho => (decodeOps_addr_lt o ho).trans s.snkSize.isLt) (decodeOps_addr_ne s _) ?_
    rw [hn, List.range_eq_range', hops]
    exact List.mem_map.2 ⟨(xs[a], a), List.mk_mem_zipIdx_iff_getElem?.2 (List.getElem?_eq_getElem ha), rfl⟩

end

/-! ### Whole decode -/

/-- Either decode command on a container (R220, R221): it does not fault and leaves the bytes in SNK. -/
theorem decode_run_container {body : State → Run} (hbody : body = runDecBody ∨ body = runDecBodyp) {s : State} (hp : s.params.legal)
    (hsnk : s.snk.wf) {len : Byte → Nat} {xs : List Byte} (hvalid : HeaderLengthsValid len xs.length) (hxs : ∀ x ∈ xs, len x ≠ 0)
    (hholds : HoldsContainer s.src s.srcSize.toNat len xs) (hcap : xs.length ≤ s.snkCap.toNat) :
    ∃ t, (runDecHdr s >>= fun s => runCbBuild s >>= fun s => runDecTbl s >>= fun s => runDecAlloc s >>= body) = .ok t ∧
      t.status.fault = s.status.fault ∧ t.snkSize.toNat = xs.length ∧ ∀ a (h : a < xs.length), t.snk.read a = xs[a] := by
  obtain ⟨hsize, hsizeField, hlenBytes, hstream⟩ := hholds
  have hl := hvalid.1
  have hk := hvalid.kraftSum_le
  have hn := hcap.trans_lt s.snkCap.isLt
  have hhdrLen : s.hdrLen = len := funext hlenBytes
  have hhdrSize : s.hdrSize = xs.length := hdrSize_eq (hn.trans (by norm_num)) hsizeField
  obtain ⟨lens, n, hhdr, hlens⟩ := runDecHdr_of_valid (hsize ▸ Nat.le_add_right _ _) (s := s) (by rwa [hhdrLen, hhdrSize])
  rw [hhdrLen] at hlens
  rw [hhdr, ok_bind, hhdrSize]
  have hlenOf : (s.loadHeader xs.length lens n).lenOf = len := funext hlens
  rw [runCbBuild_of_kraftSum_le (by rw [hlenOf]; exact fun v => (hl v).trans (by norm_num)) (by rwa [hlenOf]), ok_bind, hlenOf]
  obtain ⟨dtbl, htbl, hres⟩ := runDecTbl_of_canonicalCode (s := State.setCode _ (Table.ofFn (canonicalCode len)) _) rfl rfl hl hk
  rw [htbl, ok_bind]
  have horig : (BitVec.ofNat 64 xs.length).toNat = xs.length :=
    (BitVec.toNat_ofNat _ _).trans (Nat.mod_eq_of_lt (hn.trans (by norm_num)))
  rw [runDecAlloc_of_le rfl (horig.trans_le hcap), ok_bind]
  have hsnkSize : ((BitVec.ofNat 64 xs.length).truncate 32).toNat = xs.length := by
    rw [BitVec.toNat_setWidth, horig, Nat.mod_eq_of_lt hn]
  have hwf := Mem.zeroBelow_wf hsnk ((BitVec.ofNat 64 xs.length).truncate 32).toNat
  obtain ⟨m, pos, hrun, hread⟩ := runDecBody_stream hl hk hres.allocDec hwf rfl rfl rfl hxs hsnkSize hsize hstream
  rcases hbody with rfl | rfl
  · exact ⟨_, hrun, rfl, hsnkSize, hread⟩
  · exact ⟨_, runDecBodyp_of_runDecBody_ok hp hwf hrun, rfl, hsnkSize, hread⟩

/-- What a decode command makes of a container (R220, R221). -/
theorem exec_decode_container {i : Instr} (hi : i = .decode ∨ i = .decodep) {s : State} (hs : s.Legal) {len : Byte → Nat}
    {xs : List Byte} (hvalid : HeaderLengthsValid len xs.length) (hxs : ∀ x ∈ xs, len x ≠ 0)
    (hholds : HoldsContainer s.src s.srcSize.toNat len xs) (hcap : xs.length ≤ s.snkCap.toNat) :
    ∃ t, exec i s = .next t ∧ t.status.fault = s.status.fault ∧ t.snkSize.toNat = xs.length ∧
      ∀ a (h : a < xs.length), t.snk.read a = xs[a] := by
  rcases hi with rfl | rfl
  · obtain ⟨t, hrun, ht⟩ := decode_run_container (.inl rfl) hs.params hs.snk hvalid hxs hholds hcap
    exact ⟨t.retire, congrArg finish hrun, ht⟩
  · obtain ⟨t, hrun, ht⟩ := decode_run_container (.inr rfl) hs.params hs.snk hvalid hxs hholds hcap
    exact ⟨t.retire, congrArg finish hrun, ht⟩

/-! ### The round trip -/

/-- A memory that agrees below its size with one that holds a container holds it too. -/
theorem HoldsContainer.of_read_eq {m m' : Mem} {size : Nat} {len : Byte → Nat} {xs : List Byte} (h : HoldsContainer m size len xs)
    (heq : ∀ a < size, m'.read a = m.read a) : HoldsContainer m' size len xs := by
  obtain ⟨hsize, hsizeField, hlenBytes, hbody⟩ := h
  rw [ceil8_eq] at hsize
  have h264 : size = 264 + ((bodyStream (canonicalCode len) xs).length + 7) / 8 := hsize
  refine ⟨by rw [ceil8_eq]; exact hsize, fun a ha => ?_, fun v => ?_, fun k hk => ?_⟩
  · rw [heq a (by omega), hsizeField a ha]
  · have := v.isLt
    rw [heq _ (by omega), hlenBytes v]
  · rw [← hbody k hk, Mem.bit, Mem.bit, heq _ (by rw [hdrBits_eq, Nat.shiftRight_eq_div_pow]; omega)]

/-- Settles O58: what an encode command leaves in SNK is a container that `DEC.HDR` accepts, and a decode command gives its bytes back. -/
theorem roundTripRestoresTheInput : Obligations.RoundTripRestoresTheInput := by
  unfold Obligations.RoundTripRestoresTheInput
  intro s t u enc dec hs _ henc hdec hexec ht hu huf hsize hsrc hcap
  obtain ⟨len, hvalid, hxs, hholds⟩ := exec_encode_ok henc hs hexec ht
  have hlength := length_srcBytes s
  obtain ⟨w, hw, hfault, hsnkSize, hread⟩ :=
    exec_decode_container hdec hu hvalid hxs (hsize ▸ hholds.of_read_eq hsrc) (hlength ▸ hcap)
  refine ⟨w, hw, hfault.trans huf, BitVec.eq_of_toNat_eq (hsnkSize.trans hlength), fun a ha => ?_⟩
  rw [hread a (hlength ▸ ha)]
  simp [State.srcBytes, State.srcAt]

end Sys2Proof.Machine
end

section
/-! PROOFS. The single-step commands reproduce the bulk body commands (R298). A sequence of `ENC.PUT` or of `DEC.GET` that leaves `FAULT` at 0
is the sequence of its symbols' effects, and so is the loop of `ENC.BODY` or `DEC.BODY` from the cursors' start (R174, R210). -/

namespace Sys2Proof.Machine

/-! ### Prerequisites -/

theorem require_eq_ok {r : Req} {s : State} : require r s = .ok () ↔ seqMask r s = 0 := by
  obtain ⟨h0, hok⟩ | ⟨h0, herr⟩ := require_cases r s
  · exact iff_of_true hok h0
  · exact iff_of_false (by simp [herr]) h0

/-- A prerequisite reads `STATUS` only (R97 step 4). -/
theorem require_ok_of_status_eq {r : Req} {s u : State} (hstatus : u.status = s.status) (hrunning : u.running = s.running)
    (h : require r s = .ok ()) : require r u = .ok () := by
  have hmask : seqMask r u = seqMask r s := by simp only [seqMask, State.statusWord, State.busy, hstatus, hrunning]
  exact require_eq_ok.2 (hmask.trans (require_eq_ok.1 h))

/-- What the prerequisites of the encoder's body commands say (R173). -/
theorem flags_of_require_enc {s : State} (h : require reqEnc s = .ok ()) : s.status.codeV = true ∧ s.status.snkV = true := by
  have hbits := seqMask_eq_zero.1 (require_eq_ok.1 h)
  have h3 := (hbits 3 (by decide)).1 (by decide)
  have h5 := (hbits 5 (by decide)).1 (by decide)
  rw [statusWord_getLsbD s _ (by decide)] at h3 h5
  exact ⟨by simpa using h3, by simpa using h5⟩

/-! ### How a command ends -/

theorem retire_eq_self {s : State} (h : s.running = none) : s.retire = s := by
  cases s
  cases h
  rfl

/-- A command ends with `FAULT` at 0 exactly when its pseudocode raises no fault (R252), and then in the state that leaves. -/
theorem finish_raiseIn_eq_next_iff {s l t : State} {x : Except FaultRec State} (hx : ∀ u, x = .ok u → u.running = s.running)
    (hidle : s.running = none) (ht : t.status.fault = false) : finish (raiseIn l x) = .next t ↔ x = .ok t := by
  cases x with
  | ok u => simp [retire_eq_self ((hx u rfl).trans hidle)]
  | error f =>
    simp only [raiseIn_error, finish_error, Host.Outcome.next.injEq, reduceCtorEq, iff_false]
    rintro rfl
    cases ht

/-! ### Sequences of single-step commands -/

/-- The commands `cmd` check the prerequisite `r` and perform `op`, which leaves `STATUS` as it was. -/
structure SymbolCommand {α : Type} (cmd : α → Instr) (r : Req) (op : State → α → Except FaultRec State) : Prop where
  exec_eq : ∀ x s, exec (cmd x) s = finish (require r s >>= fun _ => raiseIn s (op s x))
  keeps : ∀ {x s u}, op s x = .ok u → u.status = s.status ∧ u.running = s.running

theorem symbolCommand_encPut : SymbolCommand .encPut reqEnc putSymbol where
  exec_eq _ _ := rfl
  keeps h := by
    obtain ⟨-, rfl⟩ := putSymbol_ok h
    exact ⟨rfl, rfl⟩

/-- What `DEC.GET` leaves when it does not fault (R208): one more symbol decoded. -/
theorem getSymbol_ok {s u : State} (h : getSymbol s = .ok u) :
    s.outpos.toNat < s.snkSize.toNat ∧ ∃ m pos, u = s.emit m (s.outpos.toNat + 1) pos := by
  obtain ⟨-, he⟩ | ⟨-, _, -, he⟩ | ⟨hlt, e, -, hok⟩ := getSymbol_cases s
  · cases he.symm.trans h
  · cases he.symm.trans h
  · exact ⟨hlt, _, _, Except.ok.inj (h.symm.trans hok)⟩

theorem symbolCommand_decGet : SymbolCommand (fun _ : Unit => .decGet) reqDec (fun s _ => getSymbol s) where
  exec_eq _ _ := rfl
  keeps h := by
    obtain ⟨-, m, pos, rfl⟩ := getSymbol_ok h
    exact ⟨rfl, rfl⟩

section
variable {α : Type} {cmd : α → Instr} {r : Req} {op : State → α → Except FaultRec State} {s t : State} {xs : List α}

theorem SymbolCommand.fault_of_exec (h : SymbolCommand cmd r op) {x : α} (hs : s.status.fault = true)
    (hx : exec (cmd x) s = .next t) : t.status.fault = true := by
  by_contra ht
  obtain ⟨u, hu, rfl⟩ := finish_eq_next_unfaulted ((h.exec_eq x s).symm.trans hx) (by simpa using ht)
  obtain ⟨_, -, hop⟩ := bind_eq_ok.1 hu
  exact ht ((congrArg Status.fault (h.keeps (raiseIn_eq_ok.1 hop)).1).trans hs)

/-- From the fault state a sequence ends in the fault state (R256). -/
theorem SymbolCommand.fault_of_execAll (h : SymbolCommand cmd r op) (hs : s.status.fault = true)
    (hx : execAll (xs.map cmd) s = .next t) : t.status.fault = true := by
  induction xs generalizing s with
  | nil =>
    cases hx
    exact hs
  | cons x xs ih =>
    rw [List.map_cons, execAll] at hx
    split at hx
    · next u hu => exact ih (h.fault_of_exec hs hu) hx
    · cases hx
    · cases hx

/-- A sequence ends with `FAULT` at 0 exactly when none of its symbols raises a fault, and then it has performed them all. -/
theorem SymbolCommand.execAll_eq_next_iff (h : SymbolCommand cmd r op) (hreq : require r s = .ok ()) (hidle : s.running = none)
    (ht : t.status.fault = false) : execAll (xs.map cmd) s = .next t ↔ xs.foldlM op s = .ok t := by
  induction xs generalizing s with
  | nil => simp [execAll, pure, Except.pure]
  | cons x xs ih =>
    rw [List.map_cons, execAll, h.exec_eq, hreq, ok_bind, List.foldlM_cons]
    cases hop : op s x with
    | ok u =>
      obtain ⟨hstatus, hrunning⟩ := h.keeps hop
      simp only [raiseIn_ok, finish_ok, ok_bind, retire_eq_self (hrunning.trans hidle)]
      exact ih (require_ok_of_status_eq hstatus hrunning hreq) (hrunning.trans hidle)
    | error f =>
      simp only [raiseIn_error, finish_error, error_bind, reduceCtorEq, iff_false]
      intro hx
      exact Bool.false_ne_true (ht.symm.trans (h.fault_of_execAll rfl hx))

end

/-! ### The encoder's body -/

theorem rewindEnc_eq_self {s : State} (h : s.bitpos = 2112) : s.rewindEnc = s := by
  cases s
  cases h
  rfl

/-- R298 for the encoder. -/
theorem execAll_encPut_iff_encBody {s t : State} (hreq : require reqEnc s = .ok ()) (hpos : s.bitpos = 2112)
    (hidle : s.running = none) (ht : t.status.fault = false) :
    execAll (s.srcBytes.map .encPut) s = .next t ↔ exec .encBody s = .next t := by
  have hrunning : ∀ u, putBody s = .ok u → u.running = s.running := by
    intro u hu
    obtain ⟨-, rfl⟩ := putBody_ok hu
    rfl
  calc execAll (s.srcBytes.map .encPut) s = .next t
    _ ↔ putBody s = .ok t := by
      rw [symbolCommand_encPut.execAll_eq_next_iff hreq hidle ht, putBody, rewindEnc_eq_self hpos]
    _ ↔ finish (raiseIn (s.loseSink s.snkSize.toNat) (putBody s)) = .next t :=
      (finish_raiseIn_eq_next_iff hrunning hidle ht).symm
    _ ↔ exec .encBody s = .next t := by rw [exec, execEncBody, runEncBody, hreq, ok_bind]

/-! ### The decoder's body -/

theorem rewindDec_eq_self {s : State} (hpos : s.bitpos = 2112) (hout : s.outpos = 0) : s.rewindDec = s := by
  cases s
  cases hpos
  cases hout
  rfl

/-- While the sink has room for them, the loop of `DEC.BODY` makes its passes one after the other (R210). -/
theorem getSymbols_eq_foldlM {n : Nat} {s : State} (h : s.outpos.toNat + n ≤ s.snkSize.toNat) :
    getSymbols n s = (List.replicate n ()).foldlM (fun s _ => getSymbol s) s := by
  induction n generalizing s with
  | zero => rfl
  | succ n ih =>
    rw [getSymbols, if_pos (by omega), List.replicate_succ, List.foldlM_cons]
    cases hget : getSymbol s with
    | error f => rfl
    | ok u =>
      obtain ⟨hlt, m, pos, rfl⟩ := getSymbol_ok hget
      have hout : (BitVec.ofNat 32 (s.outpos.toNat + 1)).toNat = s.outpos.toNat + 1 := by
        have hsize := s.snkSize.isLt
        exact (BitVec.toNat_ofNat _ _).trans (Nat.mod_eq_of_lt (by omega))
      exact ih (by rw [emit_outpos, emit_snkSize, hout]; omega)

/-- The final size check passes, or raises `BODY_SIZE` (R210). -/
theorem bodySizeCheck_cases (size : Word) (pos : Nat) : bodySizeCheck size pos = .ok () ∨
    bodySizeCheck size pos = .error ⟨.malformedHeader .bodySize, BitVec.ofNat 32 ((pos + 7) / 8)⟩ := by
  unfold bodySizeCheck
  rw [ceil8_eq]
  split
  · exact .inr rfl
  · exact .inl rfl

/-- `DEC.BODY` from the cursors' start (R210). -/
theorem getBody_of_start {s : State} (hpos : s.bitpos = 2112) (hout : s.outpos = 0) :
    getBody s = (getSymbols s.snkSize.toNat s >>= fun t => bodySizeCheck t.srcSize t.bitpos.toNat >>= fun _ => .ok t) := by
  rw [getBody, rewindDec_eq_self hpos hout]

theorem getBody_running {s t : State} (h : getBody s = .ok t) : t.running = s.running := by
  rw [getBody_eq_discover] at h
  obtain ⟨p, -, h⟩ := bind_eq_ok.1 h
  obtain ⟨_, -, ⟨⟩⟩ := bind_eq_ok.1 h
  rfl

theorem exec_decBody_eq {s : State} (hreq : require reqDec s = .ok ()) :
    exec .decBody s = finish (raiseIn (s.loseSink s.snkSize.toNat) (getBody s)) := by
  rw [exec, execDecBody, runDecBody, hreq, ok_bind]

theorem exec_decBody_eq_next_iff {s t : State} (hreq : require reqDec s = .ok ()) (hidle : s.running = none)
    (ht : t.status.fault = false) : exec .decBody s = .next t ↔ getBody s = .ok t := by
  rw [exec_decBody_eq hreq]
  exact finish_raiseIn_eq_next_iff (fun _ => getBody_running) hidle ht

theorem execAll_decGet_iff_getSymbols {s t : State} (hreq : require reqDec s = .ok ()) (hout : s.outpos = 0)
    (hidle : s.running = none) (ht : t.status.fault = false) :
    execAll (List.replicate s.snkSize.toNat .decGet) s = .next t ↔ getSymbols s.snkSize.toNat s = .ok t := by
  rw [getSymbols_eq_foldlM (by simp [hout]), ← symbolCommand_decGet.execAll_eq_next_iff hreq hidle ht, List.map_replicate]

/-- R298 for the decoder, where `DEC.BODY` does not fault. -/
theorem execAll_decGet_of_decBody {s t : State} (hreq : require reqDec s = .ok ()) (hpos : s.bitpos = 2112) (hout : s.outpos = 0)
    (hidle : s.running = none) (ht : t.status.fault = false) (h : exec .decBody s = .next t) :
    execAll (List.replicate s.snkSize.toNat .decGet) s = .next t := by
  rw [exec_decBody_eq_next_iff hreq hidle ht, getBody_of_start hpos hout] at h
  obtain ⟨u, hu, h⟩ := bind_eq_ok.1 h
  obtain ⟨_, -, ⟨⟩⟩ := bind_eq_ok.1 h
  exact (execAll_decGet_iff_getSymbols hreq hout hidle ht).2 hu

/-- R298 for the decoder, where no `DEC.GET` faults: the final check is all that `DEC.BODY` adds. -/
theorem decBody_of_execAll_decGet {s t : State} (hreq : require reqDec s = .ok ()) (hpos : s.bitpos = 2112) (hout : s.outpos = 0)
    (hidle : s.running = none) (ht : t.status.fault = false)
    (h : execAll (List.replicate s.snkSize.toNat .decGet) s = .next t) :
    exec .decBody s = .next t ∨ ∃ u, exec .decBody s = .next u ∧
      BulkFaultTaken (.malformedHeader .bodySize) (BitVec.ofNat 32 ((t.bitpos.toNat + 7) / 8)) s u := by
  have hbody : getBody s = bodySizeCheck t.srcSize t.bitpos.toNat >>= fun _ => .ok t := by
    rw [getBody_of_start hpos hout, (execAll_decGet_iff_getSymbols hreq hout hidle ht).1 h, ok_bind]
  rcases bodySizeCheck_cases t.srcSize t.bitpos.toNat with hok | herr
  · rw [hok, ok_bind] at hbody
    exact .inl ((exec_decBody_eq_next_iff hreq hidle ht).2 hbody)
  · rw [herr, error_bind] at hbody
    rw [exec_decBody_eq hreq, hbody, raiseIn_error]
    exact .inr (finish_raise_bulk _ _ s)

/-! ### One symbol by the bit-vector unit -/

/-- What `ENC.PUT v` does when it does not fault (R173): its `Pack`. -/
theorem pack_of_putSymbol_ok {s t : State} {v : Byte} (h : putSymbol s v = .ok t) :
    (s.code.at v).len ≠ 0 ∧ ∃ m, pack s.snkSize s.snk (s.code.at v) s.bitpos.toNat = .ok m ∧
      t = s.setSnkPos m (s.bitpos.toNat + (s.code.at v).len.toNat) := by
  simp only [putSymbol] at h
  split at h
  · cases h
  · next hlen =>
    obtain ⟨m, hm, ⟨⟩⟩ := bind_eq_ok.1 h
    exact ⟨hlen, m, hm, rfl⟩

/-- `BV.LDC v` loads the code of `v` (R114). -/
theorem exec_bvLdc {s : State} (h : s.status.codeV = true) (v : Byte) :
    exec (.bvLdc v) s = .next (s.setBv (s.code.at v)).retire := by
  rw [exec, execBvLdc, require_code h, ok_bind, finish_ok]

/-- `BV.COPY` packs `BV` at `BITPOS` (R113). -/
theorem exec_bvCopy {s : State} (h : s.status.snkV = true) (hlen : s.bv.len ≠ 0) {m : Mem}
    (hm : pack s.snkSize s.snk s.bv s.bitpos.toNat = .ok m) : exec .bvCopy s = .next (s.setSnk m).retire := by
  rw [exec, execBvCopy, runBvCopy, require_sink h, ok_bind, if_neg hlen, hm, raiseIn_ok, ok_bind, finish_ok]

/-- R298: one `ENC.PUT` by the bit-vector unit and a host write of `BITPOS`. -/
theorem execAll_bvLdc_bvCopy_of_encPut {s t : State} {v : Byte} (h : exec (.encPut v) s = .next t) (ht : t.status.fault = false) :
    ∃ u, execAll [.bvLdc v, .bvCopy] s = .next u ∧
      { u with bitpos := BitVec.ofNat 64 (s.bitpos.toNat + (s.code.at v).len.toNat) } = { t with bv := s.code.at v } := by
  obtain ⟨w, hw, rfl⟩ := finish_eq_next_unfaulted ((symbolCommand_encPut.exec_eq v s).symm.trans h) ht
  obtain ⟨_, hreq, hput⟩ := bind_eq_ok.1 hw
  obtain ⟨hcodeV, hsnkV⟩ := flags_of_require_enc hreq
  obtain ⟨hlen, m, hm, rfl⟩ := pack_of_putSymbol_ok (raiseIn_eq_ok.1 hput)
  have hcopy := exec_bvCopy (s := (s.setBv (s.code.at v)).retire) hsnkV hlen hm
  exact ⟨_, by simp only [execAll, exec_bvLdc hcodeV, hcopy]; rfl, rfl⟩

/-- Settles O59: a sequence of single-step commands that does not fault is its symbols' effects one after the other, as the loop of the
bulk command is. -/
theorem singleStepsReproduceTheBulkCommands : Obligations.SingleStepsReproduceTheBulkCommands := by
  unfold Obligations.SingleStepsReproduceTheBulkCommands
  refine ⟨?_, ?_, ?_⟩
  · intro s t _ hcodeV hsnkV hsnkDec hpos hidle ht
    exact execAll_encPut_iff_encBody (require_enc hcodeV hsnkV hsnkDec) hpos hidle ht
  · intro s t _ hdtblV hsnkV hsnkDec hpos hout hidle ht
    have hreq := require_dec hdtblV hsnkV hsnkDec
    exact ⟨execAll_decGet_of_decBody hreq hpos hout hidle ht, decBody_of_execAll_decGet hreq hpos hout hidle ht⟩
  · intro s t v _ _ hexec ht
    exact execAll_bvLdc_bvCopy_of_encPut hexec ht

end Sys2Proof.Machine
end

section
/-! PROOFS. Words and commands, once more (R92, R96, R101): what the lemmas about the decoder and the encoder say of O1, O2 and O4. -/

namespace Sys2Proof

/-- Settles O1. -/
theorem decodeOfEncodeIsTheCommand : Obligations.DecodeOfEncodeIsTheCommand := by
  unfold Obligations.DecodeOfEncodeIsTheCommand
  exact fun _ => decode_encode

/-- Settles O2: two legal commands with one word are what that word decodes to. -/
theorem decodedWordIsItsCommandsWord : Obligations.DecodedWordIsItsCommandsWord := by
  unfold Obligations.DecodedWordIsItsCommandsWord
  intro w i h
  obtain ⟨hwf, hword⟩ := encode_of_decode h
  refine ⟨hwf, hword, fun j hj hjw => ?_⟩
  exact Except.ok.inj ((decode_eq_ok_iff.2 ⟨hj, hjw⟩).symm.trans h)

/-- Settles O4: the decoder runs on each of the words. -/
theorem writtenOutWordsDecode : Obligations.WrittenOutWordsDecode := by
  unfold Obligations.WrittenOutWordsDecode
  exact ⟨rfl, rfl, rfl, rfl, rfl, rfl, rfl, rfl, rfl, rfl, rfl, rfl⟩

end Sys2Proof
end

section
/-! PROOFS. What a command can do, said once (R91, R97, R252): its prerequisites fail, or its pseudocode raises a fault, or it completes
with one of a few effects. The macros are sequences of such commands (R100), so what every command keeps the macros keep. -/

namespace Sys2Proof.Machine

/-! ### The pseudocode of each command -/

/-- The pseudocode of a command, its prerequisites included; the macros are their sub-commands bound together (R100). -/
def runOf : Instr → State → Run
  | .nop, s => .ok s
  | .srst, s => .ok s.resetRegs
  | .bvZero len, s => requireLen (.bvZero len) len s >>= fun _ => .ok (s.setBv (bvZero len))
  | .bvNext len, s => requireLen (.bvNext len) len s >>= fun _ => raiseIn s (bvNext s.bv len) >>= fun b => .ok (s.setBv b)
  | .bvCopy, s => runBvCopy s
  | .bvLdc v, s => require reqCode s >>= fun _ => .ok (s.setBv (s.code.at v))
  | .ftClr, s => .ok (s.setFreq (Table.const 0))
  | .ftScan, s => runFtScan s
  | .ftScanp, s => runFtScanp s
  | .pmRun, s => runPmRun s
  | .cbBuild, s => runCbBuild s
  | .encAlloc, s => runEncAlloc s
  | .encHdr, s => runEncHdr s
  | .encBody, s => runEncBody s
  | .encBodyp, s => runEncBodyp s
  | .encPut v, s => require reqEnc s >>= fun _ => raiseIn s (putSymbol s v)
  | .encodep, s => runFtScanp s >>= fun s => runPmRun s >>= fun s => runCbBuild s >>= fun s => runEncAlloc s >>= fun s =>
      runEncHdr s >>= runEncBodyp
  | .encode, s => runFtScan s >>= fun s => runPmRun s >>= fun s => runCbBuild s >>= fun s => runEncAlloc s >>= fun s =>
      runEncHdr s >>= runEncBody
  | .decHdr, s => runDecHdr s
  | .decTbl, s => runDecTbl s
  | .decAlloc, s => runDecAlloc s
  | .decBody, s => runDecBody s
  | .decBodyp, s => runDecBodyp s
  | .decGet, s => runDecGet s
  | .decodep, s => runDecHdr s >>= fun s => runCbBuild s >>= fun s => runDecTbl s >>= fun s => runDecAlloc s >>= runDecBodyp
  | .decode, s => runDecHdr s >>= fun s => runCbBuild s >>= fun s => runDecTbl s >>= fun s => runDecAlloc s >>= runDecBody

theorem exec_eq_finish (i : Instr) (s : State) : exec i s = finish (runOf i s) := by
  cases i <;> rfl

/-- The sub-commands of a macro (R100); any other command by itself. -/
def expansion : Instr → List Instr
  | .encode => [.ftScan, .pmRun, .cbBuild, .encAlloc, .encHdr, .encBody]
  | .encodep => [.ftScanp, .pmRun, .cbBuild, .encAlloc, .encHdr, .encBodyp]
  | .decode => [.decHdr, .cbBuild, .decTbl, .decAlloc, .decBody]
  | .decodep => [.decHdr, .cbBuild, .decTbl, .decAlloc, .decBodyp]
  | i => [i]

theorem runOf_eq_foldlM (i : Instr) (s : State) : runOf i s = (expansion i).foldlM (fun s j => runOf j s) s := by
  cases i
  all_goals simp only [expansion, List.foldlM_cons, List.foldlM_nil, bind_pure]
  all_goals rfl

theorem isMacro_of_mem_expansion {i j : Instr} (h : j ∈ expansion i) : isMacro j = false := by
  cases i
  all_goals
    simp only [expansion, List.mem_cons, List.not_mem_nil, or_false] at h
    rcases h with rfl | rfl | rfl | rfl | rfl | rfl <;> rfl

/-- The prerequisite of a command on `STATUS` (R45); a macro has none. -/
def reqOf : Instr → Req
  | .bvCopy => reqSink
  | .bvLdc _ | .encAlloc | .decTbl => reqCode
  | .encHdr | .encPut _ | .encBody | .encBodyp => reqEnc
  | .decAlloc => reqHdr
  | .decGet | .decBody | .decBodyp => reqDec
  | .nop | .srst | .bvZero _ | .bvNext _ | .ftClr | .ftScan | .ftScanp | .pmRun | .cbBuild => ⟨0, 0⟩
  | .encode | .encodep | .decHdr | .decode | .decodep => ⟨0, 0⟩

@[simp] theorem seqMask_zero (s : State) : seqMask ⟨0, 0⟩ s = 0 := by
  simp [seqMask]

/-! ### What a command that completes has done -/

/-- `t` is what a command that is no macro may leave of `s` when it completes. -/
inductive Completes : Instr → State → State → Prop
  | nop (s : State) : Completes .nop s s
  | srst (s : State) : Completes .srst s s.resetRegs
  | bvZero {s : State} {len : BitVec 5} (hlen : len.toNat ≤ 16) : Completes (.bvZero len) s (s.setBv (bvZero len))
  | bvNext {s : State} {len : BitVec 5} {b : BV} (hlen : len.toNat ≤ 16) (hb : bvNext s.bv len = .ok b) :
      Completes (.bvNext len) s (s.setBv b)
  | bvLdc (s : State) (v : Byte) : Completes (.bvLdc v) s (s.setBv (s.code.at v))
  | count {i : Instr} (hi : i = .ftClr ∨ i = .ftScan ∨ i = .ftScanp) (s : State) (t : Table Word) : Completes i s (s.setFreq t)
  | pmRun {s : State} {t : Table (BitVec 5)} {n : Nat} (ht : ∀ v, (t.at v).toNat ≤ 16) (hn : n ≤ 256) :
      Completes .pmRun s (s.setLens t n)
  | cbBuild {s : State} {t : Table BV} {n : Nat} (hk : kraftSum s.lenOf ≤ Config.kraftOne)
      (ht : (∀ v, s.lenOf v ≤ 16) → t = Table.ofFn (canonicalCode s.lenOf)) (hn : n ≤ 256) : Completes .cbBuild s (s.setCode t n)
  | encAlloc {s : State} {bits need : Nat} {big : Bool} (hhdr : 264 ≤ need) (hcap : need ≤ s.snkCap.toNat) :
      Completes .encAlloc s (s.allocEnc bits need big)
  | writeSink {i : Instr} (hi : i = .bvCopy ∨ i = .encHdr) {s : State} {ops : List MemOp}
      (hops : ∀ o ∈ ops, o.addr < s.snkSize.toNat) : Completes i s (s.setSnk (applyOps s.snk ops))
  | put {i : Instr} (hi : i = .encBody ∨ i = .encBodyp ∨ ∃ v, i = .encPut v) {s : State} {ops : List MemOp} {pos : Nat}
      (hops : ∀ o ∈ ops, o.addr < s.snkSize.toNat) : Completes i s (s.setSnkPos (applyOps s.snk ops) pos)
  | decHdr {s : State} {orig : Nat} {t : Table (BitVec 5)} {n : Nat} (ht : ∀ v, (t.at v).toNat ≤ 16) (hn : n ≤ 256) :
      Completes .decHdr s (s.loadHeader orig t n)
  | decTbl {s : State} (hcodeV : s.status.codeV = true) (hshort : ∀ v, s.codeLenOf v ≤ 8) :
      Completes .decTbl s (s.setDtbl (fillTable s.code (canonicalOrder s.codeLenOf) (Table.const ⟨0, 0⟩)))
  | decAlloc {s : State} (hhdrV : s.status.hdrV = true) (hcap : s.orig.toNat ≤ s.snkCap.toNat) :
      Completes .decAlloc s s.allocDec
  | get {i : Instr} (hi : i = .decBody ∨ i = .decBodyp ∨ i = .decGet) {s : State} {ops : List MemOp} {out pos : Nat}
      (hops : ∀ o ∈ ops, o.addr < s.snkSize.toNat) (hout : out ≤ s.snkSize.toNat) :
      Completes i s (s.emit (applyOps s.snk ops) out pos)

/-! ### The faults of pure computations -/

/-- The causes that pseudocode raises after the prerequisites (R251). -/
def Cause.Raised (c : Cause) : Prop := c ≠ .none ∧ c ≠ .sequence

/-- A pure computation raises no other causes. -/
def RaisesCauses {α : Type} (x : Except FaultRec α) : Prop := ∀ f, x = .error f → f.cause.Raised

section
variable {α β : Type}

theorem RaisesCauses.ok (a : α) : RaisesCauses (.ok a) := fun _ h => by cases h

theorem RaisesCauses.error {f : FaultRec} (h : f.cause.Raised) : RaisesCauses (.error f : Except FaultRec α) := fun _ he => by
  cases he
  exact h

theorem RaisesCauses.bind {x : Except FaultRec α} {k : α → Except FaultRec β} (hx : RaisesCauses x)
    (hk : ∀ a, x = .ok a → RaisesCauses (k a)) : RaisesCauses (x >>= k) := fun f h =>
  (bind_eq_error.1 h).elim (hx f) fun ⟨a, ha, hf⟩ => hk a ha f hf

end

theorem bvNext_raises (b : BV) (nl : BitVec 5) : RaisesCauses (bvNext b nl) := by
  obtain ⟨-, h⟩ | ⟨-, -, h⟩ | ⟨-, -, h⟩ := bvNext_cases b nl
  all_goals rw [h]
  · exact .error ⟨by simp, by simp⟩
  · exact .error ⟨by simp, by simp⟩
  · exact .ok _

theorem codeChain_raises (b : BV) (ls : List (BitVec 5)) : RaisesCauses (codeChain b ls) := by
  induction ls generalizing b with
  | nil => exact .ok _
  | cons l ls ih => exact (bvNext_raises b l).bind fun c _ => (ih c).bind fun _ _ => .ok _

theorem assignCodes_raises (ls : List (BitVec 5)) : RaisesCauses (assignCodes ls) := by
  cases ls with
  | nil => exact .ok _
  | cons l ls => exact (codeChain_raises _ ls).bind fun _ _ => .ok _

theorem pack_raises (size : Word) (m : Mem) (b : BV) (off : Nat) : RaisesCauses (pack size m b off) := by
  obtain ⟨-, h⟩ | ⟨-, h⟩ := pack_cases size m b off
  all_goals rw [h]
  · exact .error ⟨by simp, by simp⟩
  · exact .ok _

theorem putSymbol_raises (s : State) (v : Byte) : RaisesCauses (putSymbol s v) := by
  obtain ⟨-, h⟩ | ⟨-, -, h⟩ | ⟨-, -, h⟩ := putSymbol_cases s v
  all_goals rw [h]
  · exact .error ⟨by simp, by simp⟩
  · exact .error ⟨by simp, by simp⟩
  · exact .ok _

theorem putBody_raises (s : State) : RaisesCauses (putBody s) := by
  unfold putBody
  generalize s.rewindEnc = u
  induction s.srcBytes generalizing u with
  | nil => exact .ok _
  | cons x xs ih => exact (putSymbol_raises u x).bind fun v _ => ih v

theorem hdrCheck_raises (s : State) : RaisesCauses s.hdrCheck := by
  unfold State.hdrCheck
  repeat' split
  all_goals first
    | exact .ok _
    | exact .error ⟨by simp, by simp⟩

theorem lookup_raises (s : State) (off : Nat) : RaisesCauses (s.lookup off) := by
  obtain ⟨-, h⟩ | ⟨-, -, h⟩ | ⟨-, -, -, h⟩ | ⟨-, -, h⟩ := lookup_cases s off
  all_goals rw [h]
  · exact .error ⟨by simp, by simp⟩
  · exact .error ⟨by simp, by simp⟩
  · exact .error ⟨by simp, by simp⟩
  · exact .ok _

theorem getSymbol_raises (s : State) : RaisesCauses (getSymbol s) := by
  unfold getSymbol
  split
  · exact .error ⟨by simp, by simp⟩
  · exact (lookup_raises s _).bind fun _ _ => .ok _

theorem bodySizeCheck_raises (size : Word) (pos : Nat) : RaisesCauses (bodySizeCheck size pos) := by
  obtain h | h := bodySizeCheck_cases size pos
  all_goals rw [h]
  · exact .ok _
  · exact .error ⟨by simp, by simp⟩

theorem discover_raises (s : State) (n i off : Nat) : RaisesCauses (s.discover n i off) := by
  induction n generalizing i off with
  | zero => exact .ok _
  | succ n ih => exact (lookup_raises s off).bind fun e _ => (ih _ _).bind fun _ _ => .ok _

theorem getBody_raises (s : State) : RaisesCauses (getBody s) := by
  rw [getBody_eq_discover]
  exact (discover_raises s _ _ _).bind fun _ _ => (bodySizeCheck_raises _ _).bind fun _ _ => .ok _

theorem getBodyPaged_raises (s : State) : RaisesCauses s.getBodyPaged :=
  (discover_raises s _ _ _).bind fun _ _ => (bodySizeCheck_raises _ _).bind fun _ _ => .ok _

/-! ### How the pseudocode of a command ends -/

/-- The ways in which the pseudocode of `i`, begun in `s`, may end: `SEQUENCE`, raised in `s` with the mask of the wrong bits, exactly when
a prerequisite is not met (R97 step 4); another fault, raised in `s`, or by a bulk body command in `s` with its sink lost (R252,
R253); or an effect of the command. -/
inductive Ends (i : Instr) (s : State) : Run → Prop
  | sequence (hmask : seqMask (reqOf i) s ≠ 0) : Ends i s (.error ⟨⟨.sequence, seqMask (reqOf i) s⟩, s⟩)
  | raised (hmask : seqMask (reqOf i) s = 0) {f : FaultRec} {u : State} (hcause : f.cause.Raised)
      (hstate : u = s ∨ isBulk i = true ∧ u = s.loseSink s.snkSize.toNat) : Ends i s (.error ⟨f, u⟩)
  | done (hmask : seqMask (reqOf i) s = 0) {t : State} (h : Completes i s t) : Ends i s (.ok t)

section
variable {i : Instr} {s : State}

theorem Ends.require {r : Req} (hr : reqOf i = r) {k : Run} (hk : seqMask r s = 0 → Ends i s k) :
    Ends i s (require r s >>= fun _ => k) := by
  subst hr
  obtain ⟨h0, h⟩ | ⟨h0, h⟩ := require_cases (reqOf i) s
  all_goals rw [h]
  · exact hk h0
  · exact .sequence h0

theorem Ends.raiseIn {α : Type} {x : Except FaultRec α} {u : State} {k : α → Run} (hmask : seqMask (reqOf i) s = 0)
    (hx : RaisesCauses x) (hstate : u = s ∨ isBulk i = true ∧ u = s.loseSink s.snkSize.toNat)
    (hk : ∀ a, x = .ok a → Ends i s (k a)) : Ends i s (raiseIn u x >>= k) := by
  cases x with
  | ok a => exact hk a rfl
  | error f => exact .raised hmask (hx f rfl) hstate

/-- When the raising computation is the last of the pseudocode. -/
theorem Ends.raiseIn_last {x : Except FaultRec State} {u : State} (hmask : seqMask (reqOf i) s = 0)
    (hx : RaisesCauses x) (hstate : u = s ∨ isBulk i = true ∧ u = s.loseSink s.snkSize.toNat)
    (hk : ∀ t, x = .ok t → Completes i s t) : Ends i s (Machine.raiseIn u x) := by
  rw [← bind_pure (Machine.raiseIn u x)]
  exact .raiseIn hmask hx hstate fun t ht => .done hmask (hk t ht)

theorem Ends.raise (hmask : seqMask (reqOf i) s = 0) {f : FaultRec} (hcause : f.cause.Raised) : Ends i s (.error ⟨f, s⟩) :=
  .raised hmask hcause (.inl rfl)

theorem Ends.requireLen {len : BitVec 5} (hmask : seqMask (reqOf i) s = 0) {k : Run} (hk : len.toNat ≤ 16 → Ends i s k) :
    Ends i s (Machine.requireLen i len s >>= fun _ => k) := by
  unfold Machine.requireLen
  split
  · next h => exact hk (of_decide_eq_true h)
  · exact .raise hmask ⟨by simp, by simp⟩

end

theorem length_present_le (len : Byte → Nat) : (present len).length ≤ 256 :=
  (List.length_filter_le _ _).trans_eq allBytes_length

theorem ends_bvCopy (s : State) : Ends .bvCopy s (runBvCopy s) := by
  refine .require rfl fun hmask => ?_
  split
  · exact .raise hmask ⟨by simp, by simp⟩
  · refine .raiseIn hmask (pack_raises _ _ _ _) (.inl rfl) fun m hm => ?_
    obtain ⟨-, h⟩ | ⟨hfit, h⟩ := pack_cases s.snkSize s.snk s.bv s.bitpos.toNat
    · cases h.symm.trans hm
    · obtain rfl := Except.ok.inj (h.symm.trans hm)
      exact .done hmask (.writeSink (.inl rfl) fun o ho => (packOps_addr_lt ho).2.trans_le hfit)

/-- A command without prerequisites begins. -/
theorem seqMask_reqOf {i : Instr} (h : reqOf i = ⟨0, 0⟩) (s : State) : seqMask (reqOf i) s = 0 := by
  rw [h, seqMask_zero]

theorem ends_count {i : Instr} (hi : i = .ftClr ∨ i = .ftScan ∨ i = .ftScanp) (s : State) (t : Table Word) :
    Ends i s (.ok (s.setFreq t)) := by
  refine .done (seqMask_reqOf ?_ s) (.count hi s t)
  rcases hi with rfl | rfl | rfl <;> rfl

theorem ends_ftScanp (s : State) : Ends .ftScanp s (runFtScanp s) := by
  unfold runFtScanp runFtScan
  split
  all_goals exact ends_count (by simp) s _

/-- `PM.RUN` never faults: no length of package-merge for at most 256 symbols is above 8 (R151). -/
theorem runPmRun_eq (s : State) : ∃ lens, runPmRun s = .ok (s.setLens lens s.symbols.length) := by
  simp only [runPmRun]
  split
  · next p hp =>
    have hle := lengths_le_eight (weights_pos s) ((length_weights s).trans_le (length_symbols_le s)) p.2
      (List.of_mem_zip (List.mem_of_find?_eq_some hp)).2
    have hgt : 16 < p.2 := by simpa using List.find?_some hp
    omega
  · exact ⟨_, rfl⟩

theorem ends_pmRun (s : State) : Ends .pmRun s (runPmRun s) := by
  obtain ⟨lens, h⟩ := runPmRun_eq s
  have hle : ∀ v, (lens.at v).toNat ≤ 16 := fun v => (lenOf_le_eight_of_runPmRun_ok h v).trans (by norm_num)
  rw [h]
  exact .done (seqMask_reqOf rfl s) (.pmRun hle (length_symbols_le s))

theorem ends_cbBuild (s : State) : Ends .cbBuild s (runCbBuild s) := by
  have hmask := seqMask_reqOf (i := .cbBuild) rfl s
  by_cases hk : kraftSum s.lenOf ≤ Config.kraftOne
  · have hrun : runCbBuild s = _ := if_neg (Nat.not_lt_of_le hk)
    rw [hrun]
    refine .raiseIn hmask (assignCodes_raises _) (.inl rfl) fun cs hcs => .done hmask (.cbBuild hk (fun hl => ?_) (length_present_le _))
    obtain rfl := Except.ok.inj ((assignCodes_canonicalOrder hl hk).symm.trans hcs)
    exact putAll_canonicalOrder s.lenOf
  · rw [show runCbBuild s = _ from if_pos (Nat.lt_of_not_le hk)]
    exact .raise hmask ⟨by simp, by simp⟩

theorem ends_encAlloc (s : State) : Ends .encAlloc s (runEncAlloc s) := by
  refine .require rfl fun hmask => ?_
  split
  · exact .raise hmask ⟨by simp, by simp⟩
  · split
    · exact .raise hmask ⟨by simp, by simp⟩
    · next h => exact .done hmask (.encAlloc (Nat.le_add_right _ _) (Nat.le_of_not_lt h))

theorem ends_encHdr (s : State) : Ends .encHdr s (runEncHdr s) := by
  refine .require rfl fun hmask => ?_
  split
  · exact .raise hmask ⟨by simp, by simp⟩
  · next h =>
    exact .done hmask (.writeSink (.inr rfl) fun o ho => (headerOps_addr_lt s o ho).trans_le (Nat.le_of_not_lt h))

theorem ends_encPut (s : State) (v : Byte) : Ends (.encPut v) s (require reqEnc s >>= fun _ => raiseIn s (putSymbol s v)) := by
  refine .require rfl fun hmask => .raiseIn_last hmask (putSymbol_raises s v) (.inl rfl) fun t ht => ?_
  obtain ⟨hfit, rfl⟩ := putSymbol_ok ht
  exact .put (.inr (.inr ⟨v, rfl⟩)) fun o ho => (packOps_addr_lt ho).2.trans_le hfit

theorem ends_encBody (s : State) : Ends .encBody s (runEncBody s) := by
  refine .require rfl fun hmask => .raiseIn_last hmask (putBody_raises s) (.inr ⟨rfl, rfl⟩) fun t ht => ?_
  obtain ⟨haddr, rfl⟩ := putBody_ok ht
  exact .put (.inl rfl) haddr

/-! ### The paged commands -/

/-- Whatever the parameters, a pass makes no access but those of its pages (R68). -/
theorem mem_passOps {o : Config.LaneOrder} {lanes np : Nat} {pageOps : Nat → List MemOp} {op : MemOp}
    (h : op ∈ passOps o lanes np pageOps) : ∃ k < np, op ∈ pageOps k := by
  obtain ⟨q, hq, hop⟩ := List.mem_flatten.1 ((runLanes_perm _ _).mem_iff.1 h)
  obtain ⟨l, -, rfl⟩ := List.mem_map.1 hq
  obtain ⟨k, hk, hop⟩ := List.mem_flatMap.1 hop
  exact ⟨k, List.mem_range.1 ((taskOrder_perm _ _).mem_iff.1 (List.mem_filter.1 hk).1), hop⟩

/-- With no page size there are no pages, so where there is a page the size is legal. -/
theorem pageBytes_pos_of_lt_pageCount {size p k : Nat} (h : k < pageCount size p) : 1 ≤ p := by
  rcases Nat.eq_zero_or_pos p with rfl | hp
  · simp [pageCount] at h
  · exact hp

/-- The accesses of the pages are accesses of `ENC.BODY` (R181). -/
theorem mem_codeOps_of_mem_encPageOps {s : State} {k : Nat} (hk : k < s.encPages) {op : MemOp} (h : op ∈ s.encPageOps k) :
    op ∈ codeOps s.code Config.hdrBits s.srcBytes := by
  have hpages : (List.range s.encPages).flatMap s.encPage = s.srcBytes :=
    flatMap_srcAt_pageAddrs s (pageBytes_pos_of_lt_pageCount hk)
  rw [← hpages, ← flatMap_encPageOps]
  exact List.mem_flatMap.2 ⟨k, List.mem_range.2 hk, h⟩

theorem ends_encBodyp (s : State) : Ends .encBodyp s (runEncBodyp s) := by
  have hbody := ends_encBody s
  have hpaged : ∀ t, runEncBody s = .ok t → ∀ o ∈ passOps s.sched.body s.params.lanes s.encPages s.encPageOps,
      o.addr < s.snkSize.toNat := fun t ht o ho => by
    obtain ⟨k, hk, hop⟩ := mem_passOps ho
    exact (putBody_ok (runEncBody_ok ht)).1 o (mem_codeOps_of_mem_encPageOps hk hop)
  unfold runEncBodyp
  generalize hrun : runEncBody s = r at hbody hpaged
  cases hbody with
  | sequence hmask =>
    simp only [ite_self]
    exact .sequence (i := .encBodyp) hmask
  | raised hmask hcause hstate =>
    simp only [ite_self]
    exact .raised (i := .encBodyp) hmask hcause hstate
  | done hmask h =>
    obtain ⟨haddr, rfl⟩ := putBody_ok (runEncBody_ok hrun)
    split
    · exact .done (i := .encBodyp) hmask (.put (.inr (.inl rfl)) haddr)
    · exact .done (i := .encBodyp) hmask (.put (.inr (.inl rfl)) (hpaged _ rfl))

/-! ### The decoder's commands -/

/-- A header that passes the checks has no length above 8 (R201). -/
theorem hdrLen_le_of_hdrCheck {s : State} (h : s.hdrCheck = .ok ()) (v : Byte) : s.hdrLen v ≤ 8 := by
  unfold State.hdrCheck at h
  repeat
    split at h
    · cases h
  have hnone : allBytes.find? (fun v => s.hdrLen v > Config.windowBits) = none := ‹_›
  simpa using find_allBytes_eq_none.1 hnone v

theorem ends_decHdr (s : State) : Ends .decHdr s (runDecHdr s) := by
  have hmask := seqMask_reqOf (i := .decHdr) rfl s
  refine .raiseIn hmask (hdrCheck_raises s) (.inl rfl) fun _ h => .done hmask (.decHdr (fun v => ?_) (length_present_le _))
  rw [Table.at_ofFn, BitVec.toNat_ofNat]
  exact (Nat.mod_le _ _).trans ((hdrLen_le_of_hdrCheck h v).trans (by norm_num))

theorem codeV_of_seqMask {s : State} (h : seqMask reqCode s = 0) : s.status.codeV = true := by
  have hbit := (seqMask_eq_zero.1 h 3 (by decide)).1 (by decide)
  rw [statusWord_getLsbD s _ (by decide)] at hbit
  simpa using hbit

theorem hdrV_of_seqMask {s : State} (h : seqMask reqHdr s = 0) : s.status.hdrV = true := by
  have hbit := (seqMask_eq_zero.1 h 7 (by decide)).1 (by decide)
  rw [statusWord_getLsbD s _ (by decide)] at hbit
  simpa using hbit

theorem ends_decTbl (s : State) : Ends .decTbl s (runDecTbl s) := by
  refine .require rfl fun hmask => ?_
  dsimp only
  split
  · exact .raise hmask ⟨by simp, by simp⟩
  · next hfind =>
    refine .done hmask (.decTbl (codeV_of_seqMask hmask) fun v => ?_)
    by_cases hv : s.codeLenOf v = 0
    · omega
    · simpa using List.find?_eq_none.1 hfind v (mem_canonicalOrder.2 hv)

theorem ends_decAlloc (s : State) : Ends .decAlloc s (runDecAlloc s) := by
  refine .require rfl fun hmask => ?_
  split
  · exact .raise hmask ⟨by simp, by simp⟩
  · next h => exact .done hmask (.decAlloc (hdrV_of_seqMask hmask) (Nat.le_of_not_lt h))

theorem ends_decGet (s : State) : Ends .decGet s (runDecGet s) := by
  refine .require rfl fun hmask => .raiseIn_last hmask (getSymbol_raises s) (.inl rfl) fun t ht => ?_
  obtain ⟨-, h⟩ | ⟨-, f, -, h⟩ | ⟨hlt, e, -, h⟩ := getSymbol_cases s
  · cases h.symm.trans ht
  · cases h.symm.trans ht
  · obtain rfl := Except.ok.inj (h.symm.trans ht)
    exact .get (.inr (.inr rfl)) (ops := [.write s.outpos.toNat e.val]) (by simpa [MemOp.addr] using hlt) hlt

theorem ends_decBody (s : State) : Ends .decBody s (runDecBody s) := by
  refine .require rfl fun hmask => .raiseIn_last hmask (getBody_raises s) (.inr ⟨rfl, rfl⟩) fun t ht => ?_
  rw [getBody_eq_discover] at ht
  obtain ⟨p, -, ht⟩ := bind_eq_ok.1 ht
  obtain ⟨-, -, ⟨⟩⟩ := bind_eq_ok.1 ht
  exact .get (.inl rfl) decodeOps_addr_lt le_rfl

/-- The accesses of the pages are writes of symbols below the size of the sink (R217). -/
theorem decodeOps_addr_mem (s : State) (off : Nat) (is : List Nat) : ∀ o ∈ s.decodeOps off is, o.addr ∈ is := by
  induction is generalizing off with
  | nil => simp [State.decodeOps]
  | cons i is ih =>
    refine List.forall_mem_cons.2 ⟨List.mem_cons_self, fun o ho => List.mem_cons_of_mem _ (ih _ o ho)⟩

theorem lt_of_mem_pageAddrs {size p k a : Nat} (h : a ∈ pageAddrs size p k) : a < size := by
  have := List.mem_range'_1.1 h
  omega

theorem ends_decBodyp (s : State) : Ends .decBodyp s (runDecBodyp s) := by
  unfold runDecBodyp
  split
  · have hbody := ends_decBody s
    generalize runDecBody s = r at hbody
    cases hbody with
    | sequence hmask => exact .sequence (i := .decBodyp) hmask
    | raised hmask hcause hstate => exact .raised (i := .decBodyp) hmask hcause hstate
    | done hmask h =>
      cases h with
      | get hi hops hout => exact .done (i := .decBodyp) hmask (.get (.inr (.inl rfl)) hops hout)
      | _ => simp_all
  · refine .require rfl fun hmask => .raiseIn_last hmask (getBodyPaged_raises s) (.inl rfl) fun t ht => ?_
    obtain ⟨p, -, ht⟩ := bind_eq_ok.1 ht
    obtain ⟨-, -, ⟨⟩⟩ := bind_eq_ok.1 ht
    refine .get (.inr (.inl rfl)) (fun o ho => ?_) le_rfl
    obtain ⟨k, -, hop⟩ := mem_passOps ho
    exact lt_of_mem_pageAddrs (decodeOps_addr_mem s _ _ o hop)

/-! ### Every command -/

/-- Every command that is no macro ends in one of the ways of `Ends`. -/
theorem ends_runOf {i : Instr} (hi : isMacro i = false) (s : State) : Ends i s (runOf i s) := by
  cases i with
  | nop => exact .done (seqMask_reqOf rfl s) (.nop s)
  | srst => exact .done (seqMask_reqOf rfl s) (.srst s)
  | bvZero len =>
    have hmask := seqMask_reqOf (i := .bvZero len) rfl s
    exact .requireLen hmask fun hlen => .done hmask (.bvZero hlen)
  | bvNext len =>
    have hmask := seqMask_reqOf (i := .bvNext len) rfl s
    exact .requireLen hmask fun hlen => .raiseIn hmask (bvNext_raises s.bv len) (.inl rfl) fun b hb => .done hmask (.bvNext hlen hb)
  | bvCopy => exact ends_bvCopy s
  | bvLdc v => exact .require rfl fun hmask => .done hmask (.bvLdc s v)
  | ftClr => exact ends_count (.inl rfl) s _
  | ftScan => exact ends_count (.inr (.inl rfl)) s _
  | ftScanp => exact ends_ftScanp s
  | pmRun => exact ends_pmRun s
  | cbBuild => exact ends_cbBuild s
  | encAlloc => exact ends_encAlloc s
  | encHdr => exact ends_encHdr s
  | encBody => exact ends_encBody s
  | encBodyp => exact ends_encBodyp s
  | encPut v => exact ends_encPut s v
  | decHdr => exact ends_decHdr s
  | decTbl => exact ends_decTbl s
  | decAlloc => exact ends_decAlloc s
  | decBody => exact ends_decBody s
  | decBodyp => exact ends_decBodyp s
  | decGet => exact ends_decGet s
  | encode | encodep | decode | decodep => cases hi

end Sys2Proof.Machine
end

section
/-! PROOFS. What follows from the ways in which commands end: faults are precise (O9), `SEQUENCE` is exact (O10), what no command
changes (O22, O23), and that the sink is changed only below its size (O25). -/

namespace Sys2Proof.Machine

/-! ### Single commands -/

theorem isMacro_expansion {i : Instr} (h : isMacro i = false) : expansion i = [i] := by
  cases i
  case encode | encodep | decode | decodep => cases h
  all_goals rfl

/-- A command that completes leaves `FAULT` and its cause as they were, or clears both. -/
theorem Completes.fault_cases {i : Instr} {s t : State} (h : Completes i s t) :
    (t.status.fault = s.status.fault ∧ t.faultCause = s.faultCause) ∨ (t.status.fault = false ∧ t.faultCause = .none) := by
  cases h
  case srst => exact .inr ⟨rfl, rfl⟩
  all_goals exact .inl ⟨rfl, rfl⟩

/-- Settles O9: the pseudocode of a command raises its faults in the state it was accepted in, and a bulk body command in that state with
its sink lost. -/
theorem faultsArePrecise : Obligations.FaultsArePrecise := by
  unfold Obligations.FaultsArePrecise
  intro i s t hi hs hexec ht
  rw [exec_eq_finish] at hexec
  have hends := ends_runOf hi s
  generalize runOf i s = r at hends hexec
  cases hends with
  | sequence hmask =>
    cases hexec
    exact ⟨by simp, .inl rfl⟩
  | @raised hmask f u hcause hstate =>
    cases hexec
    refine ⟨hcause.1, ?_⟩
    rcases hstate with rfl | ⟨hbulk, rfl⟩
    · exact .inl rfl
    · obtain ⟨t, ht, hbulkTaken⟩ := finish_raise_bulk f.cause f.info s
      cases ht
      exact .inr ⟨hbulk, hbulkTaken⟩
  | @done hmask u h =>
    cases hexec
    have hu : u.status.fault = false := h.fault_cases.elim (fun hkept => hkept.1.trans hs) And.left
    exact absurd (hu.symm.trans ht) Bool.false_ne_true

/-! ### Prerequisites -/

/-- The prerequisite of a command is the "req" column of R45. -/
theorem mem_reqColumn (i : Instr) {n : Nat} (hn : n < 32) :
    ((n, true) ∈ reqColumn i ↔ (reqOf i).need.getLsbD n = true) ∧
      ((n, false) ∈ reqColumn i ↔ (reqOf i).clear.getLsbD n = true) := by
  revert n
  cases i
  all_goals
    dsimp only [reqColumn, reqOf, reqSink, reqCode, reqEnc, reqHdr, reqDec]
    decide

theorem seqMask_reqOf_getLsbD (i : Instr) (s : State) {n : Nat} (hn : n < 32) :
    (seqMask (reqOf i) s).getLsbD n = true ↔ ∃ b, (n, b) ∈ reqColumn i ∧ s.statusWord.getLsbD n ≠ b := by
  obtain ⟨hneed, hclear⟩ := mem_reqColumn i hn
  rw [seqMask_getLsbD _ _ n hn, Bool.exists_bool, hneed, hclear]
  cases s.statusWord.getLsbD n <;> simp

/-- Settles O10: the mask of the wrong bits is the one R97 computes; with it 0 the pseudocode raises no `SEQUENCE`. -/
theorem sequenceFaultIsExact : Obligations.SequenceFaultIsExact := by
  unfold Obligations.SequenceFaultIsExact
  intro i s m _ hi hm
  obtain rfl : m = seqMask (reqOf i) s := BitVec.eq_of_getLsbD_eq fun n hn =>
    Bool.eq_iff_iff.2 ((hm n hn).trans (seqMask_reqOf_getLsbD i s hn).symm)
  rw [exec_eq_finish]
  have hends := ends_runOf hi s
  generalize runOf i s = r at hends
  cases hends with
  | sequence hmask => exact ⟨fun _ => finish_raise _ _ s, fun h0 => absurd h0 hmask⟩
  | raised hmask hcause hstate =>
    refine ⟨fun h0 => absurd hmask h0, fun _ t ht => ?_⟩
    cases ht
    exact .inr hcause.2
  | done hmask h =>
    refine ⟨fun h0 => absurd hmask h0, fun _ t ht => ?_⟩
    cases ht
    exact h.fault_cases.imp And.right fun hclear => by simp [hclear.2]

/-! ### What every command keeps -/

/-- A relation between states that taking a fault, losing the sink and the fall of `BUSY` respect. -/
structure Kept (R : State → State → Prop) : Prop where
  refl : ∀ s, R s s
  trans : ∀ {s t u}, R s t → R t u → R s u
  lose : ∀ s, R s (s.loseSink s.snkSize.toNat)
  retire : ∀ s, R s s.retire
  fault : ∀ s f, f.cause ≠ .none → R s (takeFault f s)

/-- What a sequence of commands ends in, when each of them that completes respects the relation. -/
theorem Kept.foldlM {R : State → State → Prop} (hR : Kept R) {js : List Instr}
    (hjs : ∀ j ∈ js, isMacro j = false ∧ ∀ s t, Completes j s t → R s t) {s t : State}
    (h : finish (js.foldlM (fun s j => runOf j s) s) = .next t) : R s t := by
  induction js generalizing s with
  | nil =>
    cases h
    exact hR.retire s
  | cons j js ih =>
    obtain ⟨⟨hj, hok⟩, hjs⟩ := List.forall_mem_cons.1 hjs
    rw [List.foldlM_cons] at h
    have hends := ends_runOf hj s
    generalize runOf j s = r at hends h
    cases hends with
    | sequence hmask =>
      cases h
      exact hR.fault s _ (by simp)
    | raised hmask hcause hstate =>
      cases h
      rcases hstate with rfl | ⟨-, rfl⟩
      · exact hR.fault _ _ hcause.1
      · exact hR.trans (hR.lose s) (hR.fault _ _ hcause.1)
    | done hmask hu => exact hR.trans (hok _ _ hu) (ih hjs h)

/-- What every sub-command of a command keeps, the command keeps. -/
theorem Kept.exec {R : State → State → Prop} (hR : Kept R) {i : Instr} (hok : ∀ j ∈ expansion i, ∀ s t, Completes j s t → R s t)
    {s t : State} (h : exec i s = .next t) : R s t := by
  rw [exec_eq_finish, runOf_eq_foldlM] at h
  exact hR.foldlM (fun j hj => ⟨isMacro_of_mem_expansion hj, hok j hj⟩) h

theorem not_mem_expansion {i j : Instr} (hne : j ≠ i) (hi : isMacro i = false) : j ∉ expansion i := by
  rw [isMacro_expansion hi]
  simpa using hne

/-- A register that taking a fault, losing the sink and the fall of `BUSY` leave alone. -/
theorem kept_register {α : Type} (g : State → α) (hlose : ∀ s n, g (s.loseSink n) = g s := by intros; rfl)
    (hretire : ∀ s, g s.retire = g s := by intros; rfl) (hfault : ∀ f s, g (takeFault f s) = g s := by intros; rfl) :
    Kept fun s t => g t = g s where
  refl _ := rfl
  trans h1 h2 := h2.trans h1
  lose s := hlose s _
  retire := hretire
  fault s f _ := hfault f s

/-- A flag at a value that a fault does not change. -/
theorem kept_flag (g : Status → Bool) (b : Bool) (hfault : ∀ st, g st = b → g { st with fault := true } = b) :
    Kept fun s t => g s.status = b → g t.status = b where
  refl _ := id
  trans h1 h2 := h2 ∘ h1
  lose _ := id
  retire _ := id
  fault s _ _ := hfault s.status

/-! ### The flags of STATUS (R26) -/

/-- Each flag that is 1 in `t` was 1 in `s`, or `j` is a command that the flag table names for it. -/
structure FlagsSet (j : Instr) (s t : State) : Prop where
  codeV : t.status.codeV = true → s.status.codeV = true ∨ j = .cbBuild
  dtblV : t.status.dtblV = true → s.status.dtblV = true ∨ j = .decTbl
  snkV : t.status.snkV = true → s.status.snkV = true ∨ j = .encAlloc ∨ j = .decAlloc
  snkDec : t.status.snkDec = true → s.status.snkDec = true ∨ j = .decAlloc
  hdrV : t.status.hdrV = true → s.status.hdrV = true ∨ j = .decHdr
  expanded : t.status.expanded = true → s.status.expanded = true ∨ j = .encAlloc
  cmdDropped : t.status.cmdDropped = true → s.status.cmdDropped = true ∨ False

theorem Completes.flagsSet {j : Instr} {s t : State} (h : Completes j s t) : FlagsSet j s t := by
  cases h <;> constructor <;> simp +contextual [State.reset]

/-- The flags that only `SRST` clears. -/
theorem Completes.flag_kept {j : Instr} {s t : State} (h : Completes j s t) (hj : j ≠ .srst) :
    (s.status.hdrV = true → t.status.hdrV = true) ∧ (s.status.snkV = true → t.status.snkV = true) ∧
    (s.status.cmdDropped = true → t.status.cmdDropped = true) ∧ (s.status.fault = true → t.status.fault = true) := by
  cases h
  case srst => exact absurd rfl hj
  all_goals simp

/-- A command that sets a flag has a sub-command that sets it. -/
theorem exists_setter {g : Status → Bool} (hg : ∀ st, g { st with fault := true } = g st) {sets : Instr → Prop}
    (hsets : ∀ {j s t}, Completes j s t → g t.status = true → g s.status = true ∨ sets j) {i : Instr} {s t : State}
    (h : exec i s = .next t) (hs : g s.status = false) (ht : g t.status = true) : ∃ j ∈ expansion i, sets j := by
  by_contra hnone
  push Not at hnone
  have hkept := (kept_flag g false fun st hst => (hg st).trans hst).exec (fun j hj s t hc hs => ?_) h
  · exact Bool.false_ne_true ((hkept hs).symm.trans ht)
  · by_contra ht
    exact (hsets hc (by simpa using ht)).elim (by simp [hs]) (hnone j hj)

/-- A sub-command of a command is the command itself, unless this is a macro (R100). -/
theorem eq_or_isMacro_of_mem_expansion {i j : Instr} (h : j ∈ expansion i) : i = j ∨ isMacro i = true := by
  cases hi : isMacro i with
  | false =>
    rw [isMacro_expansion hi, List.mem_singleton] at h
    exact .inl h.symm
  | true => exact .inr rfl

/-- A command with an operand is no sub-command of a macro (R100). -/
theorem eq_of_mem_expansion {i j : Instr} (h : j ∈ expansion i) (hj : formatOf j ≠ .c0) : i = j := by
  refine (eq_or_isMacro_of_mem_expansion h).resolve_right fun hi => hj ?_
  cases i
  case encode | encodep | decode | decodep =>
    simp only [expansion, List.mem_cons, List.not_mem_nil, or_false] at h
    rcases h with rfl | rfl | rfl | rfl | rfl | rfl <;> rfl
  all_goals cases hi

theorem srst_not_mem_expansion {i : Instr} (h : i ≠ .srst) : .srst ∉ expansion i := by
  cases i <;> simp [expansion] at h ⊢

/-- Settles O22: a command that sets a flag has a sub-command that the flag table names for it (R26), and a flag that only `SRST` clears
stays where there is none. -/
theorem statusFlagsAreSetOnlyByTheirCommands : Obligations.StatusFlagsAreSetOnlyByTheirCommands := by
  unfold Obligations.StatusFlagsAreSetOnlyByTheirCommands
  intro i s t h
  refine ⟨fun hs ht => ?_, fun hs ht => ?_, fun hs ht => ?_, fun hs ht => ?_, fun hs ht => ?_, fun hs ht => ?_, fun hs => ?_,
    fun hi => ⟨?_, ?_, ?_, ?_⟩⟩
  · obtain ⟨_, hj, rfl⟩ := exists_setter (fun _ => rfl) (fun hc => hc.flagsSet.codeV) h hs ht
    exact eq_or_isMacro_of_mem_expansion hj
  · obtain ⟨_, hj, rfl⟩ := exists_setter (fun _ => rfl) (fun hc => hc.flagsSet.dtblV) h hs ht
    cases i <;> simp [expansion] at hj ⊢
  · obtain ⟨_, hj, rfl | rfl⟩ := exists_setter (fun _ => rfl) (fun hc => hc.flagsSet.snkV) h hs ht
    · exact (eq_or_isMacro_of_mem_expansion hj).imp_right .inr
    · exact .inr (eq_or_isMacro_of_mem_expansion hj)
  · obtain ⟨_, hj, rfl⟩ := exists_setter (fun _ => rfl) (fun hc => hc.flagsSet.snkDec) h hs ht
    cases i <;> simp [expansion] at hj ⊢
  · obtain ⟨_, hj, rfl⟩ := exists_setter (fun _ => rfl) (fun hc => hc.flagsSet.hdrV) h hs ht
    cases i <;> simp [expansion] at hj ⊢
  · obtain ⟨_, hj, rfl⟩ := exists_setter (fun _ => rfl) (fun hc => hc.flagsSet.expanded) h hs ht
    cases i <;> simp [expansion] at hj ⊢
  · by_contra ht
    obtain ⟨_, -, hnone⟩ := exists_setter (sets := fun _ => False) (fun _ => rfl) (fun hc => hc.flagsSet.cmdDropped) h hs
      (by simpa using ht)
    exact hnone
  all_goals
    refine Kept.exec (kept_flag _ true fun _ h => by first | exact h | rfl) (fun j hj s t hc => ?_) h
    have hkept := hc.flag_kept fun e => srst_not_mem_expansion hi (e ▸ hj)
    tauto

/-! ### Registers -/

/-- Settles O23: no effect of a command writes SRC or the parameters, and each of the other registers is written by the commands named
alone. -/
theorem commandsLeaveOthersRegistersAlone : Obligations.CommandsLeaveOthersRegistersAlone := by
  unfold Obligations.CommandsLeaveOthersRegistersAlone
  intro i s t h
  refine ⟨?_, ?_, fun hsrst => ⟨?_, ?_⟩, fun hsrst _ hlen hldc => ?_, fun hsrst hhdr hdec hdecp => ?_⟩
  · exact (kept_register State.src).exec (fun j _ s t hc => by cases hc <;> rfl) h
  · exact (kept_register State.params).exec (fun j _ s t hc => by cases hc <;> rfl) h
  · refine (kept_register State.srcSize).exec (fun j hj s t hc => ?_) h
    cases hc
    case srst => exact absurd hj (srst_not_mem_expansion hsrst)
    all_goals rfl
  · refine (kept_register State.snkCap).exec (fun j hj s t hc => ?_) h
    cases hc
    case srst => exact absurd hj (srst_not_mem_expansion hsrst)
    all_goals rfl
  · refine (kept_register State.bv).exec (fun j hj s t hc => ?_) h
    cases hc
    case srst => exact absurd hj (srst_not_mem_expansion hsrst)
    case bvZero len _ => exact absurd (eq_of_mem_expansion hj (by simp [formatOf])) (hlen len).1
    case bvNext len _ _ _ => exact absurd (eq_of_mem_expansion hj (by simp [formatOf])) (hlen len).2
    case bvLdc v => exact absurd (eq_of_mem_expansion hj (by simp [formatOf])) (hldc v)
    all_goals rfl
  · refine (kept_register State.orig).exec (fun j hj s t hc => ?_) h
    cases hc
    case srst => exact absurd hj (srst_not_mem_expansion hsrst)
    case decHdr => exact absurd hj (by cases i <;> simp [expansion] at hhdr hdec hdecp ⊢)
    all_goals rfl

/-! ### The sink -/

/-- The commands that change `SNK_SIZE` (R32). -/
def sizesSink : Instr → Bool
  | .srst | .encAlloc | .decAlloc => true
  | _ => false

theorem Completes.snkSize_eq {j : Instr} {s t : State} (h : Completes j s t) (hj : sizesSink j = false) : t.snkSize = s.snkSize := by
  cases h
  case srst | encAlloc | decAlloc => cases hj
  all_goals rfl

/-- A command that completes changes no byte of SNK beyond the region it found and the one it leaves (R64). -/
theorem Completes.read_snk {j : Instr} {s t : State} (h : Completes j s t) {a : Nat} (hs : s.snkSize.toNat ≤ a)
    (ht : t.snkSize.toNat ≤ a) : t.snk.read a = s.snk.read a := by
  have hwrites : ∀ {ops : List MemOp}, (∀ o ∈ ops, o.addr < s.snkSize.toNat) → (applyOps s.snk ops).read a = s.snk.read a :=
    fun hops => read_applyOps_of_not_touched fun o ho => ((hops o ho).trans_le hs).ne
  cases h
  case encAlloc need _ _ hcap =>
    have hneed : (low32 need).toNat = need := (BitVec.toNat_ofNat _ _).trans (Nat.mod_eq_of_lt (hcap.trans_lt s.snkCap.isLt))
    rw [allocEnc_snkSize, hneed] at ht
    rw [allocEnc_snk, Mem.read_zeroBelow, if_neg (Nat.not_lt_of_le ht)]
  case decAlloc =>
    rw [allocDec_snkSize] at ht
    rw [allocDec_snk, Mem.read_zeroBelow, if_neg (Nat.not_lt_of_le ht)]
  case writeSink hops => exact hwrites hops
  case put hops => exact hwrites hops
  case get hops _ => exact hwrites hops
  all_goals rfl

/-- The same of a sequence of commands of which at most one changes `SNK_SIZE`. -/
theorem read_snk_foldlM {js : List Instr} (hjs : ∀ j ∈ js, isMacro j = false)
    (hone : js.Pairwise fun i j => sizesSink i = false ∨ sizesSink j = false) {s t : State}
    (h : finish (js.foldlM (fun s j => runOf j s) s) = .next t) :
    ((∀ j ∈ js, sizesSink j = false) → t.snkSize = s.snkSize) ∧
      ∀ a, s.snkSize.toNat ≤ a → t.snkSize.toNat ≤ a → t.snk.read a = s.snk.read a := by
  induction js generalizing s with
  | nil =>
    cases h
    exact ⟨fun _ => rfl, fun _ _ _ => rfl⟩
  | cons j js ih =>
    obtain ⟨hj, hjs⟩ := List.forall_mem_cons.1 hjs
    obtain ⟨hrest, hone⟩ := List.pairwise_cons.1 hone
    rw [List.foldlM_cons] at h
    have hends := ends_runOf hj s
    generalize runOf j s = r at hends h
    cases hends with
    | sequence hmask =>
      cases h
      exact ⟨fun _ => rfl, fun _ _ _ => rfl⟩
    | raised hmask hcause hstate =>
      cases h
      rcases hstate with rfl | ⟨-, rfl⟩
      · exact ⟨fun _ => rfl, fun _ _ _ => rfl⟩
      · refine ⟨fun _ => rfl, fun a hs _ => ?_⟩
        rw [takeFault_snk, loseSink_snk, Mem.read_fillBelow, if_neg (Nat.not_lt_of_le hs)]
    | @done hmask u hu =>
      obtain ⟨hsize, hread⟩ := ih hjs hone h
      refine ⟨fun hnone => ?_, fun a hs ht => ?_⟩
      · obtain ⟨hj0, hjs0⟩ := List.forall_mem_cons.1 hnone
        exact (hsize hjs0).trans (hu.snkSize_eq hj0)
      · have hmid : u.snkSize.toNat ≤ a := by
          by_cases hj0 : sizesSink j = true
          · rw [← hsize fun k hk => (hrest k hk).resolve_left (by simp [hj0])]
            exact ht
          · rw [hu.snkSize_eq (by simpa using hj0)]
            exact hs
        exact (hread a hmid ht).trans (hu.read_snk hs hmid)

/-- Settles O25: each access lies in the region, and no command allocates the sink twice. -/
theorem sinkIsChangedOnlyBelowItsSize : Obligations.SinkIsChangedOnlyBelowItsSize := by
  unfold Obligations.SinkIsChangedOnlyBelowItsSize
  intro i s t a h hs ht
  rw [exec_eq_finish, runOf_eq_foldlM] at h
  have hone : (expansion i).Pairwise fun i j => sizesSink i = false ∨ sizesSink j = false := by
    cases i <;> simp [expansion, sizesSink]
  exact (read_snk_foldlM (fun j => isMacro_of_mem_expansion) hone h).2 a hs ht

end Sys2Proof.Machine
end

section
/-! PROOFS. The invariant (O20, O21): every effect of a command keeps every field legal and the tables what their flags say, taking a fault
and the fall of `BUSY` do, and so does every move of the host. -/

namespace Sys2Proof.Machine

/-! ### Legality -/

theorem addr_lt_two_pow {s : State} {ops : List MemOp} (h : ∀ o ∈ ops, o.addr < s.snkSize.toNat) : ∀ o ∈ ops, o.addr < 2 ^ 32 :=
  fun o ho => (h o ho).trans s.snkSize.isLt

theorem ofNat_nine_le {n : Nat} (h : n ≤ 256) : (BitVec.ofNat 9 n).toNat ≤ 256 :=
  (BitVec.toNat_ofNat n 9).trans_le ((Nat.mod_le _ _).trans h)

theorem resetRegs_legal {s : State} (hsrc : s.src.wf) (hsnk : s.snk.wf) (hp : s.params.legal) : s.resetRegs.Legal where
  src := hsrc
  snk := hsnk
  params := hp
  bv := bvZero_wf (len := 0) (Nat.zero_le _)
  lens := by simp [State.reset]
  code v := by
    rw [resetRegs_code, State.reset, Table.at_replicate]
    exact bvZero_wf (len := 0) (Nat.zero_le _)
  codeLen := by simp [State.reset]
  kraft := by simp [State.reset]
  dtbl := by simp [State.reset]
  dtblV := by simp [State.reset]
  nsym := by simp [State.reset]
  encSink := by simp [State.reset]
  decSink := by simp [State.reset]
  outpos := by simp [State.reset]
  noFault := by simp [State.reset]
  fault := by simp [State.reset]
  running := by simp [State.reset]

/-- Every entry the fill loop writes has the length of a code (R202). -/
theorem fillTable_len_le {code : Table BV} {n : Nat} (hcode : ∀ v, (code.at v).len.toNat ≤ n) {cs : List Byte} {t : Table DEntry}
    (ht : ∀ w, (t.at w).len.toNat ≤ n) (w : Byte) : ((fillTable code cs t).at w).len.toNat ≤ n := by
  have hfill : ∀ {t : Table DEntry} {lo hi : Nat} {c : Byte}, (∀ w, (t.at w).len.toNat ≤ n) →
      ∀ w, ((fillEntries t lo hi ⟨c, (code.at c).len⟩).at w).len.toNat ≤ n := fun ht w => by
    rw [fillEntries, Table.at_ofFn]
    split
    · exact hcode _
    · exact ht w
  induction cs, t using fillTable.induct code with
  | case1 t => exact ht w
  | case2 c t => exact hfill ht w
  | case3 c c' cs t ih => exact ih (hfill ht)

/-- An effect of a command keeps every field legal. -/
theorem Completes.legal {j : Instr} {s t : State} (h : Completes j s t) (hs : s.Legal) : t.Legal := by
  cases h
  case nop => exact hs
  case srst => exact resetRegs_legal hs.src hs.snk hs.params
  case bvZero hlen => exact { hs with bv := bvZero_wf hlen }
  case bvNext hlen hb => exact { hs with bv := bvNext_wf hlen hb }
  case bvLdc v => exact { hs with bv := hs.code v }
  case count => exact { hs with }
  case pmRun ht hn =>
    exact { hs with lens := ht, nsym := ofNat_nine_le hn, codeLen := nofun, kraft := nofun, dtblV := nofun }
  case cbBuild hn hk ht =>
    obtain rfl := ht hs.lens
    refine { hs with
      nsym := ofNat_nine_le hn, kraft := fun _ => hk, dtblV := nofun, code := fun v => ?_, codeLen := fun _ v => ?_ }
    · rw [setCode_code, Table.at_ofFn]
      exact canonicalCode_wf hs.lens hk v
    · rw [setCode_code, Table.at_ofFn]
      exact BitVec.eq_of_toNat_eq (canonicalCode_len (hs.lens v))
  case encAlloc need _ hhdr hcap =>
    have hneed : (low32 need).toNat = need := (BitVec.toNat_ofNat _ _).trans (Nat.mod_eq_of_lt (hcap.trans_lt s.snkCap.isLt))
    exact { hs with
      snk := Mem.zeroBelow_wf hs.snk _, encSink := fun _ _ => hhdr.trans_eq hneed.symm, decSink := nofun, outpos := nofun }
  case writeSink hops => exact { hs with snk := applyOps_wf hs.snk (addr_lt_two_pow hops) }
  case put hops => exact { hs with snk := applyOps_wf hs.snk (addr_lt_two_pow hops) }
  case decHdr ht hn =>
    exact { hs with
      lens := ht, nsym := ofNat_nine_le hn, codeLen := nofun, kraft := nofun, dtblV := nofun
      decSink := fun hdec => ⟨(hs.decSink hdec).1, rfl⟩ }
  case decTbl hcodeV hshort =>
    exact { hs with dtbl := fillTable_len_le hshort (by simp), dtblV := fun _ => hcodeV }
  case decAlloc hhdrV _ =>
    exact { hs with
      snk := Mem.zeroBelow_wf hs.snk _, encSink := nofun, decSink := fun _ => ⟨rfl, hhdrV⟩, outpos := fun _ => Nat.zero_le _ }
  case get hops hout =>
    exact { hs with
      snk := applyOps_wf hs.snk (addr_lt_two_pow hops)
      outpos := fun _ => (BitVec.toNat_ofNat _ _).trans_le ((Nat.mod_le _ _).trans hout) }

/-! ### The tables and their flags -/

/-- The part of the invariant that concerns the valid flags (R26). -/
structure State.TablesTrue (s : State) : Prop where
  codeBuilt : s.status.codeV = true → ∀ v, s.code.at v = canonicalCode s.lenOf v
  dtblBuilt : s.status.dtblV = true → ∀ v w : Byte, s.lenOf v ≠ 0 →
    w.toNat / 2 ^ (Config.windowBits - s.lenOf v) = (s.code.at v).val.toNat → s.dtbl.at w = ⟨v, s.lens.at v⟩
  dtblShort : s.status.dtblV = true → ∀ v, s.lenOf v ≤ Config.windowBits
  dtblEmpty : s.status.dtblV = true → present s.lenOf = [] → ∀ w, s.dtbl.at w = ⟨0, 0⟩

theorem inv_iff {s : State} : s.Inv ↔ s.Legal ∧ s.TablesTrue :=
  ⟨fun h => ⟨h.toLegal, h.codeBuilt, h.dtblBuilt, h.dtblShort, h.dtblEmpty⟩, fun ⟨hl, ht⟩ =>
    { hl with codeBuilt := ht.codeBuilt, dtblBuilt := ht.dtblBuilt, dtblShort := ht.dtblShort, dtblEmpty := ht.dtblEmpty }⟩

theorem tablesTrue_of_flags {s : State} (hcode : s.status.codeV = false) (hdtbl : s.status.dtblV = false) : s.TablesTrue := by
  constructor <;> simp [hcode, hdtbl]

/-- `DEC.TBL` makes of the code of `LEN` the table that R26 asks for (R202, R205). -/
theorem setDtbl_tablesTrue {s : State} (hs : s.Legal) (hcodeV : s.status.codeV = true)
    (hbuilt : ∀ v, s.code.at v = canonicalCode s.lenOf v) (hshort : ∀ v, s.codeLenOf v ≤ 8) :
    (s.setDtbl (fillTable s.code (canonicalOrder s.codeLenOf) (Table.const ⟨0, 0⟩))).TablesTrue := by
  have hlen : s.codeLenOf = s.lenOf := funext fun v => congrArg BitVec.toNat (hs.codeLen hcodeV v)
  have hcode : s.code = Table.ofFn (canonicalCode s.lenOf) := Table.ext fun v => by rw [Table.at_ofFn, hbuilt v]
  rw [hlen] at hshort ⊢
  refine ⟨fun _ => hbuilt, fun _ v w hv hw => ?_, fun _ => hshort, fun _ hnone w => ?_⟩
  · rw [setDtbl_code, hbuilt v] at hw
    rw [setDtbl_dtbl, hcode, fillTable_canonicalCode_at hshort (hs.kraft hcodeV) hv hw, ← hbuilt v, hs.codeLen hcodeV v]
    rfl
  · have hempty : canonicalOrder s.lenOf = [] := (hnone ▸ canonicalOrder_perm s.lenOf).eq_nil
    rw [setDtbl_dtbl, hempty]
    exact Table.at_const _ w

/-- An effect of a command keeps the tables what their flags say. -/
theorem Completes.tablesTrue {j : Instr} {s t : State} (h : Completes j s t) (hs : s.Inv) : t.TablesTrue := by
  have htrue := (inv_iff.1 hs).2
  cases h
  case srst | pmRun | decHdr => exact tablesTrue_of_flags rfl rfl
  case cbBuild ht =>
    obtain rfl := ht hs.lens
    exact ⟨fun _ => Table.at_ofFn _, nofun, nofun, nofun⟩
  case decTbl hcodeV hshort => exact setDtbl_tablesTrue hs.toLegal hcodeV (hs.codeBuilt hcodeV) hshort
  all_goals exact { htrue with }

/-- The step from `s` to `t` keeps legality, and with it the invariant. -/
def KeepsInvariant (s t : State) : Prop := (s.Legal → t.Legal) ∧ (s.Inv → t.Inv)

theorem keepsInvariant_of_tables {s t : State} (hlegal : s.Legal → t.Legal) (htables : s.Inv → t.TablesTrue) : KeepsInvariant s t :=
  ⟨hlegal, fun hs => inv_iff.2 ⟨hlegal hs.toLegal, htables hs⟩⟩

theorem kept_invariant : Kept KeepsInvariant where
  refl _ := ⟨id, id⟩
  trans h1 h2 := ⟨h2.1 ∘ h1.1, h2.2 ∘ h1.2⟩
  lose s := keepsInvariant_of_tables (fun hs => { hs with snk := Mem.fillBelow_wf hs.snk s.snkSize.isLt.le _ }) fun hs => { hs with }
  retire _ := keepsInvariant_of_tables (fun hs => { hs with running := nofun }) fun hs => { hs with }
  fault _ _ hf := keepsInvariant_of_tables
    (fun hs => { hs with noFault := nofun, fault := fun _ => hf, running := nofun }) fun hs => { hs with }

theorem exec_keepsInvariant {i : Instr} {s t : State} (h : exec i s = .next t) : KeepsInvariant s t :=
  kept_invariant.exec (fun _ _ _ _ hc => keepsInvariant_of_tables hc.legal hc.tablesTrue) h

/-! ### The moves of the host -/

theorem resetRegs_keepsInvariant {s t : State} (h : s.Legal → t.src.wf ∧ t.snk.wf ∧ t.params.legal) :
    KeepsInvariant s t.resetRegs :=
  keepsInvariant_of_tables (fun hs => (h hs).elim fun hsrc hrest => resetRegs_legal hsrc hrest.1 hrest.2) fun _ =>
    tablesTrue_of_flags rfl rfl

theorem runWord_keepsInvariant {w : Word} {s t : State} (h : runWord w s = .next t) : KeepsInvariant s t := by
  unfold runWord at h
  split at h
  · exact exec_keepsInvariant h
  · cases h
    exact kept_invariant.fault s _ (by simp)

/-- When a word is accepted (R91). -/
theorem accepts_iff {w : Word} {s : State} :
    s.accepts w = true ↔ s.running = none ∧ (s.status.fault = false ∨ w = encode .srst) := by
  simp [State.accepts]

/-- In the fault state only the `SRST` word is accepted (R91). -/
theorem accept_keepsInvariant {w : Word} {s : State} (h : s.accepts w = true) : KeepsInvariant s (s.accept w) := by
  refine keepsInvariant_of_tables (fun hs => { hs with running := fun v hv hf => ?_ }) fun hs => { hs with }
  obtain rfl : w = v := Option.some.inj hv
  exact (accepts_iff.1 h).2.resolve_left fun h0 => Bool.false_ne_true (h0.symm.trans hf)

theorem dropCmd_keepsInvariant (s : State) : KeepsInvariant s s.dropCmd :=
  keepsInvariant_of_tables (fun hs => { hs with }) fun hs => { hs with }

theorem issue_keepsInvariant {w : Word} {s t : State} (h : issue w s = .next t) : KeepsInvariant s t := by
  unfold issue at h
  split at h
  · next ha => exact kept_invariant.trans (accept_keepsInvariant ha) (runWord_keepsInvariant h)
  · cases h
    exact dropCmd_keepsInvariant s

/-- A write to a register stores a legal value, and a write to `LEN` clears the flags of the tables (R42). -/
theorem writeReg_keepsInvariant (s : State) (r : Reg) (x : Word) : KeepsInvariant s (s.writeReg r x) := by
  cases r
  case len v =>
    simp only [State.writeReg]
    split
    · next hx =>
      refine keepsInvariant_of_tables (fun hs => { hs with
        codeLen := nofun, kraft := nofun, dtblV := nofun, lens := fun u => ?_ }) fun _ => tablesTrue_of_flags rfl rfl
      show ((s.lens.put v (x.truncate 5)).at u).toNat ≤ 16
      rw [Table.at_put]
      split
      · exact (BitVec.toNat_setWidth _ _).trans_le ((Nat.mod_le _ _).trans hx)
      · exact hs.lens u
    · exact kept_invariant.refl s
  all_goals exact keepsInvariant_of_tables (fun hs => { hs with }) fun hs => { hs with }

theorem portWrite_keepsInvariant {addr : BitVec 13} {x : Word} {s t : State} (h : portWrite addr x s = .next t) :
    KeepsInvariant s t := by
  unfold portWrite at h
  split at h
  · exact issue_keepsInvariant h
  · split at h
    all_goals cases h
    · exact kept_invariant.refl s
    · exact writeReg_keepsInvariant s _ x

theorem portRead_keepsInvariant (s : State) (addr : BitVec 13) : KeepsInvariant s (s.portRead addr) := by
  unfold State.portRead
  split
  all_goals exact keepsInvariant_of_tables (fun hs => { hs with }) fun hs => { hs with }

/-- The region a reset aborts lies inside the 32-bit space. -/
theorem sinkAtRisk_le (s : State) : s.sinkAtRisk ≤ 2 ^ 32 := by
  unfold State.sinkAtRisk
  repeat' split
  all_goals first
    | exact Nat.zero_le _
    | exact s.snkSize.isLt.le
    | exact max_le s.snkSize.isLt.le (BitVec.isLt _).le

theorem hardReset_keepsInvariant (s : State) : KeepsInvariant s s.hardReset := by
  unfold State.hardReset
  split
  · exact resetRegs_keepsInvariant fun hs => ⟨hs.src, hs.snk, hs.params⟩
  · exact resetRegs_keepsInvariant fun hs => ⟨hs.src, Mem.fillBelow_wf hs.snk (sinkAtRisk_le s) _, hs.params⟩

theorem whenIdle_eq_next {s t u : State} (h : whenIdle s t = .next u) : u = t := by
  unfold whenIdle at h
  split at h <;> cases h
  rfl

theorem hostMove_keepsInvariant {m : HostMove} {s t : State} (h : hostMove m s = .next t) : KeepsInvariant s t := by
  cases m with
  | write addr x => exact portWrite_keepsInvariant h
  | start w =>
    cases h
    unfold start
    split
    · next ha => exact accept_keepsInvariant ha
    · exact dropCmd_keepsInvariant s
  | wait =>
    simp only [hostMove, complete] at h
    split at h
    · exact runWord_keepsInvariant h
    · cases h
      exact kept_invariant.refl s
  | read addr =>
    cases h
    exact portRead_keepsInvariant s addr
  | srcWrite a b =>
    obtain rfl := whenIdle_eq_next h
    exact keepsInvariant_of_tables (fun hs => { hs with src := Mem.write_wf hs.src a.isLt b }) fun hs => { hs with }
  | snkWrite a b =>
    obtain rfl := whenIdle_eq_next h
    exact keepsInvariant_of_tables (fun hs => { hs with snk := Mem.write_wf hs.snk a.isLt b }) fun hs => { hs with }
  | srcRead a | snkRead a =>
    obtain rfl := whenIdle_eq_next h
    exact keepsInvariant_of_tables (fun hs => { hs with }) fun hs => { hs with }
  | hardReset =>
    cases h
    exact hardReset_keepsInvariant s
  | schedule sch =>
    cases h
    exact keepsInvariant_of_tables (fun hs => { hs with }) fun hs => { hs with }

theorem popHost_keepsInvariant (s : State) (rest : List HostMove) : KeepsInvariant s (s.popHost rest) :=
  keepsInvariant_of_tables (fun hs => { hs with }) fun hs => { hs with }

/-- Settles O21: a step is a move of the host, and each of them keeps every field legal and the tables what their flags say. -/
theorem everyStepKeepsTheInvariant : Obligations.EveryStepKeepsTheInvariant := by
  unfold Obligations.EveryStepKeepsTheInvariant
  intro s t h
  unfold step at h
  split at h
  · cases h
    exact kept_invariant.refl s
  · exact kept_invariant.trans (popHost_keepsInvariant s _) (hostMove_keepsInvariant h)

/-- Settles O20: the state after reset is one that a reset leaves. -/
theorem resetMeetsTheInvariant : Obligations.ResetMeetsTheInvariant := by
  unfold Obligations.ResetMeetsTheInvariant
  have hlegal : State.reset.resetRegs.Legal := resetRegs_legal Mem.wf_nil Mem.wf_nil (by decide)
  exact inv_iff.2 ⟨hlegal, tablesTrue_of_flags rfl rfl⟩

end Sys2Proof.Machine
end

section
/-! PROOFS. The moves of the host: command issue (O5 to O8, O26), what a step can refuse (O11), the register port (O13 to O15), the
accesses to the memories (O16), and the resets (O17 to O19). -/

namespace Sys2Proof.Machine

/-! ### Register addresses (R24) -/

/-- An address names a register by its word index alone (R23). -/
theorem regAt_eq {addr b : BitVec 13} {r : Reg} (hb : regAt b = r) (h : addr.toNat / 4 = b.toNat / 4) : regAt addr = r := by
  rw [← hb, regAt, h, regAt]

theorem regAt_cmd {addr : BitVec 13} (h : addr.toNat / 4 = 4) : regAt addr = .cmd := regAt_eq (b := 16) rfl h

theorem regAt_status {addr : BitVec 13} (h : addr.toNat / 4 = 1) : regAt addr = .status := regAt_eq (b := 4) rfl h

theorem regAt_ne_cmd {addr : BitVec 13} (h : addr.toNat / 4 ≠ 4) : regAt addr ≠ .cmd := by
  intro hr
  unfold regAt at hr
  dsimp only at hr
  repeat' split at hr
  all_goals first
    | exact h ‹addr.toNat / 4 = 4›
    | cases hr

theorem regAt_ne_id {addr : BitVec 13} (h : addr.toNat / 4 ≠ 0) : regAt addr ≠ .id := by
  intro hr
  unfold regAt at hr
  dsimp only at hr
  repeat' split at hr
  all_goals first
    | exact h ‹addr.toNat / 4 = 0›
    | cases hr

/-- The entries of the tables lie 256 words apart (R24). -/
theorem ofNat_tableIndex (k : Nat) (v : Byte) : BitVec.ofNat 8 (0x100 * k + v.toNat) = v := by
  refine BitVec.eq_of_toNat_eq ?_
  have := v.isLt
  rw [BitVec.toNat_ofNat]
  omega

section
variable {addr : BitVec 13} {v : Byte}

theorem regAt_freq (h : addr.toNat / 4 = 0x100 + v.toNat) : regAt addr = .freq v := by
  have := v.isLt
  unfold regAt
  rw [h, if_neg (by omega), if_pos (by omega)]
  exact congrArg Reg.freq (ofNat_tableIndex 1 v)

theorem regAt_len (h : addr.toNat / 4 = 0x200 + v.toNat) : regAt addr = .len v := by
  have := v.isLt
  unfold regAt
  rw [h, if_neg (by omega), if_neg (by omega), if_pos (by omega)]
  exact congrArg Reg.len (ofNat_tableIndex 2 v)

theorem regAt_code (h : addr.toNat / 4 = 0x300 + v.toNat) : regAt addr = .code v := by
  have := v.isLt
  unfold regAt
  rw [h, if_neg (by omega), if_neg (by omega), if_neg (by omega), if_pos (by omega)]
  exact congrArg Reg.code (ofNat_tableIndex 3 v)

theorem regAt_dtbl (h : addr.toNat / 4 = 0x400 + v.toNat) : regAt addr = .dtbl v := by
  have := v.isLt
  unfold regAt
  rw [h, if_neg (by omega), if_neg (by omega), if_neg (by omega), if_neg (by omega), if_pos (by omega)]
  exact congrArg Reg.dtbl (ofNat_tableIndex 4 v)

end

theorem regAt_reserved {addr : BitVec 13} (h : (17 ≤ addr.toNat / 4 ∧ addr.toNat / 4 < 0x100) ∨ 0x500 ≤ addr.toNat / 4) :
    regAt addr = .reserved := by
  unfold regAt
  generalize addr.toNat / 4 = n at h
  dsimp only
  split
  · split
    all_goals first
      | rfl
      | omega
  · rw [if_neg (by omega), if_neg (by omega), if_neg (by omega), if_neg (by omega)]

/-! ### The images of fields in their words -/

/-- Two fields side by side. -/
theorem toNat_append_eq {m n : Nat} (a : BitVec m) (b : BitVec n) : (a ++ b).toNat = a.toNat * 2 ^ n + b.toNat := by
  rw [BitVec.toNat_append, ← Nat.shiftLeft_add_eq_or_of_lt b.isLt, Nat.shiftLeft_eq]

/-- Two fields side by side, zero-extended to a word (R36, R43, R44, R27). -/
theorem toNat_append_zeroExtend {m n : Nat} (a : BitVec m) (b : BitVec n) (h : m + n ≤ 32) :
    ((a ++ b).zeroExtend 32).toNat = a.toNat * 2 ^ n + b.toNat :=
  (BitVec.toNat_setWidth_of_le h).trans (toNat_append_eq a b)

theorem toNat_lowWord (x : BitVec 64) : (x.extractLsb' 0 32).toNat = x.toNat % 2 ^ 32 := by
  simp

theorem toNat_highWord (x : BitVec 64) : (x.extractLsb' 32 32).toNat = x.toNat / 2 ^ 32 := by
  have := x.isLt
  rw [BitVec.extractLsb'_toNat, Nat.shiftRight_eq_div_pow, Nat.mod_eq_of_lt (by omega)]

/-- `FAULT_CAUSE` shows the numbers of R251. -/
theorem faultCause_word_mem (c : Cause) : ∃ cause sub, (c, cause, sub) ∈ causeNumbers ∧ c.word.toNat = sub * 2 ^ 8 + cause := by
  have hnumbers : (c, c.code.toNat, c.sub.toNat) ∈ causeNumbers := by
    cases c with
    | malformedHeader flaw => cases flaw <;> decide
    | _ => decide
  exact ⟨_, _, hnumbers, toNat_append_zeroExtend c.sub c.code (by norm_num)⟩

/-- Settles O14: each address names its register, and the word read is the image of its fields. -/
theorem registerMapReads : Obligations.RegisterMapReads := by
  unfold Obligations.RegisterMapReads
  intro s addr
  have named : ∀ (b : BitVec 13) {r : Reg}, regAt b = r → addr.toNat / 4 = b.toNat / 4 → s.readReg (regAt addr) = s.readReg r :=
    fun b r hb h => congrArg _ (regAt_eq hb h)
  refine ⟨named 0 rfl, fun h k hk => ?_, fun h => ?_, named 12 rfl, named 16 rfl, named 20 rfl, named 24 rfl, named 28 rfl,
    fun h => ?_, fun h => ?_, fun h => ?_, fun h => ?_, named 48 rfl, fun h => ?_, fun h => ?_, fun h => ?_, fun h => ?_,
    fun h17 h => ?_, fun v h => ?_, fun v h => ?_, fun v h => ?_, fun v h => ?_, fun h => ?_⟩
  · rw [named 4 rfl h]
    exact statusWord_getLsbD s k hk
  · rw [named 8 rfl h]
    exact faultCause_word_mem s.faultCause
  · rw [named 32 rfl h]
    exact toNat_lowWord s.orig
  · rw [named 36 rfl h]
    exact toNat_highWord s.orig
  · rw [named 40 rfl h]
    exact toNat_lowWord s.bitpos
  · rw [named 44 rfl h]
    exact toNat_highWord s.bitpos
  · rw [named 52 rfl h]
    exact toNat_append_zeroExtend s.bv.len s.bv.val (by norm_num)
  · rw [named 56 rfl h]
    exact BitVec.toNat_setWidth_of_le (by norm_num)
  · rw [named 60 rfl h]
    exact toNat_lowWord s.encBits
  · rw [named 64 rfl h]
    exact toNat_highWord s.encBits
  · rw [regAt_reserved (.inl ⟨h17, h⟩)]
    rfl
  · rw [regAt_freq h]
    rfl
  · rw [regAt_len h]
    exact BitVec.toNat_setWidth_of_le (by norm_num)
  · rw [regAt_code h]
    exact toNat_append_zeroExtend _ _ (by norm_num)
  · rw [regAt_dtbl h]
    exact toNat_append_zeroExtend _ _ (by norm_num)
  · rw [regAt_reserved (.inr h)]
    rfl

/-! ### Steps -/

/-- A step performs the host's next move (log entry 4). -/
theorem step_of_host {s : State} {m : HostMove} {rest : List HostMove} (h : s.host = m :: rest) :
    step s = hostMove m (s.popHost rest) := by
  rw [step, h]

theorem hostMove_write_cmd {addr : BitVec 13} (h : addr.toNat / 4 = 4) (w : Word) (s : State) :
    hostMove (.write addr w) s = issue w s :=
  if_pos (regAt_cmd h)

theorem hostMove_write_reg {addr : BitVec 13} (h : addr.toNat / 4 ≠ 4) (x : Word) (s : State) :
    hostMove (.write addr x) s = if s.busy ∨ s.status.fault then .next s else .next (s.writeReg (regAt addr) x) :=
  if_neg (regAt_ne_cmd h)

/-- A word written to `CMD` runs when it is accepted (R91 step 3). -/
theorem step_of_accepted {s : State} {addr : BitVec 13} {w : Word} {rest : List HostMove} (hhost : s.host = .write addr w :: rest)
    (haddr : addr.toNat / 4 = 4) (hidle : s.running = none) (hfault : s.status.fault = false ∨ w = 0x01000000) :
    step s = runWord w ((s.popHost rest).accept w) := by
  rw [step_of_host hhost, hostMove_write_cmd haddr]
  exact if_pos (accepts_iff.2 ⟨hidle, hfault⟩)

theorem runWord_of_decode {w : Word} {i : Instr} (h : decode w = .ok i) (s : State) : runWord w s = exec i s := by
  rw [runWord, h]

/-- Settles O5: the write to `CMD` is accepted, and its word is the command's. -/
theorem stepRunsTheDecodedCommand : Obligations.StepRunsTheDecodedCommand := by
  unfold Obligations.StepRunsTheDecodedCommand
  constructor
  · intro s addr w i rest hhost haddr hidle hfault hdec
    rw [step_of_accepted hhost haddr hidle hfault, runWord_of_decode hdec]
    rfl
  · intro s nbits w i hidle hfault hdec
    have hdec' : decode (BitVec.ofNat 32 (w % 2 ^ nbits)) = .ok i := by
      unfold decodeTableWord at hdec
      split at hdec
      · next hok => rw [hok, Option.some.inj hdec]
      · cases hdec
    rw [step_of_accepted (s := s.withFetchWord nbits w) rfl (by decide) hidle (.inl hfault), runWord_of_decode hdec']
    rfl

/-- Settles O6: a word that decodes is the word of a legal command. -/
theorem illegalWordRaisesIllegalCmd : Obligations.IllegalWordRaisesIllegalCmd := by
  unfold Obligations.IllegalWordRaisesIllegalCmd
  intro s addr w rest hhost haddr hidle hfault hnone
  have hrun : runWord w ((s.popHost rest).accept w) = .next (takeFault ⟨.illegalCmd, w⟩ ((s.popHost rest).accept w)) := by
    unfold runWord
    split
    · next i hdec =>
      obtain ⟨hwf, hword⟩ := encode_of_decode hdec
      exact absurd hword (hnone i hwf)
    · rfl
  rw [step_of_accepted hhost haddr hidle (.inl hfault), hrun]
  exact ⟨_, rfl, rfl⟩

/-- Settles O7: a word that is not accepted is dropped, by either move. -/
theorem droppedWordSetsOnlyCmdDropped : Obligations.DroppedWordSetsOnlyCmdDropped := by
  unfold Obligations.DroppedWordSetsOnlyCmdDropped
  intro s w rest m hm hhost hdrop
  have hnot : ¬ (s.popHost rest).accepts w = true := by
    rw [accepts_iff]
    rintro ⟨hidle, hok⟩
    rcases hdrop with ⟨v, hv⟩ | ⟨hfault, hw⟩
    · cases hidle.symm.trans hv
    · exact hok.elim (fun h0 => Bool.false_ne_true (h0.symm.trans hfault)) hw
  rw [step_of_host hhost]
  rcases hm with ⟨addr, haddr, rfl⟩ | rfl
  · rw [hostMove_write_cmd haddr]
    exact if_neg hnot
  · exact congrArg Host.Outcome.next (if_neg hnot)

/-- Settles O26: both ways the word is accepted and runs in the same state. -/
theorem startThenWaitIsOneTransition : Obligations.StartThenWaitIsOneTransition := by
  unfold Obligations.StartThenWaitIsOneTransition
  intro s w rest hhost hidle hfault
  have haccepts : (s.popHost (.wait :: rest)).accepts w = true := accepts_iff.2 ⟨hidle, hfault⟩
  refine ⟨(s.popHost (.wait :: rest)).accept w, ?_, rfl, ?_⟩
  · rw [step_of_host hhost]
    exact congrArg Host.Outcome.next (if_pos haccepts)
  · rw [step_of_accepted (s := { s with host := .write 0x010 w :: rest }) rfl (by decide) hidle hfault]
    rfl

/-- In the fault state a word is dropped, unless it is the `SRST` word, which resets the registers (R256). -/
theorem issue_of_fault {w : Word} {s : State} (hf : s.status.fault = true) :
    issue w s = .next s.dropCmd ∨ (w = 0x01000000 ∧ issue w s = .next (s.accept w).resetRegs) := by
  unfold issue
  split
  · next h =>
    obtain rfl : w = 0x01000000 := (accepts_iff.1 h).2.resolve_left fun h0 => Bool.false_ne_true (h0.symm.trans hf)
    exact .inr ⟨rfl, rfl⟩
  · exact .inl rfl

/-- Settles O8: in the fault state `SRST` is the only word that is accepted or running, and no other move writes the fault registers. -/
theorem faultStateIsLeftOnlyByReset : Obligations.FaultStateIsLeftOnlyByReset := by
  unfold Obligations.FaultStateIsLeftOnlyByReset
  intro s t hs hf h
  cases hhost : s.host with
  | nil =>
    rw [step, hhost] at h
    cases h
    exact .inl ⟨hf, rfl, rfl⟩
  | cons m rest =>
    rw [step_of_host hhost] at h
    cases m with
    | write addr w =>
      by_cases haddr : addr.toNat / 4 = 4
      · rw [hostMove_write_cmd haddr] at h
        rcases issue_of_fault (s := s.popHost rest) (w := w) hf with hdrop | ⟨rfl, hreset⟩
        · cases hdrop.symm.trans h
          exact .inl ⟨hf, rfl, rfl⟩
        · cases hreset.symm.trans h
          exact .inr ⟨rfl, _, _, rfl, .inr (.inr ⟨addr, haddr, rfl⟩)⟩
      · rw [hostMove_write_reg haddr, if_pos (.inr hf)] at h
        cases h
        exact .inl ⟨hf, rfl, rfl⟩
    | start w =>
      cases h
      unfold start
      split
      all_goals exact .inl ⟨hf, rfl, rfl⟩
    | wait =>
      cases hrun : s.running with
      | none =>
        simp only [hostMove, complete, popHost_running, hrun] at h
        cases h
        exact .inl ⟨hf, rfl, rfl⟩
      | some w =>
        obtain rfl := hs.running w hrun hf
        simp only [hostMove, complete, popHost_running, hrun] at h
        cases h
        exact .inr ⟨rfl, _, _, rfl, .inr (.inl ⟨rfl, rfl⟩)⟩
    | read addr =>
      cases h
      unfold State.portRead
      split
      all_goals exact .inl ⟨hf, rfl, rfl⟩
    | srcWrite a b | snkWrite a b | srcRead a | snkRead a =>
      obtain rfl := whenIdle_eq_next h
      exact .inl ⟨hf, rfl, rfl⟩
    | hardReset =>
      cases h
      refine .inr ⟨?_, _, _, rfl, .inl rfl⟩
      unfold State.hardReset
      split <;> rfl
    | schedule sch =>
      cases h
      exact .inl ⟨hf, rfl, rfl⟩

/-! ### Completion -/

theorem finish_running (r : Run) : ∃ t, finish r = .next t ∧ t.running = none := by
  cases r with
  | ok s => exact ⟨_, rfl, rfl⟩
  | error e => exact ⟨_, rfl, rfl⟩

theorem exec_completes (i : Instr) (s : State) : ∃ t, exec i s = .next t ∧ t.running = none := by
  rw [exec_eq_finish]
  exact finish_running _

theorem runWord_completes (w : Word) (s : State) : ∃ t, runWord w s = .next t := by
  unfold runWord
  split
  · exact (exec_completes _ s).imp fun _ => And.left
  · exact ⟨_, rfl⟩

theorem whenIdle_cases (s t : State) :
    (∃ u, whenIdle s t = .next u) ∨ (whenIdle s t = .refused .hostMemoryAccessWhileBusy ∧ ∃ w, s.running = some w) := by
  unfold whenIdle
  split
  · next h => exact .inr ⟨rfl, Option.isSome_iff_exists.1 h⟩
  · exact .inl ⟨t, rfl⟩

theorem issue_completes (w : Word) (s : State) : ∃ t, issue w s = .next t := by
  unfold issue
  split
  · exact runWord_completes w _
  · exact ⟨_, rfl⟩

theorem complete_completes (s : State) : ∃ t, complete s = .next t := by
  unfold complete
  split
  · exact runWord_completes _ s
  · exact ⟨s, rfl⟩

theorem hostMove_write_completes (addr : BitVec 13) (x : Word) (s : State) : ∃ t, hostMove (.write addr x) s = .next t := by
  by_cases haddr : addr.toNat / 4 = 4
  · rw [hostMove_write_cmd haddr]
    exact issue_completes x s
  · rw [hostMove_write_reg haddr]
    split
    all_goals exact ⟨_, rfl⟩

/-- Settles O11: a command ends by `BUSY` falling or by taking a fault, and only an access to a memory asks whether SHC is idle. -/
theorem everyStepCompletes : Obligations.EveryStepCompletes := by
  unfold Obligations.EveryStepCompletes
  refine ⟨exec_completes, fun s => ?_⟩
  cases hhost : s.host with
  | nil => exact .inl ⟨s, by rw [step, hhost]⟩
  | cons m rest =>
    rw [step_of_host hhost]
    cases m with
    | write addr x => exact .inl (hostMove_write_completes addr x _)
    | wait => exact .inl (complete_completes _)
    | start w => exact .inl ⟨_, rfl⟩
    | read addr => exact .inl ⟨_, rfl⟩
    | hardReset => exact .inl ⟨_, rfl⟩
    | schedule sch => exact .inl ⟨_, rfl⟩
    | srcWrite a b | snkWrite a b | srcRead a | snkRead a =>
      refine (whenIdle_cases (s.popHost rest) _).imp id fun ⟨hrefused, hbusy⟩ => ⟨hrefused, hbusy, _, _, rfl, ?_⟩
      simp

/-! ### Reads and writes of registers -/

/-- Settles O13: a read leaves the word it returns, and what a read while busy returns. -/
theorem readsChangeNoState : Obligations.ReadsChangeNoState := by
  unfold Obligations.ReadsChangeNoState
  intro s addr rest hhost
  refine ⟨(s.popHost rest).portRead addr, step_of_host hhost, ?_, fun hidle => ?_, fun haddr => ?_⟩
  · unfold State.portRead
    split <;> rfl
  · rw [State.portRead, if_neg (by simp [State.busy, hidle])]
    rfl
  · rw [State.portRead, if_neg (by simp [regAt_status haddr]), regAt_status haddr]
    rfl

/-- A write to a register that is not writable is ignored (R23 item 7, R24). -/
theorem writeReg_regAt_eq_self {addr : BitVec 13} (h : addr.toNat / 4 < 5 ∨ (6 < addr.toNat / 4 ∧ addr.toNat / 4 < 10) ∨
    (11 < addr.toNat / 4 ∧ addr.toNat / 4 < 0x100) ∨ 0x300 ≤ addr.toNat / 4) (s : State) (x : Word) :
    s.writeReg (regAt addr) x = s := by
  unfold regAt
  generalize addr.toNat / 4 = n at h
  dsimp only
  split
  · split
    all_goals first
      | rfl
      | omega
  · rw [if_neg (by omega), if_neg (by omega)]
    repeat' split
    all_goals rfl

/-- Settles O15: each address names its register, and only the writable ones store. -/
theorem portWritesStoreLegalBits : Obligations.PortWritesStoreLegalBits := by
  unfold Obligations.PortWritesStoreLegalBits
  intro s addr x rest hhost haddr
  have hstep := (step_of_host hhost).trans (hostMove_write_reg haddr x _)
  refine ⟨fun hignored => ?_, fun hidle hfault => ?_⟩
  · refine hstep.trans (if_pos (hignored.imp_left fun ⟨w, hw⟩ => ?_))
    rw [State.busy, popHost_running, hw]
    rfl
  · rw [if_neg (by simp [State.busy, hidle, hfault])] at hstep
    rw [hstep]
    refine ⟨fun h => ?_, fun h => ?_, fun h => ?_, fun h => ?_, fun v h => ?_, fun v h => ⟨fun hx => ?_, fun hx => ?_⟩, fun h => ?_⟩
    · rw [regAt_eq (b := 20) rfl h]
      rfl
    · rw [regAt_eq (b := 24) rfl h]
      rfl
    · rw [regAt_eq (b := 40) rfl h]
      exact ⟨_, rfl, by rw [toNat_append_eq, toNat_highWord, popHost_bitpos]⟩
    · rw [regAt_eq (b := 44) rfl h]
      exact ⟨_, rfl, by rw [toNat_append_eq, toNat_lowWord, popHost_bitpos]⟩
    · rw [regAt_freq h]
      exact ⟨_, rfl, fun y => Table.at_put _ v y x⟩
    · rw [regAt_len h, State.writeReg, if_pos hx]
      refine ⟨_, rfl, fun y => ?_⟩
      have hx5 : (x.truncate 5).toNat = x.toNat := (BitVec.toNat_setWidth _ _).trans (Nat.mod_eq_of_lt (by omega))
      rw [Table.at_put, apply_ite BitVec.toNat, hx5, popHost_lens]
    · rw [regAt_len h, State.writeReg, if_neg (Nat.not_le_of_lt hx)]
      rfl
    · rw [writeReg_regAt_eq_self h]
      rfl

/-! ### Accesses to the memories -/

/-- Settles O16: an idle SHC leaves the memories to the host. -/
theorem hostMemoryWrites : Obligations.HostMemoryWrites := by
  unfold Obligations.HostMemoryWrites
  intro s a b rest hs hidle
  have hgo : ∀ t, whenIdle (s.popHost rest) t = .next t := fun t => if_neg (by simp [State.busy, hidle])
  refine ⟨fun hhost => ?_, fun hhost => ?_⟩
  · exact ⟨_, (step_of_host hhost).trans (hgo _), rfl, fun k => Mem.read_write hs.src _ k b⟩
  · exact ⟨_, (step_of_host hhost).trans (hgo _), rfl, fun k => Mem.read_write hs.snk _ k b⟩

/-! ### Reset -/

/-- Every register but `ID` is 0 after reset (R280). -/
theorem reset_readReg {r : Reg} (h : r ≠ .id) : State.reset.readReg r = 0 := by
  cases r
  case id => exact absurd rfl h
  all_goals simp [State.readReg, State.reset]
  all_goals rfl

/-- Settles O17: no address but that of `ID` names it, and every other register is 0. -/
theorem resetRegistersReadZero : Obligations.ResetRegistersReadZero := by
  unfold Obligations.ResetRegistersReadZero
  refine ⟨rfl, rfl, fun addr => ?_⟩
  split
  · next h =>
    rw [regAt_eq (b := 0) rfl h]
    rfl
  · next h => exact reset_readReg (regAt_ne_id h)

/-- Settles O18: both leave `State.resetRegs`. -/
theorem srstAndHardResetRestoreResetState : Obligations.SrstAndHardResetRestoreResetState := by
  unfold Obligations.SrstAndHardResetRestoreResetState
  intro s
  refine ⟨rfl, fun hidle => ?_⟩
  have hrisk : s.sinkAtRisk = 0 := by rw [State.sinkAtRisk, hidle]
  simp only [hostMove, State.hardReset, hrisk, if_true]
  rfl

/-- A word that is no command, or a command that never writes SNK, puts no byte of it at risk (R281). -/
theorem sinkAtRisk_eq_zero {s : State} {w : Word} (hw : s.running = some w) (h : ∀ i, decode w = .ok i → writesSink i = false) :
    s.sinkAtRisk = 0 := by
  unfold State.sinkAtRisk
  rw [hw]
  dsimp only
  split
  · rfl
  · next i hdec => simp [h i hdec]

theorem sinkAtRisk_le_max {s t : State} {w : Word} {i : Instr} (hw : s.running = some w) (hdec : decode w = .ok i)
    (hexec : exec i s = .next t) : s.sinkAtRisk ≤ max s.snkSize.toNat t.snkSize.toNat := by
  unfold State.sinkAtRisk
  simp only [hw, hdec, hexec]
  split
  · exact le_rfl
  · exact Nat.zero_le _

/-- What a hard reset leaves (R280, R281). -/
theorem hardReset_eq (s : State) : s.hardReset = { s.resetRegs with snk := s.hardReset.snk, free := s.hardReset.free } ∧
    (s.sinkAtRisk = 0 → s.hardReset.snk = s.snk) ∧ ∀ a, s.sinkAtRisk ≤ a → s.hardReset.snk.read a = s.snk.read a := by
  unfold State.hardReset
  split
  · exact ⟨rfl, fun _ => rfl, fun _ _ => rfl⟩
  · next hrisk =>
    refine ⟨rfl, fun h0 => absurd h0 hrisk, fun a ha => ?_⟩
    rw [resetRegs_snk, loseSink_snk, Mem.read_fillBelow, if_neg (Nat.not_lt_of_le ha)]

/-- Settles O19: the region at risk is empty unless the word is a command that may write SNK, and then it ends with the larger of the
two sizes. -/
theorem hardResetAbortsTheRunningCommand : Obligations.HardResetAbortsTheRunningCommand := by
  unfold Obligations.HardResetAbortsTheRunningCommand
  intro s w hw
  obtain ⟨heq, hsame, hread⟩ := hardReset_eq s
  refine ⟨s.hardReset, rfl, heq, fun hnone => ?_, fun i hdec hi => ?_, fun i t hdec hexec a hs ht => ?_⟩
  · exact hsame (sinkAtRisk_eq_zero hw fun i hdec => absurd hdec (hnone i))
  · refine hsame (sinkAtRisk_eq_zero hw fun j hdec' => ?_)
    obtain rfl : i = j := Except.ok.inj (hdec.symm.trans hdec')
    rcases hi with hi | ⟨len, rfl | rfl⟩ | ⟨v, rfl⟩
    · fin_cases hi <;> rfl
    · rfl
    · rfl
    · rfl
  · exact hread a ((sinkAtRisk_le_max hw hdec hexec).trans (max_le hs ht))

end Sys2Proof.Machine
end

section
/-! PROOFS. The commands of the bit-vector unit (O27 to O29, O31), of the frequency table (O32, O33), of package-merge (O35, O36, O38) and
of the code builder (O39). -/

namespace Sys2Proof.Machine

/-! ### Control and bit vectors -/

/-- Settles O27. -/
theorem nopChangesNothing : Obligations.NopChangesNothing := by
  unfold Obligations.NopChangesNothing
  exact fun _ => rfl

theorem requireLen_ok {len : BitVec 5} (h : len.toNat ≤ 16) (i : Instr) (s : State) : requireLen i len s = .ok () :=
  if_pos (decide_eq_true h)

/-- Settles O28: the length of a well-formed command is legal, and the prerequisite of `BV.LDC` is `CODE_V`. -/
theorem bvZeroAndLdcResults : Obligations.BvZeroAndLdcResults := by
  unfold Obligations.BvZeroAndLdcResults
  refine ⟨fun s len hlen => ?_, fun s v hcodeV => exec_bvLdc hcodeV v⟩
  rw [exec, execBvZero, requireLen_ok hlen]
  rfl

/-- What `BV.NEXT` does with a legal length (R112). -/
theorem exec_bvNext {len : BitVec 5} (h : len.toNat ≤ 16) (s : State) :
    exec (.bvNext len) s = finish (raiseIn s (bvNext s.bv len) >>= fun b => .ok (s.setBv b)) := by
  rw [exec, execBvNext, requireLen_ok h, ok_bind]

/-- Settles O29: the three answers of `bv_next` exclude one another. -/
theorem bvNextResult : Obligations.BvNextResult := by
  unfold Obligations.BvNextResult
  intro s len hlen
  rw [exec_bvNext hlen]
  obtain ⟨hshort, h⟩ | ⟨hle, hover, h⟩ | ⟨hle, hfit, h⟩ := bvNext_cases s.bv len
  all_goals rw [h]
  · have hinfo : len.toNat <<< 8 ||| s.bv.len.toNat = len.toNat * 2 ^ 8 + s.bv.len.toNat := by
      rw [← Nat.shiftLeft_add_eq_or_of_lt (s.bv.len.isLt.trans (by norm_num)), Nat.shiftLeft_eq]
    rw [hinfo]
    have hlong : ¬ s.bv.len.toNat ≤ len.toNat := Nat.not_le_of_lt hshort
    exact ⟨fun _ => finish_raise _ _ s, fun hle => absurd hle hlong, fun hle => absurd hle hlong⟩
  · exact ⟨fun hshort => absurd hshort (Nat.not_lt_of_le hle), fun _ _ => finish_raise _ _ s,
      fun _ hfit => absurd hover (Nat.not_le_of_lt hfit)⟩
  · refine ⟨fun hshort => absurd hshort (Nat.not_lt_of_le hle), fun _ hover => absurd hover (Nat.not_le_of_lt hfit),
      fun _ _ => ⟨_, rfl, rfl, ?_⟩⟩
    obtain ⟨-, -, hval, -⟩ := bvNext_ok hlen h
    exact hval

/-- The accesses of one `Pack` that lies inside SNK, seen from the bytes and from the bits (R115, R116). -/
theorem pack_frame {m : Mem} (hm : m.wf) {b : BV} (hb : b.len.toNat ≤ 16) {size : Word} {p : Nat}
    (hfit : (p + b.len.toNat + 7) / 8 ≤ size.toNat) :
    (∀ a, a < p / 8 ∨ (p + b.len.toNat + 7) / 8 ≤ a → (applyOps m (packOps b p)).read a = m.read a) ∧
      (∀ k, k < p ∨ p + b.len.toNat ≤ k → (applyOps m (packOps b p)).bit k = m.bit k) ∧
      ∀ i < b.len.toNat, (applyOps m (packOps b p)).bit (p + i) = (m.bit (p + i) || b.codeBit i) := by
  have hbit := bit_packOps hm hb (hfit.trans size.isLt.le)
  refine ⟨fun a ha => read_applyOps_of_not_touched fun o ho => ?_, fun k hk => ?_, fun i hi => ?_⟩
  · have := packOps_addr_lt ho
    omega
  · have hout : ¬ (p ≤ k ∧ k < p + b.len.toNat) := by omega
    simp [hbit, hout]
  · simp [hbit, hi]

/-- Settles O31: `BV.COPY` is one `Pack`. -/
theorem bvCopyOrsTheCodeword : Obligations.BvCopyOrsTheCodeword := by
  unfold Obligations.BvCopyOrsTheCodeword
  intro s hs hsnkV
  have hexec : exec .bvCopy s = finish (if s.bv.len = 0 then .error ⟨⟨.bvCopyEmpty, 0⟩, s⟩
      else raiseIn s (pack s.snkSize s.snk s.bv s.bitpos.toNat) >>= fun m => .ok (s.setSnk m)) := by
    rw [exec, execBvCopy, runBvCopy, require_sink hsnkV, ok_bind]
  rw [hexec]
  refine ⟨fun h0 => ?_, fun h0 hout => ?_, fun h0 hfit => ?_⟩
  · rw [if_pos h0]
    exact finish_raise _ _ s
  · obtain ⟨-, h⟩ | ⟨hfit, -⟩ := pack_cases s.snkSize s.snk s.bv s.bitpos.toNat
    · rw [if_neg h0, h]
      exact finish_raise _ _ s
    · exact absurd hout (Nat.not_lt_of_le hfit)
  · obtain ⟨hout, -⟩ | ⟨-, h⟩ := pack_cases s.snkSize s.snk s.bv s.bitpos.toNat
    · exact absurd hout (Nat.not_lt_of_le hfit)
    · rw [if_neg h0, h]
      exact ⟨_, rfl, rfl, pack_frame hs.snk hs.bv.1 hfit⟩

/-! ### Frequency table -/

/-- Settles O32. -/
theorem ftClrZeroesFreq : Obligations.FtClrZeroesFreq := by
  unfold Obligations.FtClrZeroesFreq
  exact fun s => ⟨_, rfl, rfl, fun v => Table.at_const 0 v⟩

/-- The addresses that hold a value are as many as its occurrences in the input (R131). -/
theorem count_srcBytes (s : State) (v : Byte) :
    s.srcBytes.count v = ((List.range s.srcSize.toNat).filter (fun a => s.src.read a = v)).length := by
  rw [State.srcBytes, State.srcAt, List.count, List.countP_map, List.countP_eq_length_filter]
  rfl

/-- The occurrences of all values are the whole list. -/
theorem sum_count_allBytes (xs : List Byte) : (allBytes.map (fun v => xs.count v)).sum = xs.length := by
  have h := sum_count_mul_len (fun _ => ⟨0, 1⟩) xs
  simpa [bodyStream, List.length_flatMap] using h

/-- Settles O33: both scans leave the histogram of the input. -/
theorem ftScanCountsEveryByte : Obligations.FtScanCountsEveryByte := by
  unfold Obligations.FtScanCountsEveryByte
  intro s i hp hi
  have hrun : exec i s = .next (s.setFreq (countInto (Table.const 0) s.srcBytes)).retire := by
    rcases hi with rfl | rfl
    · rfl
    · exact congrArg finish (runFtScanp_eq_runFtScan hp)
  refine ⟨_, hrun, rfl, fun v => ?_, ?_⟩
  · rw [retire_freq, setFreq_freq, countInto_srcBytes_toNat, count_srcBytes]
  · simp only [retire_freq, setFreq_freq, countInto_srcBytes_toNat, sum_count_allBytes, length_srcBytes]

/-! ### Package-merge -/

/-- Settles O35: `PM.RUN` has no fault to raise, and writes the length of package-merge for each symbol. -/
theorem pmRunAssignsLengths : Obligations.PmRunAssignsLengths := by
  unfold Obligations.PmRunAssignsLengths
  intro s
  obtain ⟨lens, h⟩ := runPmRun_eq s
  obtain ⟨-, habsent, hmap⟩ := runPmRun_ok h
  refine ⟨(s.setLens lens s.symbols.length).retire, congrArg finish h, rfl, ?_, fun v hv => ?_, fun i hi => ?_⟩
  · have := length_symbols_le s
    exact (BitVec.toNat_ofNat _ _).trans (Nat.mod_eq_of_lt (by omega))
  · exact BitVec.eq_of_toNat_eq (habsent v hv)
  · rw [← hmap]
    simp [hi, State.lenOf]

/-- A package contains no more than its two items, whatever they weigh. -/
theorem package_cnt_getD_le (x y : Item) (i : Nat) : (package x y).cnt.getD i 0 ≤ x.cnt.getD i 0 + y.cnt.getD i 0 := by
  simp only [package, List.getD_eq_getElem?_getD, List.getElem?_zipWith]
  cases x.cnt[i]? <;> cases y.cnt[i]? <;> simp

/-- A package of items of one length contains what they contain. -/
theorem package_cnt_getD_of_length {x y : Item} (h : x.cnt.length = y.cnt.length) (i : Nat) :
    (package x y).cnt.getD i 0 = x.cnt.getD i 0 + y.cnt.getD i 0 := by
  by_cases hi : i < x.cnt.length
  · simp [package, hi, h ▸ hi]
  · simp [package, hi, h ▸ hi]

theorem occurrences_pairUp_le_of_any (l : List Item) (i : Nat) : occurrences (pairUp l) i ≤ occurrences l i := by
  induction l using pairUp.induct with
  | case1 x y l ih =>
    have hpackage := package_cnt_getD_le x y i
    simp only [pairUp, occurrences_cons]
    omega
  | case2 l hl => simp [pairUp]

/-- Of an even number of items none is dropped (R145). -/
theorem occurrences_pairUp_of_even {n : Nat} {l : List Item} (hl : ∀ x ∈ l, x.cnt.length = n) (heven : l.length % 2 = 0) (i : Nat) :
    occurrences (pairUp l) i = occurrences l i := by
  induction l using pairUp.induct with
  | case1 x y l ih =>
    simp only [List.forall_mem_cons] at hl
    obtain ⟨hx, hy, hl⟩ := hl
    simp only [List.length_cons] at heven
    simp only [pairUp, occurrences_cons, package_cnt_getD_of_length (hx.trans hy.symm), ih hl (by omega), Nat.add_assoc]
  | case2 l hl' =>
    match l with
    | [] => rfl
    | [_] => simp at heven
    | x :: y :: l => exact absurd rfl (hl' x y l)

theorem occurrences_mergeRound {ws : List Nat} {i : Nat} (hi : i < ws.length) (l : List Item) :
    occurrences (mergeRound ws l) i = occurrences (pairUp (sortByWeight l)) i + 1 := by
  rw [mergeRound, occurrences_append, occurrences_singletons hi]

/-- Every round puts each symbol into the list anew. -/
theorem one_le_occurrences_mergeRounds {ws : List Nat} {i : Nat} (hi : i < ws.length) (cutoff fuel : Nat) {l : List Item}
    (hl : 1 ≤ occurrences l i) : 1 ≤ occurrences (mergeRounds ws cutoff fuel l) i := by
  induction fuel generalizing l with
  | zero => exact hl
  | succ fuel ih =>
    rw [mergeRounds]
    split
    · exact ih (by rw [occurrences_mergeRound hi]; omega)
    · exact hl

/-- A list that falls short of `2n` by at most `2^(j+1)` items needs at most `j` rounds more, whatever the weights (R148). -/
theorem occurrences_mergeRounds_le_of_any {ws : List Nat} {i : Nat} (hi : i < ws.length) (fuel : Nat) {j : Nat} {l : List Item}
    (hlen : 2 * ws.length ≤ l.length + 2 ^ (j + 1)) :
    occurrences (mergeRounds ws (2 * ws.length - 2) fuel l) i ≤ occurrences l i + j := by
  induction fuel generalizing l j with
  | zero => exact Nat.le_add_right _ _
  | succ fuel ih =>
    rw [mergeRounds]
    split
    · cases j with
      | zero => omega
      | succ j =>
        have hround := length_mergeRound ws l
        have hnext := ih (l := mergeRound ws l) (j := j) (by omega)
        have hpairs := occurrences_pairUp_le_of_any (sortByWeight l) i
        rw [occurrences_mergeRound hi] at hnext
        rw [occurrences_sortByWeight] at hpairs
        omega
    · exact Nat.le_add_right _ _

theorem cnt_length_mergeRound {ws : List Nat} {l : List Item} (hl : ∀ x ∈ l, x.cnt.length = ws.length) :
    ∀ x ∈ mergeRound ws l, x.cnt.length = ws.length := by
  intro x hx
  rcases List.mem_append.1 hx with hx | hx
  · obtain ⟨a, ha, b, hb, rfl⟩ := exists_package_of_mem_pairUp hx
    simp [package, hl a (mem_sortByWeight.1 ha), hl b (mem_sortByWeight.1 hb)]
  · obtain ⟨i, -, rfl⟩ := List.mem_map.1 hx
    simp [singleton]

/-- With a power of two of symbols every round has an even number of items, so none is ever dropped, and exactly `j` rounds are left
(R148). -/
theorem occurrences_mergeRounds_of_two_pow {ws : List Nat} {i k : Nat} (hi : i < ws.length) (hk : ws.length = 2 ^ k) {fuel j : Nat}
    (hfuel : j ≤ fuel) (hjk : j < k) {l : List Item} (hl : ∀ x ∈ l, x.cnt.length = ws.length)
    (hlen : l.length + 2 ^ (j + 1) = 2 * ws.length) :
    occurrences (mergeRounds ws (2 * ws.length - 2) fuel l) i = occurrences l i + j := by
  induction fuel generalizing l j with
  | zero =>
    obtain rfl := Nat.le_zero.1 hfuel
    rfl
  | succ fuel ih =>
    rw [mergeRounds]
    cases j with
    | zero => rw [if_neg (by omega), Nat.add_zero]
    | succ j =>
      have hround := length_mergeRound ws l
      obtain ⟨m, hm⟩ : 2 ^ (j + 1) ∣ 2 ^ k := pow_dvd_pow 2 hjk.le
      have hpos : 0 < 2 ^ j := by positivity
      have heven : (sortByWeight l).length % 2 = 0 := by
        rw [length_sortByWeight]
        omega
      rw [if_pos (by omega), ih (j := j) (by omega) (by omega) (cnt_length_mergeRound hl) (by omega), occurrences_mergeRound hi,
        occurrences_pairUp_of_even (fun x hx => hl x (mem_sortByWeight.1 hx)) heven, occurrences_sortByWeight, Nat.add_assoc,
        Nat.add_comm 1 j]

/-- The working list ends with `2n - 2` items, so all of them are chosen (R147, R148). -/
theorem lengths_eq_map_occurrences_mergedItems {ws : List Nat} (h : 2 ≤ ws.length) :
    lengths ws = (List.range ws.length).map (occurrences (mergedItems ws)) := by
  have hall : (sortByWeight (mergedItems ws)).take (2 * ws.length - 2) = sortByWeight (mergedItems ws) :=
    List.take_of_length_le ((length_sortByWeight _).trans (length_mergedItems h)).le
  rw [lengths_eq_map_occurrences h, hall]
  exact List.map_congr_left fun i _ => occurrences_sortByWeight _ i

/-- At most `2^k` symbols, whatever they weigh, get lengths of at most `k` (R148). -/
theorem lengths_le_of_le_two_pow {ws : List Nat} (h : 2 ≤ ws.length) {k : Nat} (hk : ws.length ≤ 2 ^ k) :
    ∀ l ∈ lengths ws, l ≤ k := by
  rw [lengths_eq_map_occurrences_mergedItems h]
  refine List.forall_mem_map.2 fun i hi => ?_
  have hi := List.mem_range.1 hi
  cases k with
  | zero => omega
  | succ j =>
    have hlen := length_singletons ws
    have hall := occurrences_mergeRounds_le_of_any hi ws.length (j := j) (l := singletons ws) (by omega)
    rw [occurrences_singletons hi, Nat.add_comm] at hall
    exact hall

theorem one_le_of_mem_lengths {ws : List Nat} (h : 2 ≤ ws.length) : ∀ l ∈ lengths ws, 1 ≤ l := by
  rw [lengths_eq_map_occurrences_mergedItems h]
  refine List.forall_mem_map.2 fun i hi => ?_
  have hi := List.mem_range.1 hi
  exact one_le_occurrences_mergeRounds hi _ _ (occurrences_singletons hi).ge

theorem lengths_of_length_eq_two_pow {ws : List Nat} (h : 2 ≤ ws.length) {k : Nat} (hk : ws.length = 2 ^ k) :
    ∀ l ∈ lengths ws, l = k := by
  rw [lengths_eq_map_occurrences_mergedItems h]
  refine List.forall_mem_map.2 fun i hi => ?_
  have hi := List.mem_range.1 hi
  cases k with
  | zero => omega
  | succ j =>
    have hlen := length_singletons ws
    have hcnt : ∀ x ∈ singletons ws, x.cnt.length = ws.length := List.forall_mem_map.2 fun i _ => by simp [singleton]
    have hfuel : j ≤ ws.length := by
      have := (Nat.lt_two_pow_self (n := j + 1))
      omega
    rw [mergedItems, occurrences_mergeRounds_of_two_pow hi hk hfuel (Nat.lt_succ_self j) hcnt (by omega), occurrences_singletons hi,
      Nat.add_comm]

/-- Settles O36: every round adds one occurrence of each symbol at most, exactly one where no item is dropped, and no symbol is ever
without one. -/
theorem lengthsAreWithinCeilLogTwo : Obligations.LengthsAreWithinCeilLogTwo := by
  unfold Obligations.LengthsAreWithinCeilLogTwo
  intro ws h
  refine ⟨length_mergedItems h, fun l hl => ⟨one_le_of_mem_lengths h l hl, ?_⟩, fun k hk => lengths_of_length_eq_two_pow h hk,
    fun h256 => lengths_le_of_le_two_pow h h256⟩
  exact lengths_le_of_le_two_pow h (Nat.le_pow_clog (by norm_num) _) l hl

/-! ### Scaled weights -/

/-- An item with its weight scaled. -/
def Item.scale (c : Nat) (x : Item) : Item := ⟨c * x.weight, x.cnt⟩

section
variable (c : Nat)

theorem package_scale (x y : Item) : package (x.scale c) (y.scale c) = (package x y).scale c := by
  simp [package, Item.scale, Nat.mul_add]

theorem pairUp_map_scale (l : List Item) : pairUp (l.map (Item.scale c)) = (pairUp l).map (Item.scale c) := by
  induction l using pairUp.induct with
  | case1 x y l ih => simp only [List.map_cons, pairUp, package_scale, ih]
  | case2 l hl =>
    match l with
    | [] => rfl
    | [_] => rfl
    | x :: y :: l => exact absurd rfl (hl x y l)

theorem singletons_scale (ws : List Nat) : singletons (ws.map (c * ·)) = (singletons ws).map (Item.scale c) := by
  have hweight : ∀ i, (ws.map (c * ·)).getD i 0 = c * ws.getD i 0 := fun i => by
    simp only [List.getD_eq_getElem?_getD, List.getElem?_map]
    cases ws[i]? <;> simp
  simp only [singletons, List.map_map, List.length_map]
  exact List.map_congr_left fun i _ => by simp only [singleton, Item.scale, Function.comp_apply, hweight, List.length_map]

variable {c} (hc : 0 < c)
include hc

/-- Scaling by a positive constant keeps the order of the weights, so the sort makes the same choices. -/
theorem sortByWeight_map_scale (l : List Item) : sortByWeight (l.map (Item.scale c)) = (sortByWeight l).map (Item.scale c) :=
  (List.map_insertionSort _ _ (Item.scale c) l fun _ _ _ _ => (Nat.mul_le_mul_left_iff hc).symm).symm

theorem mergeRound_scale (ws : List Nat) (l : List Item) :
    mergeRound (ws.map (c * ·)) (l.map (Item.scale c)) = (mergeRound ws l).map (Item.scale c) := by
  simp only [mergeRound, sortByWeight_map_scale hc, pairUp_map_scale, singletons_scale, List.map_append]

theorem mergeRounds_scale (ws : List Nat) (cutoff fuel : Nat) (l : List Item) :
    mergeRounds (ws.map (c * ·)) cutoff fuel (l.map (Item.scale c)) = (mergeRounds ws cutoff fuel l).map (Item.scale c) := by
  induction fuel generalizing l with
  | zero => rfl
  | succ fuel ih =>
    simp only [mergeRounds, List.length_map, mergeRound_scale hc, ih]
    split <;> rfl

theorem mergedItems_scale (ws : List Nat) : mergedItems (ws.map (c * ·)) = (mergedItems ws).map (Item.scale c) := by
  simp only [mergedItems, List.length_map, singletons_scale, mergeRounds_scale hc]

end

/-- Settles O38: scaled weights are in the same order, so the same items are chosen, and they contain the same symbols. -/
theorem lengthsIgnoreScale : Obligations.LengthsIgnoreScale := by
  unfold Obligations.LengthsIgnoreScale
  intro ws c hc
  simp only [lengths, List.length_map, mergedItems_scale hc, sortByWeight_map_scale hc, ← List.map_take, List.map_map]
  rfl

/-! ### The code builder -/

/-- Settles O39: with lengths that are not over-subscribed the chain of R161 is the canonical code. -/
theorem cbBuildMakesTheCanonicalCode : Obligations.CbBuildMakesTheCanonicalCode := by
  unfold Obligations.CbBuildMakesTheCanonicalCode
  intro s hs
  refine ⟨exec_cbBuild_of_overSubscribed, fun hk => ?_⟩
  refine ⟨_, congrArg finish (runCbBuild_of_kraftSum_le hs.lens hk), rfl, ?_, fun v => Table.at_ofFn _ v⟩
  have := length_present_le s.lenOf
  exact (BitVec.toNat_ofNat _ _).trans (Nat.mod_eq_of_lt (by omega))

end Sys2Proof.Machine
end

section
/-! PROOFS. The encoder's commands (O42 to O45) and the whole encode (O47 to O49): each command's pseudocode in the case at hand, said once,
and the macros as these runs one after the other. -/

namespace Sys2Proof.Machine

/-! ### Sizing -/

theorem containerBytes_eq (s : State) : s.containerBytes = 264 + (s.bodyBits + 7) / 8 := by
  rw [State.containerBytes, ceil8_eq]

/-- `ENC.ALLOC` of a weighted value without a code (R170). -/
theorem runEncAlloc_of_absent {s : State} (hcodeV : s.status.codeV = true) {v : Byte} (hv : s.freq.at v ≠ 0)
    (h0 : (s.code.at v).len = 0) (hleast : ∀ u : Byte, u.toNat < v.toNat → s.freq.at u = 0 ∨ (s.code.at u).len ≠ 0) :
    runEncAlloc s = .error ⟨⟨.absentSymbol, v.zeroExtend 32⟩, s⟩ := by
  have hfind : allBytes.find? (fun v => s.freq.at v ≠ 0 ∧ (s.code.at v).len = 0) = some v :=
    find_allBytes_eq_some.2 ⟨decide_eq_true ⟨hv, h0⟩, fun u hu => decide_eq_false fun ⟨hf, hl⟩ => (hleast u hu).elim hf (· hl)⟩
  rw [runEncAlloc, require_code hcodeV, ok_bind, hfind]

/-- `ENC.ALLOC` with a code for every weighted value: the container fits, or not (R170). -/
theorem runEncAlloc_of_coded {s : State} (hcodeV : s.status.codeV = true)
    (hcoded : ∀ v : Byte, s.freq.at v = 0 ∨ (s.code.at v).len ≠ 0) :
    runEncAlloc s = if s.containerBytes > s.snkCap.toNat then .error ⟨⟨.ioFailure, low32 s.containerBytes⟩, s⟩
      else .ok (s.allocEnc s.bodyBits s.containerBytes (expandedFlag s.containerBytes s.srcSize)) := by
  have hfind : allBytes.find? (fun v => s.freq.at v ≠ 0 ∧ (s.code.at v).len = 0) = none :=
    find_allBytes_eq_none.2 fun v => decide_eq_false fun ⟨hf, hl⟩ => (hcoded v).elim hf (· hl)
  rw [runEncAlloc, require_code hcodeV, ok_bind, hfind]

theorem low32_toNat_of_le {n : Nat} {w : Word} (h : n ≤ w.toNat) : (low32 n).toNat = n :=
  (BitVec.toNat_ofNat _ _).trans (Nat.mod_eq_of_lt (h.trans_lt w.isLt))

/-- Settles O42. -/
theorem encAllocSizesTheSink : Obligations.EncAllocSizesTheSink := by
  unfold Obligations.EncAllocSizesTheSink
  intro s hcodeV
  dsimp only
  rw [show (allBytes.map (fun v => (s.freq.at v).toNat * (s.code.at v).len.toNat)).sum = s.bodyBits from rfl, ← containerBytes_eq]
  refine ⟨fun v hv h0 hleast => ?_, fun hcoded => ⟨fun hcap => ?_, fun hcap => ?_⟩⟩
  · rw [exec_eq_finish, runOf, runEncAlloc_of_absent hcodeV hv h0 hleast]
    exact finish_raise _ _ s
  · rw [exec_eq_finish, runOf, runEncAlloc_of_coded hcodeV hcoded, if_pos hcap]
    exact finish_raise _ _ s
  · rw [exec_eq_finish, runOf, runEncAlloc_of_coded hcodeV hcoded, if_neg (Nat.not_lt_of_le hcap)]
    have hbits : s.bodyBits < 2 ^ 64 := by
      have hneed := containerBytes_eq s
      have hlt := s.snkCap.isLt
      omega
    exact ⟨_, rfl, rfl, (BitVec.toNat_ofNat _ _).trans (Nat.mod_eq_of_lt hbits), low32_toNat_of_le hcap,
      Mem.read_zeroBelow _ s.snk⟩

/-! ### Header -/

/-- `ENC.HDR` with its prerequisites: an encode sink has room for a header (R172). -/
theorem runEncHdr_of_le {s : State} (hcodeV : s.status.codeV = true) (hsnkV : s.status.snkV = true) (hdec : s.status.snkDec = false)
    (hsize : 264 ≤ s.snkSize.toNat) : runEncHdr s = .ok (s.setSnk (applyOps s.snk s.headerOps)) := by
  rw [runEncHdr, require_enc hcodeV hsnkV hdec, ok_bind, if_neg (Nat.not_lt_of_le hsize)]

/-- Settles O43. -/
theorem encHdrWritesTheHeader : Obligations.EncHdrWritesTheHeader := by
  unfold Obligations.EncHdrWritesTheHeader
  intro s hs hcodeV hsnkV hdec
  have hsize := fun a => read_headerOps_size hs.snk (a := a)
  have hlens := read_headerOps_len hs.snk
  have hrest : ∀ a, 264 ≤ a → (applyOps s.snk s.headerOps).read a = s.snk.read a := fun a ha =>
    read_applyOps_of_not_touched fun o ho => ((headerOps_addr_lt s o ho).trans_le ha).ne
  rw [exec_eq_finish, runOf, runEncHdr_of_le hcodeV hsnkV hdec (hs.encSink hsnkV hdec)]
  generalize applyOps s.snk s.headerOps = m at hsize hlens hrest ⊢
  refine ⟨_, rfl, rfl, fun a ha => ?_, hlens, hrest⟩
  rw [← Nat.shiftRight_eq_div_pow]
  exact hsize a ha

/-! ### One symbol -/

/-- Settles O44: `ENC.PUT` is one `Pack` from `BITPOS`. -/
theorem encPutOrsTheCodeword : Obligations.EncPutOrsTheCodeword := by
  unfold Obligations.EncPutOrsTheCodeword
  intro s v hs hcodeV hsnkV hdec
  have hexec : exec (.encPut v) s = finish (raiseIn s (putSymbol s v)) := by
    rw [exec, execEncPut, require_enc hcodeV hsnkV hdec, ok_bind]
  rw [hexec]
  obtain ⟨h0, h⟩ | ⟨h0, hout, h⟩ | ⟨h0, hfit, h⟩ := putSymbol_cases s v
  all_goals rw [h]
  · exact ⟨fun _ => finish_raise _ _ s, fun hne => absurd h0 hne, fun hne => absurd h0 hne⟩
  · exact ⟨fun he => absurd he h0, fun _ _ => finish_raise _ _ s, fun _ hfit => absurd hout (Nat.not_lt_of_le hfit)⟩
  · refine ⟨fun he => absurd he h0, fun _ hout => absurd hout (Nat.not_lt_of_le hfit), fun _ _ => ⟨_, rfl, rfl, ?_, ?_⟩⟩
    · have hsize := s.snkSize.isLt
      exact (BitVec.toNat_ofNat _ _).trans (Nat.mod_eq_of_lt (by omega))
    · exact pack_frame hs.snk (hs.code v).1 hfit

/-! ### The body -/

/-- Bytes that all have a code and whose codewords fit are put without a fault. -/
theorem foldlM_putSymbol_of_fits {xs : List Byte} {s : State} (hcoded : ∀ x ∈ xs, (s.code.at x).len ≠ 0)
    (hfit : (s.bitpos.toNat + (bodyStream s.code.at xs).length + 7) / 8 ≤ s.snkSize.toNat) :
    xs.foldlM putSymbol s = .ok (s.setSnkPos (applyOps s.snk (codeOps s.code s.bitpos.toNat xs))
      (s.bitpos.toNat + (bodyStream s.code.at xs).length)) := by
  suffices hok : ∃ t, xs.foldlM putSymbol s = .ok t by
    obtain ⟨t, ht⟩ := hok
    rw [ht, (foldlM_putSymbol_ok ht).2]
  induction xs generalizing s with
  | nil => exact ⟨s, rfl⟩
  | cons x xs ih =>
    obtain ⟨hx, hxs⟩ := List.forall_mem_cons.1 hcoded
    rw [bodyStream_cons, List.length_append, length_bits] at hfit
    have hsize := s.snkSize.isLt
    rw [List.foldlM_cons]
    obtain ⟨h0, -⟩ | ⟨-, hout, -⟩ | ⟨-, -, h⟩ := putSymbol_cases s x
    · exact absurd h0 hx
    · omega
    · rw [h]
      refine ih hxs ?_
      have hpos : (BitVec.ofNat 64 (s.bitpos.toNat + (s.code.at x).len.toNat)).toNat = s.bitpos.toNat + (s.code.at x).len.toNat :=
        (BitVec.toNat_ofNat _ _).trans (Nat.mod_eq_of_lt (by omega))
      simp only [setSnkPos_bitpos, setSnkPos_code, setSnkPos_snkSize, hpos]
      omega

theorem codeOps_addr_lt {code : Table BV} {off : Nat} {xs : List Byte} :
    ∀ o ∈ codeOps code off xs, o.addr < (off + (bodyStream code.at xs).length + 7) / 8 := by
  induction xs generalizing off with
  | nil => simp [codeOps]
  | cons x xs ih =>
    intro o ho
    rw [bodyStream_cons, List.length_append, length_bits, ← Nat.add_assoc off]
    rcases List.mem_append.1 ho with ho | ho
    · exact (packOps_addr_lt ho).2.trans_le (Nat.div_le_div_right (by omega))
    · exact ih o ho

/-- The accesses of a body, seen from the bytes and from the bits (R73, R115, R116). -/
theorem codeOps_frame {code : Table BV} (hcode : ∀ v, (code.at v).len.toNat ≤ 16) {xs : List Byte} {m : Mem} (hm : m.wf) {off : Nat}
    (hr : (off + (bodyStream code.at xs).length + 7) / 8 ≤ 2 ^ 32) :
    (∀ a, a < off / 8 ∨ (off + (bodyStream code.at xs).length + 7) / 8 ≤ a →
        (applyOps m (codeOps code off xs)).read a = m.read a) ∧
      (∀ k, k < off ∨ off + (bodyStream code.at xs).length ≤ k → (applyOps m (codeOps code off xs)).bit k = m.bit k) ∧
      ∀ k (h : k < (bodyStream code.at xs).length),
        (applyOps m (codeOps code off xs)).bit (off + k) = (m.bit (off + k) || (bodyStream code.at xs)[k]) := by
  have hbit := bit_codeOps hcode (xs := xs) hm hr
  refine ⟨fun a ha => read_applyOps_of_not_touched fun o ho => ?_, fun k hk => ?_, fun k hk => ?_⟩
  · have hlo := codeOps_addr_ge o ho
    have hhi := codeOps_addr_lt o ho
    omega
  · rw [hbit]
    rcases hk with hk | hk
    · simp [Nat.not_le_of_lt hk]
    · rw [List.getD_eq_default _ _ (by omega), Bool.and_false, Bool.or_false]
  · simp [hbit, hk]

theorem runEncBody_of_flags {s : State} (hcodeV : s.status.codeV = true) (hsnkV : s.status.snkV = true)
    (hdec : s.status.snkDec = false) : runEncBody s = raiseIn (s.loseSink s.snkSize.toNat) (putBody s) := by
  rw [runEncBody, require_enc hcodeV hsnkV hdec, ok_bind]

/-- A body that fits (R174). -/
theorem putBody_of_fits {s : State} (hcoded : ∀ x ∈ s.srcBytes, (s.code.at x).len ≠ 0)
    (hfit : 264 + ((bodyStream s.code.at s.srcBytes).length + 7) / 8 ≤ s.snkSize.toNat) :
    putBody s = .ok (s.setSnkPos (applyOps s.snk (codeOps s.code Config.hdrBits s.srcBytes))
      (Config.hdrBits + (bodyStream s.code.at s.srcBytes).length)) := by
  have hroom : (Config.hdrBits + (bodyStream s.code.at s.srcBytes).length + 7) / 8 ≤ s.snkSize.toNat := by
    rw [hdrBits_eq]
    omega
  exact foldlM_putSymbol_of_fits (s := s.rewindEnc) hcoded hroom

theorem runEncBody_of_fits {s : State} (hcodeV : s.status.codeV = true) (hsnkV : s.status.snkV = true) (hdec : s.status.snkDec = false)
    (hcoded : ∀ x ∈ s.srcBytes, (s.code.at x).len ≠ 0)
    (hfit : 264 + ((bodyStream s.code.at s.srcBytes).length + 7) / 8 ≤ s.snkSize.toNat) :
    runEncBody s = .ok (s.setSnkPos (applyOps s.snk (codeOps s.code Config.hdrBits s.srcBytes))
      (Config.hdrBits + (bodyStream s.code.at s.srcBytes).length)) := by
  rw [runEncBody_of_flags hcodeV hsnkV hdec, putBody_of_fits hcoded hfit, raiseIn_ok]

theorem mem_take_srcBytes {s : State} {k : Nat} (hk : k ≤ s.srcSize.toNat) {x : Byte} (hx : x ∈ s.srcBytes.take k) :
    ∃ j < k, x = s.src.read j := by
  have htake : s.srcBytes.take k = (List.range k).map s.src.read := by
    rw [State.srcBytes, State.srcAt, ← List.map_take, List.take_range, Nat.min_eq_left hk]
  obtain ⟨j, hj, rfl⟩ := List.mem_map.1 (htake ▸ hx)
  exact ⟨j, List.mem_range.1 hj, rfl⟩

/-- Where the codewords of the first `k` bytes of the input end (R73). -/
def State.bodyPos (s : State) (k : Nat) : Nat := Config.hdrBits + (bodyStream s.code.at (s.srcBytes.take k)).length

section
variable {s : State} {k : Nat} (hk : k < s.srcSize.toNat)
include hk

theorem getElem_srcBytes : s.srcBytes[k]'(hk.trans_eq (length_srcBytes s).symm) = s.src.read k := by
  simp [State.srcBytes, State.srcAt]

theorem bodyPos_succ : s.bodyPos (k + 1) = s.bodyPos k + (s.code.at (s.src.read k)).len.toNat := by
  simp [State.bodyPos, List.take_succ_eq_append_getElem (hk.trans_eq (length_srcBytes s).symm), getElem_srcBytes hk, Nat.add_assoc]

variable (hcoded : ∀ x ∈ s.srcBytes.take k, (s.code.at x).len ≠ 0) (hfit : (s.bodyPos k + 7) / 8 ≤ s.snkSize.toNat)
include hcoded hfit

/-- The first byte that cannot be put ends the body: the bytes before it have been put, and its fault is the body's (R174). -/
theorem putBody_of_fault {f : FaultRec} (hf : ∀ m, putSymbol (s.setSnkPos m (s.bodyPos k)) (s.src.read k) = .error f) :
    putBody s = .error f := by
  have hsplit : s.srcBytes = s.srcBytes.take k ++ s.src.read k :: s.srcBytes.drop (k + 1) := by
    rw [← getElem_srcBytes hk, ← List.drop_eq_getElem_cons, List.take_append_drop]
  have hbefore := foldlM_putSymbol_of_fits (s := s.rewindEnc) hcoded hfit
  rw [putBody, hsplit, List.foldlM_append, hbefore, ok_bind, List.foldlM_cons]
  exact bind_eq_error.2 (.inl (hf _))

theorem putBody_of_absent (h0 : (s.code.at (s.src.read k)).len = 0) :
    putBody s = .error ⟨.absentSymbol, (s.src.read k).zeroExtend 32⟩ :=
  putBody_of_fault hk hcoded hfit fun _ => if_pos h0

theorem putBody_of_bounds (hne : (s.code.at (s.src.read k)).len ≠ 0) (hout : s.snkSize.toNat < (s.bodyPos (k + 1) + 7) / 8) :
    putBody s = .error ⟨.snkBounds, low32 (max (s.bodyPos k / 8) s.snkSize.toNat)⟩ := by
  have hlt := s.snkSize.isLt
  have hpos : (BitVec.ofNat 64 (s.bodyPos k)).toNat = s.bodyPos k := (BitVec.toNat_ofNat _ _).trans (Nat.mod_eq_of_lt (by omega))
  rw [bodyPos_succ hk] at hout
  refine putBody_of_fault hk hcoded hfit fun m => ?_
  obtain ⟨h0, -⟩ | ⟨-, -, h⟩ | ⟨-, hin, -⟩ := putSymbol_cases (s.setSnkPos m (s.bodyPos k)) (s.src.read k)
  · exact absurd h0 hne
  · rwa [setSnkPos_bitpos, hpos] at h
  · rw [setSnkPos_bitpos, hpos] at hin
    exact absurd hout (Nat.not_lt_of_le hin)

end

/-- Settles O45: `ENC.BODYP` is `ENC.BODY`, which puts the input bytes one after the other. -/
theorem encBodyWritesTheCodewordStream : Obligations.EncBodyWritesTheCodewordStream := by
  unfold Obligations.EncBodyWritesTheCodewordStream
  intro s i hi hs hcodeV hsnkV hdec
  have hexec : exec i s = finish (raiseIn (s.loseSink s.snkSize.toNat) (putBody s)) := by
    rw [← runEncBody_of_flags hcodeV hsnkV hdec]
    rcases hi with rfl | rfl
    · rfl
    · exact congrArg finish (runEncBodyp_eq_runEncBody hs)
  have hlt := s.snkSize.isLt
  rw [hexec]
  refine ⟨fun hcoded hfit => ?_, fun k hk hgood => ?_⟩
  · rw [putBody_of_fits hcoded hfit]
    obtain ⟨hread, hbit, hstream⟩ := codeOps_frame (fun v => (hs.code v).1) (xs := s.srcBytes) hs.snk (off := Config.hdrBits)
      (by rw [hdrBits_eq]; omega)
    refine ⟨_, rfl, rfl, ?_, fun a ha => hread a ?_, hbit, hstream⟩
    · exact (BitVec.toNat_ofNat _ _).trans (Nat.mod_eq_of_lt (by rw [hdrBits_eq]; omega))
    · rw [hdrBits_eq]
      omega
  · have hcoded : ∀ x ∈ s.srcBytes.take k, (s.code.at x).len ≠ 0 := fun x hx => by
      obtain ⟨j, hj, rfl⟩ := mem_take_srcBytes hk.le hx
      exact (hgood j hj).1
    have hfit : (s.bodyPos k + 7) / 8 ≤ s.snkSize.toNat := by
      cases k with
      | zero =>
        rw [State.bodyPos, List.take_zero, bodyStream_nil, hdrBits_eq]
        exact hs.encSink hsnkV hdec
      | succ j => exact (hgood j (Nat.lt_succ_self j)).2
    refine ⟨fun h0 => ?_, fun hne hout => ?_⟩
    · rw [putBody_of_absent hk hcoded hfit h0]
      exact finish_raise_bulk _ _ s
    · rw [putBody_of_bounds hk hcoded hfit hne hout]
      exact finish_raise_bulk _ _ s

end Sys2Proof.Machine
end

section
/-! PROOFS. The whole encode (O47 to O49): `FT.SCAN`, `PM.RUN` and `CB.BUILD` always make a code for the input, and then the container fits,
or it does not. -/

namespace Sys2Proof.Machine

/-! ### Runs from legal states -/

/-- A command that does not fault keeps every field legal. -/
theorem legal_of_runOf_ok {i : Instr} (hi : isMacro i = false) {s t : State} (hs : s.Legal) (h : runOf i s = .ok t) : t.Legal := by
  have hend := ends_runOf hi s
  rw [h] at hend
  cases hend with
  | done _ hc => exact hc.legal hs

/-- Two continuations of a command that are related on legal states. -/
theorem bind_rel_of_legal {R : Run → Run → Prop} (hrefl : ∀ r, R r r) {i : Instr} (hi : isMacro i = false) {s : State} (hs : s.Legal)
    {k l : State → Run} (h : ∀ t : State, t.Legal → R (k t) (l t)) : R (runOf i s >>= k) (runOf i s >>= l) := by
  cases hrun : runOf i s with
  | ok t => exact h t (legal_of_runOf_ok hi hs hrun)
  | error e => exact hrefl _

/-- `ENCODEP` is `ENCODE`: its scan and its body are, from legal states (R134, R182). -/
theorem exec_encodep_eq {s : State} (hs : s.Legal) : exec .encodep s = exec .encode s := by
  have hrefl : ∀ r : Run, r = r := fun _ => rfl
  rw [exec_eq_finish, exec_eq_finish, runOf, runFtScanp_eq_runFtScan hs.params]
  refine congrArg finish ?_
  refine bind_rel_of_legal hrefl (i := .ftScan) rfl hs fun s hs => ?_
  refine bind_rel_of_legal hrefl (i := .pmRun) rfl hs fun s hs => ?_
  refine bind_rel_of_legal hrefl (i := .cbBuild) rfl hs fun s hs => ?_
  refine bind_rel_of_legal hrefl (i := .encAlloc) rfl hs fun s hs => ?_
  refine bind_rel_of_legal hrefl (i := .encHdr) rfl hs fun s hs => ?_
  exact runEncBodyp_eq_runEncBody hs

/-- Settles O49. -/
theorem encodepEqualsEncode : Obligations.EncodepEqualsEncode := by
  unfold Obligations.EncodepEqualsEncode
  intro s t hs _ ht
  have hp : exec .encodep s = .next t := (exec_encodep_eq hs).trans ht
  exact ⟨fun _ => hp, t, hp, rfl⟩

/-! ### The code of the input -/

theorem one_le_of_mem_lengths_of_any {ws : List Nat} : ∀ l ∈ lengths ws, 1 ≤ l := by
  match ws with
  | [] => simp [lengths]
  | [_] => simp [lengths]
  | _ :: _ :: _ => exact one_le_of_mem_lengths (by simp)

/-- Every symbol gets a length (R144, R148). -/
theorem lenOf_ne_zero_of_runPmRun_ok {s t : State} (h : runPmRun s = .ok t) {v : Byte} (hv : s.freq.at v ≠ 0) : t.lenOf v ≠ 0 := by
  obtain ⟨-, -, hmap⟩ := runPmRun_ok h
  have hmem : t.lenOf v ∈ lengths s.weights := hmap ▸ List.mem_map_of_mem (mem_symbols.2 hv)
  exact Nat.one_le_iff_ne_zero.1 (one_le_of_mem_lengths_of_any _ hmem)

/-- What `FT.SCAN` leaves (R131). -/
def State.scanned (s : State) : State := s.setFreq (countInto (Table.const 0) s.srcBytes)

/-- What `PM.RUN` leaves after it, if `lens` are its lengths (R140). -/
def State.measuredBy (s : State) (lens : Table (BitVec 5)) : State := s.scanned.setLens lens s.scanned.symbols.length

/-- What `CB.BUILD` leaves after that: the histogram of the input, the lengths and their code (R162). -/
def State.codedBy (s : State) (lens : Table (BitVec 5)) : State :=
  (s.measuredBy lens).setCode (Table.ofFn (canonicalCode (s.measuredBy lens).lenOf)) (present (s.measuredBy lens).lenOf).length

/-- `lens` are the lengths of the input of `s`: they fit the decode window, every byte of the input has one, and `FT.SCAN`, `PM.RUN` and
`CB.BUILD` leave them and their code (R148, R163). -/
structure State.Codes (s : State) (lens : Table (BitVec 5)) : Prop where
  short : ∀ v, (lens.at v).toNat ≤ 8
  coded : ∀ v, s.scanned.freq.at v ≠ 0 → (lens.at v).toNat ≠ 0
  pmRun : runOf .pmRun s.scanned = .ok (s.measuredBy lens)
  cbBuild : runOf .cbBuild (s.measuredBy lens) = .ok (s.codedBy lens)

/-- Package-merge codes every input, and its lengths are not over-subscribed (R150, R151). -/
theorem exists_codes (s : State) : ∃ lens, s.Codes lens := by
  obtain ⟨lens, hpm⟩ := runPmRun_eq s.scanned
  have hshort := lenOf_le_eight_of_runPmRun_ok hpm
  have hcoded := fun v => lenOf_ne_zero_of_runPmRun_ok hpm (v := v)
  have hvalid := headerLengthsValid_of_runPmRun_ok hpm hcoded fun _ => rfl
  exact ⟨lens, hshort, hcoded, hpm, runCbBuild_of_kraftSum_le (fun v => (hshort v).trans (by norm_num)) hvalid.kraftSum_le⟩

theorem execAll_cons_of_runOf {i : Instr} {s t : State} (h : runOf i s = .ok t) (is : List Instr) :
    execAll (i :: is) s = execAll is t.retire := by
  simp only [execAll, exec_eq_finish, h, finish_ok]

section
variable {s : State} {lens : Table (BitVec 5)} (h : s.Codes lens)
include h

theorem State.Codes.legal (hs : s.Legal) : (s.codedBy lens).Legal :=
  legal_of_runOf_ok (i := .cbBuild) rfl (legal_of_runOf_ok (i := .pmRun) rfl (legal_of_runOf_ok (i := .ftScan) rfl hs rfl) h.pmRun)
    h.cbBuild

/-- The three commands one after the other. -/
theorem State.Codes.execAll_eq : execAll [.ftScan, .pmRun, .cbBuild] s = .next (s.codedBy lens).retire := by
  have hpm : runOf .pmRun s.scanned.retire = .ok (s.measuredBy lens).retire :=
    (busyBlind_pmRun s.scanned).trans (congrArg idleRun h.pmRun)
  have hcb : runOf .cbBuild (s.measuredBy lens).retire = .ok (s.codedBy lens).retire :=
    (busyBlind_cbBuild _).trans (congrArg idleRun h.cbBuild)
  rw [execAll_cons_of_runOf (i := .ftScan) (t := s.scanned) rfl, execAll_cons_of_runOf hpm]
  exact execAll_cons_of_runOf hcb []

/-- The rest of `ENCODE` begins with the input coded. -/
theorem State.Codes.exec_encode :
    exec .encode s = finish (runEncAlloc (s.codedBy lens) >>= fun s => runEncHdr s >>= runEncBody) := by
  have hscan : runFtScan s = .ok s.scanned := rfl
  have hpm : runPmRun s.scanned = _ := h.pmRun
  have hcb : runCbBuild (s.measuredBy lens) = _ := h.cbBuild
  rw [exec_eq_finish, runOf, hscan, ok_bind, hpm, ok_bind, hcb, ok_bind]

end

/-- `CB.BUILD` leaves the canonical code of the lengths (R161). -/
theorem codedBy_code (s : State) (lens : Table (BitVec 5)) : (s.codedBy lens).code.at = canonicalCode (s.codedBy lens).lenOf :=
  funext (Table.at_ofFn _)

/-- `FT.SCAN` leaves the histogram of the input (R131). -/
theorem codedBy_freq (s : State) (lens : Table (BitVec 5)) (v : Byte) :
    ((s.codedBy lens).freq.at v).toNat = (s.codedBy lens).srcBytes.count v := countInto_srcBytes_toNat s v

/-! ### The container -/

/-- The sink that `ENC.ALLOC` allocates (R170). -/
def State.allocated (s : State) : State := s.allocEnc s.bodyBits s.containerBytes (expandedFlag s.containerBytes s.srcSize)

/-- SNK after header and body (R172, R174). -/
def State.container (s : State) : Mem := applyOps (applyOps s.snk s.headerOps) (codeOps s.code Config.hdrBits s.srcBytes)

/-- With the histogram of the input, `ENC.ALLOC` counts the bits of the body (R170, R179). -/
theorem bodyBits_eq {s : State} (hcount : ∀ v, (s.freq.at v).toNat = s.srcBytes.count v) :
    s.bodyBits = (bodyStream s.code.at s.srcBytes).length := by
  simp only [State.bodyBits, hcount, sum_count_mul_len]

section
variable {s : State} (hcount : ∀ v, (s.freq.at v).toNat = s.srcBytes.count v) (hcap : s.containerBytes ≤ s.snkCap.toNat)
include hcount hcap

/-- The sink that `ENC.ALLOC` allocates has the size of the container (R70, R170). -/
theorem allocated_snkSize :
    s.allocated.snkSize.toNat = s.containerBytes ∧ s.containerBytes = 264 + ((bodyStream s.code.at s.srcBytes).length + 7) / 8 :=
  ⟨low32_toNat_of_le hcap, by rw [containerBytes_eq, bodyBits_eq hcount]⟩

/-- The commands after `CB.BUILD`, when the container fits and every byte of the input has a code (R170 to R174). -/
theorem encode_sink_of_le (hcodeV : s.status.codeV = true) (hcoded : ∀ v : Byte, s.freq.at v = 0 ∨ (s.code.at v).len ≠ 0) :
    (runEncAlloc s >>= fun s => runEncHdr s >>= runEncBody) =
      .ok (s.allocated.setSnkPos s.allocated.container (Config.hdrBits + (bodyStream s.code.at s.srcBytes).length)) := by
  obtain ⟨hsize, hneed⟩ := allocated_snkSize hcount hcap
  have halloc : runEncAlloc s = .ok s.allocated := by
    rw [runEncAlloc_of_coded hcodeV hcoded, if_neg (Nat.not_lt_of_le hcap)]
    rfl
  have hhdr : runEncHdr s.allocated = _ := runEncHdr_of_le hcodeV rfl rfl (by omega)
  have hbytes : ∀ x ∈ s.srcBytes, (s.code.at x).len ≠ 0 := fun x hx => (hcoded x).resolve_left fun h0 => by
    have hzero : s.srcBytes.count x = 0 := by rw [← hcount, h0]; rfl
    exact List.count_eq_zero.1 hzero hx
  rw [halloc, ok_bind, hhdr, ok_bind, State.container]
  generalize applyOps s.allocated.snk s.allocated.headerOps = m
  exact runEncBody_of_fits (s := s.allocated.setSnk m) hcodeV rfl rfl hbytes (hneed ▸ hsize).ge

/-- The bytes of SNK after header and body: the container of the input, padded with zeros, and nothing beyond it changed (R70 to R74). -/
theorem container_spec (hs : s.Legal) (hcode : s.code.at = canonicalCode s.lenOf) :
    HoldsContainer s.allocated.container s.containerBytes s.lenOf s.srcBytes ∧
      ZeroPadded s.allocated.container s.containerBytes s.lenOf s.srcBytes ∧
      ∀ a, s.containerBytes ≤ a → s.allocated.container.read a = s.snk.read a := by
  obtain ⟨hsize, hneed⟩ := allocated_snkSize hcount hcap
  have hwf : s.allocated.snk.wf := Mem.zeroBelow_wf hs.snk _
  have hzero : ∀ a, s.allocated.snk.read a = if a < s.containerBytes then 0#8 else s.snk.read a := Mem.read_zeroBelow _ s.snk
  have hlt := s.snkCap.isLt
  obtain ⟨hread, hbit, -⟩ := codeOps_frame (fun v => (hs.code v).1) (xs := s.srcBytes) (headerOps_wf hwf) (off := Config.hdrBits)
    (by rw [hdrBits_eq]; omega)
  refine ⟨?_, fun k hlo hhi => ?_, fun a ha => ?_⟩
  · rw [← hsize]
    refine holdsContainer_of_writes hwf hcode hs.lens ?_ fun a ha => ?_
    · rw [hsize, ceil8_eq]
      exact hneed
    · exact (hzero a).trans (if_pos (hsize ▸ ha))
  · rw [← hcode] at hlo
    have h264 : 2112 ≤ k := by
      rw [hdrBits_eq] at hlo
      omega
    refine (hbit k (.inr hlo)).trans ((bit_headerOps s.allocated h264).trans ?_)
    simp [Mem.bit, Nat.shiftRight_eq_div_pow, hzero, Nat.div_lt_of_lt_mul hhi]
  · refine (hread a (.inr (by rw [hdrBits_eq]; omega))).trans ?_
    rw [read_applyOps_of_not_touched fun o ho => ?_, hzero, if_neg (Nat.not_lt_of_le ha)]
    have := headerOps_addr_lt s.allocated o ho
    omega

end

/-- The size of the container of the coded input (R170). -/
theorem codedBy_containerBytes {s : State} {lens : Table (BitVec 5)} (h : s.Codes lens) :
    (s.codedBy lens).containerBytes =
      264 + ((allBytes.map (fun v => s.srcBytes.count v * (s.codedBy lens).lenOf v)).sum + 7) / 8 := by
  have hterm : ∀ v, ((s.codedBy lens).freq.at v).toNat * ((s.codedBy lens).code.at v).len.toNat =
      s.srcBytes.count v * (s.codedBy lens).lenOf v := fun v => by
    rw [codedBy_freq, codedBy_code, canonicalCode_len ((h.short v).trans (by norm_num))]
    rfl
  simp only [containerBytes_eq, State.bodyBits, hterm]

/-- Settles O47. -/
theorem encodeWritesTheContainer : Obligations.EncodeWritesTheContainer := by
  unfold Obligations.EncodeWritesTheContainer
  intro s i hi hs hfault
  obtain ⟨lens, h⟩ := exists_codes s
  have hencode : exec i s = exec .encode s := by
    rcases hi with rfl | rfl
    · rfl
    · exact exec_encodep_eq hs
  have hcoded : ∀ v : Byte, (s.codedBy lens).freq.at v = 0 ∨ ((s.codedBy lens).code.at v).len ≠ 0 := fun v => by
    refine or_iff_not_imp_left.2 fun hv h0 => h.coded v hv ?_
    rw [codedBy_code] at h0
    have hlen := canonicalCode_len (len := (s.codedBy lens).lenOf) ((h.short v).trans (by norm_num))
    rw [h0] at hlen
    exact hlen.symm
  rw [hencode, h.exec_encode, h.execAll_eq]
  simp only [Host.Outcome.next.injEq, exists_and_left, exists_eq_left']
  rw [retire_lenOf, ← codedBy_containerBytes h]
  by_cases hcap : (s.codedBy lens).containerBytes ≤ s.snkCap.toNat
  · rw [encode_sink_of_le (codedBy_freq s lens) hcap rfl hcoded]
    obtain ⟨hholds, hpad, hrest⟩ := container_spec (codedBy_freq s lens) hcap (h.legal hs) (codedBy_code s lens)
    obtain ⟨hsize, hneed⟩ := allocated_snkSize (codedBy_freq s lens) hcap
    generalize (s.codedBy lens).allocated.container = m at *
    refine ⟨_, rfl, fun hout => absurd hcap (Nat.not_le_of_lt hout), fun _ => ⟨rfl, hsize, ?_, hholds, hpad, hrest⟩⟩
    have hlt := s.snkCap.isLt
    have hbits := bodyBits_eq (codedBy_freq s lens)
    show (BitVec.ofNat 64 _).toNat = 2112 + (BitVec.ofNat 64 _).toNat
    rw [hbits, hdrBits_eq, BitVec.toNat_ofNat, BitVec.toNat_ofNat, Nat.mod_eq_of_lt (by omega), Nat.mod_eq_of_lt (by omega)]
  · have hout : (s.codedBy lens).containerBytes > (s.codedBy lens).snkCap.toNat := Nat.lt_of_not_le hcap
    rw [runEncAlloc_of_coded rfl hcoded, if_pos hout, error_bind]
    exact ⟨_, rfl, fun _ => rfl, fun hle => absurd hle hcap⟩

/-- Settles O48: no length is above 8, so the container has at most a byte for each input byte. -/
theorem encodeCompletesWithRoom : Obligations.EncodeCompletesWithRoom := by
  unfold Obligations.EncodeCompletesWithRoom
  intro s i hi hs hfault hroom
  obtain ⟨lens, h⟩ := exists_codes s
  obtain ⟨u, t, hu, ht, -, hfits⟩ := encodeWritesTheContainer s i hi hs hfault
  obtain rfl : (s.codedBy lens).retire = u := by simpa using h.execAll_eq.symm.trans hu
  rw [retire_lenOf, ← codedBy_containerBytes h] at hfits
  have hneed : (s.codedBy lens).containerBytes ≤ 264 + s.srcSize.toNat := by
    have hsum : (allBytes.map (fun v => s.srcBytes.count v * (s.codedBy lens).lenOf v)).sum ≤
        (allBytes.map (fun v => s.srcBytes.count v * 8)).sum := List.sum_le_sum fun v _ => Nat.mul_le_mul_left _ (h.short v)
    rw [List.sum_map_mul_right, sum_count_allBytes, length_srcBytes] at hsum
    rw [codedBy_containerBytes h]
    omega
  obtain ⟨heq, hsize, -⟩ := hfits (hneed.trans hroom)
  exact ⟨t, ht, by rw [heq]; exact hfault, hsize.trans_le hneed⟩

end Sys2Proof.Machine
end

section
/-! PROOFS. The decoder's commands (O50 to O54). -/

namespace Sys2Proof.Machine

/-! ### Header -/

theorem hdrSize_eq_sum (s : State) : s.hdrSize = ((List.range 8).map (fun a => (s.src.read a).toNat * 2 ^ (8 * a))).sum := by
  simp only [State.hdrSize, Nat.shiftLeft_eq]

theorem hdrSize_lt (s : State) : s.hdrSize < 2 ^ 64 := by
  have hbyte : ∀ a, (s.src.read a).toNat ≤ 255 := fun a => Nat.le_of_lt_succ (s.src.read a).isLt
  have hsum : ((List.range 8).map (fun a => (s.src.read a).toNat * 2 ^ (8 * a))).sum ≤
      ((List.range 8).map (fun a => 255 * 2 ^ (8 * a))).sum := List.sum_le_sum fun a _ => Nat.mul_le_mul_right _ (hbyte a)
  rw [hdrSize_eq_sum]
  exact hsum.trans_lt (by decide)

/-- A header whose check fails (R201). -/
theorem exec_decHdr_of_error {s : State} {c : Cause} {info : Word} (h : s.hdrCheck = .error ⟨c, info⟩) :
    ∃ t, exec .decHdr s = .next t ∧ FaultTaken c info s t := by
  rw [exec_eq_finish, runOf, runDecHdr, h]
  exact finish_raise c info s

section
variable {s : State} (hsize : 264 ≤ s.srcSize.toNat)
include hsize

theorem hdrCheck_of_lenRange {v : Byte} (hv : 16 < s.hdrLen v) (hleast : ∀ u : Byte, u.toNat < v.toNat → s.hdrLen u ≤ 16) :
    s.hdrCheck = .error ⟨.malformedHeader .lenRange, v.zeroExtend 32⟩ := by
  have hfind : allBytes.find? (fun v => s.hdrLen v > Config.maxLen) = some v :=
    find_allBytes_eq_some.2 ⟨decide_eq_true hv, fun u hu => decide_eq_false (Nat.not_lt_of_le (hleast u hu))⟩
  rw [State.hdrCheck, if_neg (Nat.not_lt_of_le hsize), hfind]

variable (hrange : allBytes.find? (fun v => s.hdrLen v > Config.maxLen) = none)
include hrange

theorem hdrCheck_of_emptyNonzero (hnone : present s.hdrLen = []) (hne : s.hdrSize ≠ 0) :
    s.hdrCheck = .error ⟨.malformedHeader .emptyNonzero, low32 s.hdrSize⟩ := by
  rw [State.hdrCheck, if_neg (Nat.not_lt_of_le hsize), hrange]
  exact if_pos ⟨hnone, hne⟩

theorem hdrCheck_of_kraft
    (h : (∃ v, present s.hdrLen = [v] ∧ s.hdrLen v ≠ 1) ∨ (2 ≤ (present s.hdrLen).length ∧ kraftSum s.hdrLen ≠ 65536)) :
    s.hdrCheck = .error ⟨.malformedHeader .kraft, low32 (kraftSum s.hdrLen)⟩ := by
  have hsome : ¬ (present s.hdrLen = [] ∧ s.hdrSize ≠ 0) := by
    rintro ⟨hnone, -⟩
    rcases h with ⟨v, hv, -⟩ | ⟨h2, -⟩
    · simp [hnone] at hv
    · simp [hnone] at h2
  have hbad : s.hdrKraftBad = true := by
    unfold State.hdrKraftBad
    rcases h with ⟨v, hv, h1⟩ | ⟨h2, hk⟩
    · simp [hv, h1]
    · split
      · next hp => simp [hp] at h2
      · next hp => simp [hp] at h2
      · exact decide_eq_true hk
  rw [State.hdrCheck, if_neg (Nat.not_lt_of_le hsize), hrange]
  exact (if_neg hsome).trans (if_pos hbad)

theorem hdrCheck_of_window (h2 : 2 ≤ (present s.hdrLen).length) (hk : kraftSum s.hdrLen = 65536) {v : Byte} (hv : 8 < s.hdrLen v)
    (hleast : ∀ u : Byte, u.toNat < v.toNat → s.hdrLen u ≤ 8) :
    s.hdrCheck = .error ⟨.lengthExceedsWindow, v.zeroExtend 32⟩ := by
  have hsome : ¬ (present s.hdrLen = [] ∧ s.hdrSize ≠ 0) := fun ⟨hnone, _⟩ => by simp [hnone] at h2
  have hgood : ¬ s.hdrKraftBad = true := by
    unfold State.hdrKraftBad
    split
    · simp
    · next hp => simp [hp] at h2
    · simpa using hk
  have hfind : allBytes.find? (fun v => s.hdrLen v > Config.windowBits) = some v :=
    find_allBytes_eq_some.2 ⟨decide_eq_true hv, fun u hu => decide_eq_false (Nat.not_lt_of_le (hleast u hu))⟩
  rw [State.hdrCheck, if_neg (Nat.not_lt_of_le hsize), hrange, hfind]
  exact (if_neg hsome).trans (if_neg hgood)

end

/-- Settles O50. -/
theorem decHdrChecksAndLoads : Obligations.DecHdrChecksAndLoads := by
  unfold Obligations.DecHdrChecksAndLoads
  intro s
  dsimp only
  rw [← hdrSize_eq_sum, show (fun v : Byte => (s.src.read (8 + v.toNat)).toNat) = s.hdrLen from rfl]
  have hfind : (∀ v, s.hdrLen v ≤ 16) → allBytes.find? (fun v => s.hdrLen v > Config.maxLen) = none := fun hrange =>
    find_allBytes_eq_none.2 fun v => decide_eq_false (Nat.not_lt_of_le (hrange v))
  refine ⟨fun hshort => exec_decHdr_of_error (if_pos hshort), fun hsize => ⟨fun v hv hleast => ?_, fun hrange => ⟨fun hnone hne => ?_,
    fun hbad => ?_, fun h2 hk v hv hleast => ?_, fun hvalid => ?_⟩⟩⟩
  · exact exec_decHdr_of_error (hdrCheck_of_lenRange hsize hv hleast)
  · exact exec_decHdr_of_error (hdrCheck_of_emptyNonzero hsize (hfind hrange) hnone hne)
  · exact exec_decHdr_of_error (hdrCheck_of_kraft hsize (hfind hrange) hbad)
  · exact exec_decHdr_of_error (hdrCheck_of_window hsize (hfind hrange) h2 hk hv hleast)
  · rw [exec_eq_finish, runOf, runDecHdr, hdrCheck_of_valid hsize hvalid, raiseIn_ok, ok_bind]
    have hnum := length_present_le s.hdrLen
    refine ⟨_, rfl, rfl, ?_, ?_, fun v => ?_⟩
    · exact (BitVec.toNat_ofNat _ _).trans (Nat.mod_eq_of_lt (hdrSize_lt s))
    · exact (BitVec.toNat_ofNat _ _).trans (Nat.mod_eq_of_lt (by omega))
    · have hle : s.hdrLen v ≤ 16 := hrange v
      rw [retire_lens, loadHeader_lens, Table.at_ofFn]
      exact (BitVec.toNat_ofNat _ _).trans (Nat.mod_eq_of_lt (by omega))

/-! ### Decode table -/

/-- From its barrier on every window resolves to the last symbol (R202). -/
theorem fillTable_canonicalCode_last {len : Byte → Nat} (hl : ∀ v, len v ≤ 8) (hk : kraftSum len ≤ Config.kraftOne) {v w : Byte}
    (hv : v ∈ (canonicalOrder len).getLast?) (hw : barrier (canonicalCode len v) ≤ w.toNat) (t : Table DEntry) :
    (fillTable (Table.ofFn (canonicalCode len)) (canonicalOrder len) t).at w = ⟨v, (canonicalCode len v).len⟩ := by
  have hmem : v ∈ canonicalOrder len := List.mem_of_getLast? hv
  have hlast : ∀ c ∈ canonicalOrder len, ¬ barrier (canonicalCode len v) < barrier (canonicalCode len c) := fun c hc hlt => by
    have hne : c ≠ v := fun e => hlt.ne (by rw [e])
    have hbefore := canonicalLT_getLast hv (mem_canonicalOrder.1 hc) hne
    exact hlt.not_gt (barrier_lt hl hk (mem_canonicalOrder.1 hc) (mem_canonicalOrder.1 hmem) hbefore)
  have hrise : (canonicalOrder len).Pairwise fun c d => barrier (canonicalCode len c) < barrier (canonicalCode len d) :=
    (canonicalOrder_sorted len).imp_of_mem fun hc hd => barrier_lt hl hk (mem_canonicalOrder.1 hc) (mem_canonicalOrder.1 hd)
  have hfill := fillTable_at (code := Table.ofFn (canonicalCode len)) (cs := canonicalOrder len) t (v := v) (w := w)
  simp only [Table.at_ofFn] at hfill
  exact hfill hrise hmem hw fun c hc hlt => absurd hlt (hlast c hc)

/-- Settles O51. -/
theorem decTblResolvesEveryCodeword : Obligations.DecTblResolvesEveryCodeword := by
  unfold Obligations.DecTblResolvesEveryCodeword
  intro s hs hcodeV hbuilt
  have hlen : s.codeLenOf = s.lenOf := funext fun v => congrArg BitVec.toNat (hs.codeLen hcodeV v)
  refine ⟨fun v hv => ?_, fun hshort => ?_⟩
  · have hfind : (canonicalOrder s.lenOf).find? (fun c => s.lenOf c > Config.windowBits) = some v := hv
    rw [exec_eq_finish, runOf, runDecTbl, require_code hcodeV, ok_bind]
    simp only [hlen, hfind]
    exact finish_raise _ _ s
  · have hfind : (canonicalOrder s.lenOf).find? (fun c => s.lenOf c > Config.windowBits) = none :=
      List.find?_eq_none.2 fun c _ => by simpa using hshort c
    have hrun : runDecTbl s = .ok (s.setDtbl (fillTable s.code (canonicalOrder s.codeLenOf) (Table.const ⟨0, 0⟩))) := by
      rw [runDecTbl, require_code hcodeV, ok_bind]
      simp only [hlen, hfind]
    obtain ⟨-, hbegins, -, hempty⟩ := setDtbl_tablesTrue hs hcodeV hbuilt (hlen ▸ hshort)
    have hcode : s.code = Table.ofFn (canonicalCode s.lenOf) := Table.ext fun v => by rw [Table.at_ofFn, hbuilt v]
    rw [exec_eq_finish, runOf, hrun]
    refine ⟨_, rfl, rfl, hbegins rfl, hempty rfl, fun v hv w hw => ?_⟩
    rw [hbuilt v, ← barrier_canonicalCode (hshort v)] at hw
    rw [retire_dtbl, setDtbl_dtbl, hlen, hcode, fillTable_canonicalCode_last hshort (hs.kraft hcodeV) hv hw, ← hbuilt v,
      hs.codeLen hcodeV v]

/-! ### Sink allocation -/

/-- Settles O52. -/
theorem decAllocSizesTheSink : Obligations.DecAllocSizesTheSink := by
  unfold Obligations.DecAllocSizesTheSink
  intro s hhdrV
  refine ⟨fun hcap => ?_, fun hcap => ?_⟩
  · rw [exec_eq_finish, runOf, runDecAlloc, require_hdr hhdrV, ok_bind, if_pos hcap]
    exact finish_raise _ _ s
  · rw [exec_eq_finish, runOf, runDecAlloc_of_le hhdrV hcap]
    have hsize : (s.orig.truncate 32).toNat = s.orig.toNat :=
      (BitVec.toNat_setWidth _ _).trans (Nat.mod_eq_of_lt (hcap.trans_lt s.snkCap.isLt))
    refine ⟨_, rfl, rfl, hsize, fun a => ?_⟩
    rw [retire_snk, allocDec_snk, Mem.read_zeroBelow, hsize]
    rfl

/-! ### One symbol -/

section
variable {s : State} {off : Nat}

theorem lookup_of_beyond (h : 8 * s.srcSize.toNat ≤ off) : s.lookup off = .error ⟨.malformedHeader .bodyUnderrun, low32 off⟩ := by
  have hbyte : off >>> 3 ≥ s.srcSize.toNat := by
    rw [Nat.shiftRight_eq_div_pow]
    exact (Nat.le_div_iff_mul_le (by norm_num)).2 (Nat.mul_comm _ 8 ▸ h)
  exact if_pos hbyte

theorem lookup_of_noCode (h : off < 8 * s.srcSize.toNat) (h0 : (s.dtbl.at (s.window off)).len = 0) :
    s.lookup off = .error ⟨.malformedHeader .noCode, (s.window off).zeroExtend 32⟩ := by
  obtain ⟨hout, -⟩ | ⟨-, -, he⟩ | ⟨-, hne, -⟩ | ⟨hne, -⟩ := lookup_cases s off
  · exact absurd h (Nat.not_lt_of_le hout)
  · exact he
  · exact absurd h0 hne
  · exact absurd h0 hne

theorem lookup_of_overrun (hne : (s.dtbl.at (s.window off)).len ≠ 0)
    (hover : 8 * s.srcSize.toNat < off + (s.dtbl.at (s.window off)).len.toNat) :
    s.lookup off = .error ⟨.malformedHeader .bodyUnderrun, low32 off⟩ := by
  obtain ⟨-, he⟩ | ⟨-, h0, -⟩ | ⟨-, -, -, he⟩ | ⟨-, hin, -⟩ := lookup_cases s off
  · exact he
  · exact absurd h0 hne
  · exact he
  · exact absurd hover (Nat.not_lt_of_le hin)

theorem lookup_of_inside (hne : (s.dtbl.at (s.window off)).len ≠ 0)
    (hin : off + (s.dtbl.at (s.window off)).len.toNat ≤ 8 * s.srcSize.toNat) : s.lookup off = .ok (s.dtbl.at (s.window off)) := by
  have hpos : 0 < (s.dtbl.at (s.window off)).len.toNat := Nat.pos_of_ne_zero fun h => hne (BitVec.eq_of_toNat_eq h)
  obtain ⟨hout, -⟩ | ⟨-, h0, -⟩ | ⟨-, -, hover, -⟩ | ⟨-, -, hok⟩ := lookup_cases s off
  · omega
  · exact absurd h0 hne
  · exact absurd hover (Nat.not_lt_of_le hin)
  · exact hok

end

/-- Settles O53. -/
theorem decGetDecodesOneSymbol : Obligations.DecGetDecodesOneSymbol := by
  unfold Obligations.DecGetDecodesOneSymbol
  intro s hs hdtblV hsnkV hdec
  have hexec : exec .decGet s = finish (raiseIn s (getSymbol s)) := by
    rw [exec_eq_finish, runOf, runDecGet, require_dec hdtblV hsnkV hdec, ok_bind]
  have hfault : s.outpos.toNat < s.snkSize.toNat → ∀ {c info}, s.lookup s.bitpos.toNat = .error ⟨c, info⟩ →
      ∃ t, exec .decGet s = .next t ∧ FaultTaken c info s t := fun hlt {c info} hlookup => by
    rw [hexec, getSymbol, if_neg (Nat.not_le_of_lt hlt), hlookup]
    exact finish_raise c info s
  refine ⟨fun hout => ?_, fun hlt => ⟨fun hend => hfault hlt (lookup_of_beyond hend), fun hin => ⟨fun i hi => window_getLsbD s hin hi,
    fun h0 => hfault hlt (lookup_of_noCode hin h0), fun hne hover => hfault hlt (lookup_of_overrun hne hover), fun hne hfit => ?_⟩⟩⟩
  · rw [hexec, getSymbol, if_pos hout]
    exact finish_raise _ _ s
  · rw [hexec, getSymbol, if_neg (Nat.not_le_of_lt hlt), lookup_of_inside hne hfit]
    have hsize := s.snkSize.isLt
    have hsrc := s.srcSize.isLt
    refine ⟨_, rfl, rfl, ?_, ?_, fun a => Mem.read_write hs.snk _ _ _⟩
    · exact (BitVec.toNat_ofNat _ _).trans (Nat.mod_eq_of_lt (by omega))
    · exact (BitVec.toNat_ofNat _ _).trans (Nat.mod_eq_of_lt (by omega))

/-! ### The body -/

section
variable {s : State}

/-- Symbol `k` of the body can be decoded (R208). -/
def State.Decodes (s : State) (k : Nat) : Prop := (s.walkEntry k).len ≠ 0 ∧ s.walk (k + 1) ≤ 8 * s.srcSize.toNat

/-- Where every symbol can be decoded, the discovery pass goes to the end of the walk (R215). -/
theorem discover_of_decodes {n i : Nat} (h : ∀ k, i ≤ k → k < i + n → s.Decodes k) :
    ∃ pages, s.discover n i (s.walk i) = .ok (pages, s.walk (i + n)) := by
  induction n generalizing i with
  | zero => exact ⟨[], rfl⟩
  | succ n ih =>
    obtain ⟨hne, hin⟩ := h i le_rfl (by omega)
    obtain ⟨pages, hrest⟩ := ih (i := i + 1) fun k hlo hhi => h k (by omega) (by omega)
    rw [Nat.add_right_comm] at hrest
    exact ⟨_, discover_succ_eq_ok.2 ⟨_, _, lookup_of_inside hne hin, hrest, rfl⟩⟩

/-- The first symbol that cannot be decoded ends the discovery pass with its fault (R215). -/
theorem discover_of_fault {f : FaultRec} {j n i : Nat} (hj : j < n) (h : ∀ k, i ≤ k → k < i + j → s.Decodes k)
    (hf : s.lookup (s.walk (i + j)) = .error f) : s.discover n i (s.walk i) = .error f := by
  induction j generalizing n i with
  | zero =>
    obtain ⟨n, rfl⟩ := Nat.exists_eq_add_of_lt hj
    rw [Nat.zero_add, State.discover]
    exact bind_eq_error.2 (.inl hf)
  | succ j ih =>
    obtain ⟨hne, hin⟩ := h i le_rfl (by omega)
    obtain ⟨n, rfl⟩ : ∃ m, n = m + 1 := ⟨n - 1, by omega⟩
    have hrest := ih (n := n) (i := i + 1) (by omega) (fun k hlo hhi => h k (by omega) (by omega)) (by rwa [Nat.add_right_comm])
    rw [State.discover, lookup_of_inside hne hin, ok_bind]
    exact bind_eq_error.2 (.inl hrest)

/-- The symbols of the body, each written at its index (R210). -/
theorem read_decodeOps (hsnk : s.snk.wf) (a : Nat) :
    (applyOps s.snk (s.decodeOps Config.hdrBits (List.range s.snkSize.toNat))).read a =
      if a < s.snkSize.toNat then (s.walkEntry a).val else s.snk.read a := by
  split
  · next ha =>
    refine read_applyOps_of_write hsnk (fun o ho => (decodeOps_addr_lt o ho).trans s.snkSize.isLt) (decodeOps_addr_ne s _) ?_
    rw [decodeOps_hdrBits]
    exact List.mem_map.2 ⟨a, List.mem_range.2 ha, rfl⟩
  · next ha => exact read_applyOps_of_not_touched fun o ho => ((decodeOps_addr_lt o ho).trans_le (Nat.le_of_not_lt ha)).ne

end

theorem runDecBody_of_flags {s : State} (hdtblV : s.status.dtblV = true) (hsnkV : s.status.snkV = true) (hdec : s.status.snkDec = true) :
    runDecBody s = raiseIn (s.loseSink s.snkSize.toNat) (getBody s) := by
  rw [runDecBody, require_dec hdtblV hsnkV hdec, ok_bind]

section
variable {s : State} (hs : s.Legal) (hdtblV : s.status.dtblV = true) (hsnkV : s.status.snkV = true) (hdec : s.status.snkDec = true)
  {i : Instr} (hi : i = .decBody ∨ i = .decBodyp)
include hs hdtblV hsnkV hdec hi

theorem exec_decBody_of_ok {t : State} (h : getBody s = .ok t) : exec i s = .next t.retire := by
  have hrun : runDecBody s = .ok t := by rw [runDecBody_of_flags hdtblV hsnkV hdec, h, raiseIn_ok]
  rcases hi with rfl | rfl
  · exact congrArg finish hrun
  · exact congrArg finish (runDecBodyp_of_runDecBody_ok hs.params hs.snk hrun)

theorem exec_decBody_of_error {c : Cause} {info : Word} (h : getBody s = .error ⟨c, info⟩) :
    ∃ t, exec i s = .next t ∧ BulkFaultTaken c info s t := by
  have hrun : runDecBody s = .error ⟨⟨c, info⟩, s.loseSink s.snkSize.toNat⟩ := by
    rw [runDecBody_of_flags hdtblV hsnkV hdec, h, raiseIn_error]
  rcases hi with rfl | rfl
  · rw [exec_eq_finish, runOf, hrun]
    exact finish_raise_bulk c info s
  by_cases hmin : s.params.decParMin ≤ s.snkSize.toNat
  · rw [exec_eq_finish, runOf, runDecBodyp_of_le hs.params hs.snk hmin, require_dec hdtblV hsnkV hdec, ok_bind, h, raiseIn_error]
    exact ⟨_, rfl, rfl, fun _ _ => rfl⟩
  · rw [exec_eq_finish, runOf, runDecBodyp, if_pos (Nat.lt_of_not_le hmin), hrun]
    exact finish_raise_bulk c info s

/-- The fault of the first symbol that cannot be decoded is the fault of the body (R210, R215). -/
theorem exec_decBody_of_fault {k : Nat} (hk : k < s.snkSize.toNat) (hgood : ∀ j < k, s.Decodes j) {c : Cause} {info : Word}
    (hf : s.lookup (s.walk k) = .error ⟨c, info⟩) : ∃ t, exec i s = .next t ∧ BulkFaultTaken c info s t := by
  refine exec_decBody_of_error hs hdtblV hsnkV hdec hi ?_
  have hdiscover : s.discover s.snkSize.toNat 0 Config.hdrBits = .error ⟨c, info⟩ :=
    discover_of_fault hk (fun j _ hj => hgood j (by omega)) (by rwa [Nat.zero_add])
  rw [getBody_eq_discover, hdiscover, error_bind]

end

/-- Settles O54. -/
theorem decBodyDecodesTheStream : Obligations.DecBodyDecodesTheStream := by
  unfold Obligations.DecBodyDecodesTheStream
  intro s i hi hs hdtblV hsnkV hdec
  have hfault := @exec_decBody_of_fault s hs hdtblV hsnkV hdec i hi
  refine ⟨fun hgood => ?_, fun k hk hgood => ⟨fun hend => hfault hk hgood (lookup_of_beyond hend),
    fun hin h0 => hfault hk hgood (lookup_of_noCode hin h0), fun hin hne hover => hfault hk hgood (lookup_of_overrun hne hover)⟩⟩
  obtain ⟨pages, hdiscover⟩ := discover_of_decodes (s := s) (n := s.snkSize.toNat) (i := 0) fun k _ hk => hgood k (by omega)
  rw [Nat.zero_add] at hdiscover
  have hbody : getBody s = bodySizeCheck s.srcSize (s.walk s.snkSize.toNat) >>= fun _ =>
      .ok (s.emit (applyOps s.snk (s.decodeOps Config.hdrBits (List.range s.snkSize.toNat))) s.snkSize.toNat
        (s.walk s.snkSize.toNat)) := by
    rw [getBody_eq_discover, show s.discover s.snkSize.toNat 0 Config.hdrBits = _ from hdiscover, ok_bind]
  refine ⟨fun hend => ?_, fun hend => ?_⟩
  · have hsize : bodySizeCheck s.srcSize (s.walk s.snkSize.toNat) = .ok () := if_neg (not_not.2 (by rw [ceil8_eq, hend]))
    rw [hsize, ok_bind] at hbody
    have hsrc := s.srcSize.isLt
    refine ⟨_, exec_decBody_of_ok hs hdtblV hsnkV hdec hi hbody, ?_, ?_, read_decodeOps hs.snk⟩
    · simp only [State.retire, State.emit, BitVec.ofNat_toNat, BitVec.setWidth_eq]
    · exact (BitVec.toNat_ofNat _ _).trans (Nat.mod_eq_of_lt (by omega))
  · have hsize : bodySizeCheck s.srcSize (s.walk s.snkSize.toNat) = .error ⟨.malformedHeader .bodySize,
        low32 ((s.walk s.snkSize.toNat + 7) / 8)⟩ := by
      rw [bodySizeCheck, ceil8_eq, if_pos hend]
    rw [hsize, error_bind] at hbody
    exact exec_decBody_of_error hs hdtblV hsnkV hdec hi hbody

end Sys2Proof.Machine
end

section
/-! PROOFS. The whole decode (O56, O57). -/

namespace Sys2Proof.Machine

/-! ### A container -/

section
variable {s : State} {len : Byte → Nat} (hl : ∀ v, len v ≤ 8) (hk : kraftSum len ≤ Config.kraftOne) (hres : s.Resolves len)
include hl hk hres

/-- The body of a container, decoded: its bytes in SNK, nothing else of SNK changed, and `BITPOS` at its end (R210, R211). -/
theorem getBody_of_stream (hsnk : s.snk.wf) {xs : List Byte} (hxs : ∀ x ∈ xs, len x ≠ 0) (hn : s.snkSize.toNat = xs.length)
    (hsize : s.srcSize.toNat = 264 + ceil8 (bodyStream (canonicalCode len) xs).length)
    (hbits : s.HoldsStream Config.hdrBits (bodyStream (canonicalCode len) xs)) :
    ∃ m, getBody s = .ok (s.emit m s.snkSize.toNat (Config.hdrBits + (bodyStream (canonicalCode len) xs).length)) ∧
      ∀ a, m.read a = xs.getD a (s.snk.read a) := by
  rw [ceil8_eq] at hsize
  obtain ⟨⟨pages, hdiscover⟩, hops⟩ := discover_stream hl hk hres hxs (i := 0) (by rw [hdrBits_eq]; omega) hbits
  have hend : bodySizeCheck s.srcSize (Config.hdrBits + (bodyStream (canonicalCode len) xs).length) = .ok () :=
    if_neg (not_not.2 (by rw [ceil8_eq, hdrBits_eq]; omega))
  rw [← hn] at hdiscover
  refine ⟨_, by rw [getBody_eq_discover, hdiscover, ok_bind, hend, ok_bind], fun a => ?_⟩
  by_cases ha : a < xs.length
  · refine (read_applyOps_of_write hsnk (fun o ho => (decodeOps_addr_lt o ho).trans s.snkSize.isLt) (decodeOps_addr_ne s _)
      (v := xs[a]) ?_).trans (by simp [ha])
    rw [hn, List.range_eq_range', hops]
    exact List.mem_map.2 ⟨(xs[a], a), List.mk_mem_zipIdx_iff_getElem?.2 (List.getElem?_eq_getElem ha), rfl⟩
  · rw [List.getD_eq_default _ _ (Nat.le_of_not_lt ha)]
    exact read_applyOps_of_not_touched fun o ho => ((decodeOps_addr_lt o ho).trans_le (hn.trans_le (Nat.le_of_not_lt ha))).ne

end

/-- What `DEC.HDR`, `CB.BUILD`, `DEC.TBL` and `DEC.ALLOC` leave, of a container of `n` bytes with the lengths `len` (R200 to R204). -/
def State.readied (s : State) (len : Byte → Nat) (n : Nat) (lens : Table (BitVec 5)) (nsym : Nat) (dtbl : Table DEntry) : State :=
  (((s.loadHeader n lens nsym).setCode (Table.ofFn (canonicalCode len)) (present len).length).setDtbl dtbl).allocDec

/-- The commands of a decode macro before its body, on a container (R220). -/
theorem exists_readied {s : State} {len : Byte → Nat} {xs : List Byte} (hvalid : HeaderLengthsValid len xs.length)
    (hholds : HoldsContainer s.src s.srcSize.toNat len xs) (hcap : xs.length ≤ s.snkCap.toNat) :
    ∃ lens nsym dtbl, (∀ v, (lens.at v).toNat = len v) ∧ (s.readied len xs.length lens nsym dtbl).Resolves len ∧
      ∀ body : State → Run, (runDecHdr s >>= fun s => runCbBuild s >>= fun s => runDecTbl s >>= fun s => runDecAlloc s >>= body) =
        body (s.readied len xs.length lens nsym dtbl) := by
  obtain ⟨hsize, hsizeField, hlenBytes, -⟩ := hholds
  have hl := hvalid.1
  have hk := hvalid.kraftSum_le
  have hn : xs.length < 2 ^ 64 := (hcap.trans_lt s.snkCap.isLt).trans (by norm_num)
  have hhdrLen : s.hdrLen = len := funext hlenBytes
  have hhdrSize : s.hdrSize = xs.length := hdrSize_eq hn hsizeField
  obtain ⟨lens, nsym, hhdr, hlens⟩ := runDecHdr_of_valid (hsize ▸ Nat.le_add_right _ _) (s := s) (by rwa [hhdrLen, hhdrSize])
  rw [hhdrLen] at hlens
  rw [hhdrSize] at hhdr
  have hlenOf : (s.loadHeader xs.length lens nsym).lenOf = len := funext hlens
  have hcb := runCbBuild_of_kraftSum_le (s := s.loadHeader xs.length lens nsym)
    (by rw [hlenOf]; exact fun v => (hl v).trans (by norm_num)) (by rwa [hlenOf])
  rw [hlenOf] at hcb
  obtain ⟨dtbl, htbl, hres⟩ := runDecTbl_of_canonicalCode (s := State.setCode _ (Table.ofFn (canonicalCode len)) _) rfl rfl hl hk
  have horig : (BitVec.ofNat 64 xs.length).toNat = xs.length := (BitVec.toNat_ofNat _ _).trans (Nat.mod_eq_of_lt hn)
  refine ⟨lens, nsym, dtbl, hlens, hres.allocDec, fun body => ?_⟩
  rw [hhdr, ok_bind, hcb, ok_bind, htbl, ok_bind, runDecAlloc_of_le rfl (horig.trans_le hcap), ok_bind]
  rfl

/-- Settles O56. -/
theorem decodeReadsTheContainer : Obligations.DecodeReadsTheContainer := by
  unfold Obligations.DecodeReadsTheContainer
  intro s i len xs hi hs _ hvalid hxs hholds hcap
  obtain ⟨lens, nsym, dtbl, hlens, hres, hrun⟩ := exists_readied hvalid hholds hcap
  have hn := hcap.trans_lt s.snkCap.isLt
  have horig : (BitVec.ofNat 64 xs.length).toNat = xs.length :=
    (BitVec.toNat_ofNat _ _).trans (Nat.mod_eq_of_lt (hn.trans (by norm_num)))
  have hsnkSize : (s.readied len xs.length lens nsym dtbl).snkSize.toNat = xs.length := by
    rw [State.readied, allocDec_snkSize, setDtbl_orig, setCode_orig, loadHeader_orig, BitVec.toNat_setWidth, horig,
      Nat.mod_eq_of_lt hn]
  have hp : (s.readied len xs.length lens nsym dtbl).params.legal := hs.params
  have hwf : (s.readied len xs.length lens nsym dtbl).snk.wf := Mem.zeroBelow_wf hs.snk _
  obtain ⟨m, hbody, hread⟩ := getBody_of_stream hvalid.1 hvalid.kraftSum_le hres hwf hxs hsnkSize hholds.size_eq hholds.body
  have hseq := runDecBody_of_flags (s := s.readied len xs.length lens nsym dtbl) rfl rfl rfl
  rw [hbody, raiseIn_ok] at hseq
  have hexec : exec i s = finish (runDecBody (s.readied len xs.length lens nsym dtbl)) := by
    rcases hi with rfl | rfl
    · exact congrArg finish (hrun _)
    · exact congrArg finish ((hrun _).trans ((runDecBodyp_of_runDecBody_ok hp hwf hseq).trans hseq.symm))
  rw [hseq, finish_ok] at hexec
  have hlt := s.srcSize.isLt
  have hsize := hholds.size_eq
  rw [ceil8_eq] at hsize
  refine ⟨_, hexec, ?_, horig, hsnkSize, ?_, hlens, fun a => ?_⟩
  · simp only [State.retire, State.emit, BitVec.ofNat_toNat, BitVec.setWidth_eq]
    rfl
  · refine (BitVec.toNat_ofNat _ _).trans (Nat.mod_eq_of_lt ?_)
    rw [hdrBits_eq]
    omega
  · refine (hread a).trans ?_
    by_cases ha : a < xs.length
    · simp [ha]
    · rw [List.getD_eq_default _ _ (Nat.le_of_not_lt ha), List.getD_eq_default _ _ (Nat.le_of_not_lt ha)]
      have hout : ¬ a < (s.readied len xs.length lens nsym dtbl).snkSize.toNat := by rwa [hsnkSize]
      exact (Mem.read_zeroBelow _ _ _).trans (if_neg hout)

/-! ### The paged decode -/

/-- The run `q` ends as `r` does: in the same state, or with the same fault, SNK aside (R218, R221). -/
structure SameEnd (r q : Run) : Prop where
  ok : ∀ t, r = .ok t → q = .ok t
  error : ∀ e, r = .error e → ∃ u, q = .error ⟨e.fault, u⟩ ∧ u = { e.state with snk := u.snk, free := u.free }

theorem SameEnd.refl (r : Run) : SameEnd r r := ⟨fun _ => id, fun e h => ⟨e.state, h, rfl⟩⟩

/-- The paged body ends as the sequential one (R218). -/
theorem sameEnd_decBody {s : State} (hs : s.Legal) : SameEnd (runDecBody s) (runDecBodyp s) where
  ok _ h := runDecBodyp_of_runDecBody_ok hs.params hs.snk h
  error _ h := by
    obtain ⟨u, hu, heq, -⟩ := runDecBodyp_of_runDecBody_error hs.params hs.snk h
    exact ⟨u, hu, heq⟩

theorem SameEnd.finish {r q : Run} (h : SameEnd r q) {t : State} (ht : finish r = .next t) :
    (t.status.fault = false → Machine.finish q = .next t) ∧
      ∃ u, Machine.finish q = .next u ∧ u = { t with snk := u.snk, free := u.free } := by
  obtain ⟨u, hu, hfin⟩ | ⟨e, he, hfin⟩ := finish_next r
  · have hq : Machine.finish q = .next t := by rw [h.ok u hu, finish_ok, ← hfin, ht]
    exact ⟨fun _ => hq, t, hq, rfl⟩
  · obtain rfl : takeFault e.fault e.state = t := by simpa using hfin.symm.trans ht
    obtain ⟨u, hu, heq⟩ := h.error e he
    rw [hu]
    exact ⟨nofun, _, rfl, congrArg (takeFault e.fault) heq⟩

/-- Settles O57. -/
theorem decodepEqualsDecode : Obligations.DecodepEqualsDecode := by
  unfold Obligations.DecodepEqualsDecode
  intro s t hs _ ht
  have hsame : SameEnd (runOf .decode s) (runOf .decodep s) := by
    refine bind_rel_of_legal SameEnd.refl (i := .decHdr) rfl hs fun s hs => ?_
    refine bind_rel_of_legal SameEnd.refl (i := .cbBuild) rfl hs fun s hs => ?_
    refine bind_rel_of_legal SameEnd.refl (i := .decTbl) rfl hs fun s hs => ?_
    refine bind_rel_of_legal SameEnd.refl (i := .decAlloc) rfl hs fun s hs => ?_
    exact sameEnd_decBody hs
  exact hsame.finish ht

end Sys2Proof.Machine
end

section
/-! PROOFS. No command depends on SRC at or above `SRC_SIZE` (O24): with another SRC that agrees below it, every run does the same. -/

namespace Sys2Proof.Machine

/-! ### Another SRC -/

def State.withSrc (m : Mem) (s : State) : State := { s with src := m }

/-- A run's result with another SRC, whether it ends in a state or in a fault. -/
def withSrcRun (m : Mem) : Run → Run
  | .ok s => .ok (s.withSrc m)
  | .error e => .error ⟨e.fault, e.state.withSrc m⟩

@[simp] theorem withSrcRun_ok (m : Mem) (s : State) : withSrcRun m (.ok s) = .ok (s.withSrc m) := rfl
@[simp] theorem withSrcRun_error (m : Mem) (e : Raised) : withSrcRun m (.error e) = .error ⟨e.fault, e.state.withSrc m⟩ := rfl

section
variable (m : Mem) (s : State)

@[simp] theorem withSrc_status : (s.withSrc m).status = s.status := rfl
@[simp] theorem withSrc_srcSize : (s.withSrc m).srcSize = s.srcSize := rfl
@[simp] theorem withSrc_snkCap : (s.withSrc m).snkCap = s.snkCap := rfl
@[simp] theorem withSrc_snkSize : (s.withSrc m).snkSize = s.snkSize := rfl
@[simp] theorem withSrc_orig : (s.withSrc m).orig = s.orig := rfl
@[simp] theorem withSrc_bitpos : (s.withSrc m).bitpos = s.bitpos := rfl
@[simp] theorem withSrc_outpos : (s.withSrc m).outpos = s.outpos := rfl
@[simp] theorem withSrc_bv : (s.withSrc m).bv = s.bv := rfl
@[simp] theorem withSrc_freq : (s.withSrc m).freq = s.freq := rfl
@[simp] theorem withSrc_lens : (s.withSrc m).lens = s.lens := rfl
@[simp] theorem withSrc_code : (s.withSrc m).code = s.code := rfl
@[simp] theorem withSrc_dtbl : (s.withSrc m).dtbl = s.dtbl := rfl
@[simp] theorem withSrc_src : (s.withSrc m).src = m := rfl
@[simp] theorem withSrc_snk : (s.withSrc m).snk = s.snk := rfl
@[simp] theorem withSrc_params : (s.withSrc m).params = s.params := rfl
@[simp] theorem withSrc_sched : (s.withSrc m).sched = s.sched := rfl
@[simp] theorem withSrc_lenOf : (s.withSrc m).lenOf = s.lenOf := rfl
@[simp] theorem withSrc_codeLenOf : (s.withSrc m).codeLenOf = s.codeLenOf := rfl
@[simp] theorem withSrc_symbols : (s.withSrc m).symbols = s.symbols := rfl
@[simp] theorem withSrc_weights : (s.withSrc m).weights = s.weights := rfl
@[simp] theorem withSrc_containerBytes : (s.withSrc m).containerBytes = s.containerBytes := rfl
@[simp] theorem withSrc_headerOps : (s.withSrc m).headerOps = s.headerOps := rfl

end

/-- The memory agrees with SRC below `SRC_SIZE` (R63). -/
def State.SameSource (s : State) (m : Mem) : Prop := ∀ a < s.srcSize.toNat, m.read a = s.src.read a

/-- The run does not see SRC at or above `SRC_SIZE`. -/
def SrcBlind (run : State → Run) : Prop := ∀ (s : State) (m : Mem), s.SameSource m → run (s.withSrc m) = withSrcRun m (run s)

/-- A run behind a prerequisite. -/
theorem SrcBlind.require {r : Req} {k : State → Run} (hk : SrcBlind k) : SrcBlind (fun s => Machine.require r s >>= fun _ => k s) := by
  intro s m h
  have hmask : seqMask r (s.withSrc m) = seqMask r s := rfl
  simp only [Machine.require, hmask]
  split
  · exact hk s m h
  · rfl

/-- Raising the fault of a computation that does not see the rest of SRC. -/
theorem raiseIn_map_withSrc (m : Mem) (s : State) (x : Except FaultRec State) :
    raiseIn (s.withSrc m) (x.map (State.withSrc m)) = withSrcRun m (raiseIn s x) := by
  cases x <;> rfl

/-! ### Commands that do not read SRC -/

theorem requireLen_withSrc (i : Instr) (len : BitVec 5) (m : Mem) (s : State) {k : State → Run}
    (hk : k (s.withSrc m) = withSrcRun m (k s)) :
    (requireLen i len (s.withSrc m) >>= fun _ => k (s.withSrc m)) = withSrcRun m (requireLen i len s >>= fun _ => k s) := by
  unfold requireLen
  split
  · exact hk
  · rfl

theorem srcBlind_bvNext (len : BitVec 5) : SrcBlind (runOf (.bvNext len)) := by
  intro s m _
  refine requireLen_withSrc _ len m s (k := fun s => raiseIn s (bvNext s.bv len) >>= fun b => .ok (s.setBv b)) ?_
  dsimp only [withSrc_bv]
  cases bvNext s.bv len <;> rfl

theorem srcBlind_bvCopy : SrcBlind runBvCopy := by
  refine SrcBlind.require (r := reqSink) fun s m _ => ?_
  dsimp +instances only [withSrc_bv, withSrc_snkSize, withSrc_snk, withSrc_bitpos]
  split
  · rfl
  · cases pack s.snkSize s.snk s.bv s.bitpos.toNat <;> rfl

theorem srcBlind_pmRun : SrcBlind runPmRun := by
  intro s m _
  simp only [runPmRun, withSrc_symbols, withSrc_weights]
  split <;> rfl

theorem srcBlind_cbBuild : SrcBlind runCbBuild := by
  intro s m _
  dsimp +instances only [runCbBuild, withSrc_lenOf, withSrc_lens]
  split
  · rfl
  · cases assignCodes ((canonicalOrder s.lenOf).map s.lens.at) <;> rfl

theorem srcBlind_encAlloc : SrcBlind runEncAlloc := by
  refine SrcBlind.require (r := reqCode) fun s m _ => ?_
  dsimp +instances only [withSrc_freq, withSrc_code, withSrc_containerBytes, withSrc_snkCap]
  split
  · rfl
  · split <;> rfl

theorem srcBlind_encHdr : SrcBlind runEncHdr := by
  refine SrcBlind.require (r := reqEnc) fun s m _ => ?_
  dsimp +instances only [withSrc_snkSize, withSrc_snk, withSrc_headerOps]
  generalize applyOps s.snk s.headerOps = written
  split <;> rfl

theorem putSymbol_withSrc (m : Mem) (s : State) (v : Byte) : putSymbol (s.withSrc m) v = (putSymbol s v).map (State.withSrc m) := by
  dsimp +instances only [putSymbol, withSrc_code, withSrc_snkSize, withSrc_snk, withSrc_bitpos]
  split
  · rfl
  · cases pack s.snkSize s.snk (s.code.at v) s.bitpos.toNat <;> rfl

theorem srcBlind_encPut (v : Byte) : SrcBlind (runOf (.encPut v)) := by
  refine SrcBlind.require (r := reqEnc) fun s m _ => ?_
  rw [putSymbol_withSrc]
  exact raiseIn_map_withSrc m s _

theorem srcBlind_decTbl : SrcBlind runDecTbl := by
  refine SrcBlind.require (r := reqCode) fun s m _ => ?_
  dsimp +instances only [withSrc_codeLenOf]
  split <;> rfl

theorem srcBlind_decAlloc : SrcBlind runDecAlloc := by
  refine SrcBlind.require (r := reqHdr) fun s m _ => ?_
  dsimp +instances only [withSrc_orig, withSrc_snkCap]
  split <;> rfl

/-! ### Commands that read the input bytes -/

section
variable {s : State} {m : Mem} (h : s.SameSource m)
include h

theorem srcAt_withSrc {addrs : List Nat} (haddrs : ∀ a ∈ addrs, a < s.srcSize.toNat) : (s.withSrc m).srcAt addrs = s.srcAt addrs :=
  List.map_congr_left fun a ha => h a (haddrs a ha)

theorem srcBytes_withSrc : (s.withSrc m).srcBytes = s.srcBytes := srcAt_withSrc h fun _ => List.mem_range.1

theorem encPage_withSrc (k : Nat) : (s.withSrc m).encPage k = s.encPage k := srcAt_withSrc h fun _ => lt_of_mem_pageAddrs

theorem laneCounts_withSrc (l : Nat) : (s.withSrc m).laneCounts l = s.laneCounts l :=
  congrArg (countInto (Table.const 0)) (List.flatMap_congr fun k _ => encPage_withSrc h k)

theorem pageOffset_withSrc (k : Nat) : (s.withSrc m).pageOffset k = s.pageOffset k := by
  induction k with
  | zero => rfl
  | succ k ih => simp only [State.pageOffset, ih, State.pageBits, encPage_withSrc h, withSrc_code]

theorem encPageOps_withSrc (k : Nat) : (s.withSrc m).encPageOps k = s.encPageOps k := by
  simp only [State.encPageOps, pageOffset_withSrc h, encPage_withSrc h, withSrc_code]

theorem putBodyPaged_withSrc : (s.withSrc m).putBodyPaged = s.putBodyPaged.withSrc m := by
  simp only [State.putBodyPaged, funext (encPageOps_withSrc h), pageOffset_withSrc h]
  rfl

theorem putBody_withSrc : putBody (s.withSrc m) = (putBody s).map (State.withSrc m) := by
  rw [putBody, putBody, srcBytes_withSrc h, show (s.withSrc m).rewindEnc = s.rewindEnc.withSrc m from rfl]
  generalize s.rewindEnc = u
  induction s.srcBytes generalizing u with
  | nil => rfl
  | cons x xs ih =>
    rw [List.foldlM_cons, List.foldlM_cons, putSymbol_withSrc]
    cases putSymbol u x with
    | ok t => exact ih t
    | error f => rfl

end

theorem srcBlind_ftScan : SrcBlind runFtScan := by
  intro s m h
  rw [runFtScan, srcBytes_withSrc h]
  rfl

theorem srcBlind_ftScanp : SrcBlind runFtScanp := by
  intro s m h
  simp only [runFtScanp, srcBlind_ftScan s m h, funext (laneCounts_withSrc h), withSrc_srcSize, withSrc_params, withSrc_sched]
  split <;> rfl

theorem srcBlind_encBody : SrcBlind runEncBody := by
  refine SrcBlind.require (r := reqEnc) fun s m h => ?_
  rw [putBody_withSrc h]
  exact raiseIn_map_withSrc m (s.loseSink s.snkSize.toNat) (putBody s)

theorem srcBlind_encBodyp : SrcBlind runEncBodyp := by
  intro s m h
  simp only [runEncBodyp, srcBlind_encBody s m h, putBodyPaged_withSrc h, withSrc_srcSize, withSrc_params]
  split
  · rfl
  · cases runEncBody s <;> rfl

/-! ### The header -/

section
variable {s : State} {m : Mem} (h : s.SameSource m) (hsize : 264 ≤ s.srcSize.toNat)
include h hsize

theorem hdrLen_withSrc : (s.withSrc m).hdrLen = s.hdrLen := funext fun v =>
  congrArg BitVec.toNat (h _ ((Nat.add_lt_add_left v.isLt 8).trans_le hsize))

theorem hdrSize_withSrc : (s.withSrc m).hdrSize = s.hdrSize := by
  rw [hdrSize_eq_sum, hdrSize_eq_sum]
  refine congrArg List.sum (List.map_congr_left fun a ha => ?_)
  rw [withSrc_src, h a ((List.mem_range.1 ha).trans_le (le_trans (by norm_num) hsize))]

theorem hdrCheck_withSrc_of_le : (s.withSrc m).hdrCheck = s.hdrCheck := by
  simp only [State.hdrCheck, State.hdrKraftBad, hdrLen_withSrc h hsize, hdrSize_withSrc h hsize, withSrc_srcSize]
  rfl

end

theorem srcBlind_decHdr : SrcBlind runDecHdr := by
  intro s m h
  by_cases hsize : 264 ≤ s.srcSize.toNat
  · simp only [runDecHdr, hdrCheck_withSrc_of_le h hsize, hdrLen_withSrc h hsize, hdrSize_withSrc h hsize]
    cases s.hdrCheck <;> rfl
  · have hshort : ∀ u : State, u.srcSize = s.srcSize → u.hdrCheck = .error ⟨.malformedHeader .short, u.srcSize⟩ := fun u hu =>
      if_pos (hu ▸ Nat.lt_of_not_le hsize)
    rw [runDecHdr, runDecHdr, hshort s rfl, hshort (s.withSrc m) rfl]
    rfl

/-! ### The decoder's body -/

section
variable {s : State} {m : Mem} (h : s.SameSource m)
include h

/-- A window that starts in SRC reads SRC only below `SRC_SIZE` (R209). -/
theorem window_withSrc {off : Nat} (hoff : off >>> 3 < s.srcSize.toNat) : (s.withSrc m).window off = s.window off := by
  by_cases hnext : off >>> 3 + 1 < s.srcSize.toNat
  · simp only [State.window, withSrc_src, withSrc_srcSize, h _ hoff, hnext, h _ hnext, if_true]
  · simp only [State.window, withSrc_src, withSrc_srcSize, h _ hoff, hnext, if_false]

theorem lookup_withSrc (off : Nat) : (s.withSrc m).lookup off = s.lookup off := by
  by_cases hin : off >>> 3 < s.srcSize.toNat
  · simp only [State.lookup, window_withSrc h hin, withSrc_srcSize, withSrc_dtbl]
  · simp only [State.lookup, withSrc_srcSize, ge_iff_le, Nat.le_of_not_lt hin, if_true]

theorem discover_withSrc (n i off : Nat) : (s.withSrc m).discover n i off = s.discover n i off := by
  induction n generalizing i off with
  | zero => rfl
  | succ n ih =>
    simp only [State.discover, lookup_withSrc h, ih, withSrc_params]
    rfl

theorem getSymbol_withSrc : getSymbol (s.withSrc m) = (getSymbol s).map (State.withSrc m) := by
  simp only [getSymbol, withSrc_outpos, withSrc_snkSize, withSrc_bitpos, lookup_withSrc h]
  split
  · rfl
  · cases s.lookup s.bitpos.toNat <;> rfl

end

theorem lookup_ok_lt {s : State} {off : Nat} {e : DEntry} (h : s.lookup off = .ok e) : off >>> 3 < s.srcSize.toNat := by
  by_contra hout
  rw [State.lookup, if_pos (Nat.le_of_not_lt hout)] at h
  cases h

/-- Where the discovery pass does not fault, every symbol's window starts in SRC (R215). -/
theorem lookup_walk_of_discover {s : State} {n i : Nat} {p : List Nat × Nat} (h : s.discover n i (s.walk i) = .ok p) :
    ∀ k, i ≤ k → k < i + n → s.walk k >>> 3 < s.srcSize.toNat := by
  induction n generalizing i p with
  | zero => exact fun k hlo hhi => absurd hhi (Nat.not_lt_of_le hlo)
  | succ n ih =>
    obtain ⟨e, q, he, hq, -⟩ := discover_succ_eq_ok.1 h
    obtain ⟨rfl, -⟩ := lookup_ok he
    intro k hlo hhi
    rcases hlo.eq_or_lt with rfl | hlt
    · exact lookup_ok_lt he
    · exact ih (i := i + 1) hq k hlt (by omega)

/-- The offset at which page `k` begins leads to the writes of its symbols (R215, R217). -/
theorem decodeOps_page {s : State} {n k : Nat} {p : List Nat × Nat} (h : s.discover n 0 Config.hdrBits = .ok p)
    (hk : k < pageCount n s.params.pageBytes) :
    s.decodeOps (p.1.getD k 0) (pageAddrs n s.params.pageBytes k) = (pageAddrs n s.params.pageBytes k).map s.symbolWrite := by
  obtain rfl := discover_walk (i := 0) h
  rw [← List.range_eq_range', filter_pageStarts n (pageBytes_pos_of_lt_pageCount hk), pageAddrs, ← decodeOps_walk]
  simp [hk]

/-- A pass depends on the accesses of its pages only. -/
theorem passOps_congr {o : Config.LaneOrder} {lanes np : Nat} {f g : Nat → List MemOp} (h : ∀ k < np, f k = g k) :
    passOps o lanes np f = passOps o lanes np g := by
  refine congrArg (runLanes o.turns) (List.map_congr_left fun l _ => List.flatMap_congr fun k hk => h k ?_)
  exact List.mem_range.1 ((taskOrder_perm _ _).mem_iff.1 (List.mem_filter.1 hk).1)

section
variable {s : State} {m : Mem} (h : s.SameSource m)
include h

theorem getSymbols_withSrc (n : Nat) {u : State} (hsrc : u.src = s.src) (hsize : u.srcSize = s.srcSize) :
    getSymbols n (u.withSrc m) = (getSymbols n u).map (State.withSrc m) := by
  induction n generalizing u with
  | zero => rfl
  | succ n ih =>
    have hu : u.SameSource m := by
      rw [State.SameSource, hsrc, hsize]
      exact h
    simp only [getSymbols, withSrc_outpos, withSrc_snkSize, getSymbol_withSrc hu]
    split
    · cases hget : getSymbol u with
      | ok t =>
        obtain ⟨-, m', pos, rfl⟩ := getSymbol_ok hget
        exact ih hsrc hsize
      | error f => rfl
    · rfl

theorem getBody_withSrc : getBody (s.withSrc m) = (getBody s).map (State.withSrc m) := by
  have hloop : getSymbols s.snkSize.toNat (s.withSrc m).rewindDec = _ := getSymbols_withSrc h s.snkSize.toNat (u := s.rewindDec) rfl rfl
  simp only [getBody, withSrc_snkSize, hloop]
  cases getSymbols s.snkSize.toNat s.rewindDec with
  | error f => rfl
  | ok t =>
    simp only [Except.map, ok_bind, withSrc_srcSize, withSrc_bitpos]
    cases bodySizeCheck t.srcSize t.bitpos.toNat <;> rfl

/-- The walk goes the same way as far as its windows start in SRC. -/
theorem walk_withSrc {n : Nat} (hin : ∀ k < n, s.walk k >>> 3 < s.srcSize.toNat) {k : Nat} (hk : k ≤ n) :
    (s.withSrc m).walk k = s.walk k := by
  induction k with
  | zero => rfl
  | succ k ih => simp only [State.walk, ih (Nat.le_of_succ_le hk), window_withSrc h (hin k hk), withSrc_dtbl]

theorem symbolWrite_withSrc {n : Nat} (hin : ∀ k < n, s.walk k >>> 3 < s.srcSize.toNat) {k : Nat} (hk : k < n) :
    (s.withSrc m).symbolWrite k = s.symbolWrite k := by
  simp only [State.symbolWrite, State.walkEntry, walk_withSrc h hin hk.le, window_withSrc h (hin k hk), withSrc_dtbl]

theorem getBodyPaged_withSrc : (s.withSrc m).getBodyPaged = s.getBodyPaged.map (State.withSrc m) := by
  have hdiscover := discover_withSrc h s.snkSize.toNat 0 Config.hdrBits
  simp only [State.getBodyPaged, withSrc_snkSize, hdiscover, withSrc_srcSize, withSrc_params, withSrc_sched, withSrc_snk]
  cases hp : s.discover s.snkSize.toNat 0 Config.hdrBits with
  | error f => rfl
  | ok p =>
    have hin : ∀ k < s.snkSize.toNat, s.walk k >>> 3 < s.srcSize.toNat := fun k hk =>
      lookup_walk_of_discover (i := 0) hp k (Nat.zero_le k) (by omega)
    have hpages : ∀ k < pageCount s.snkSize.toNat s.params.pageBytes,
        (s.withSrc m).decodeOps (p.1.getD k 0) (pageAddrs s.snkSize.toNat s.params.pageBytes k) =
          s.decodeOps (p.1.getD k 0) (pageAddrs s.snkSize.toNat s.params.pageBytes k) := fun k hk =>
      (decodeOps_page (hdiscover.trans hp) hk).trans ((List.map_congr_left fun j hj =>
        symbolWrite_withSrc h hin (lt_of_mem_pageAddrs hj)).trans (decodeOps_page hp hk).symm)
    simp only [ok_bind, passOps_congr hpages]
    cases bodySizeCheck s.srcSize p.2 <;> rfl

end

theorem srcBlind_decGet : SrcBlind runDecGet := by
  refine SrcBlind.require (r := reqDec) fun s m h => ?_
  rw [getSymbol_withSrc h]
  exact raiseIn_map_withSrc m s (getSymbol s)

theorem srcBlind_decBody : SrcBlind runDecBody := by
  refine SrcBlind.require (r := reqDec) fun s m h => ?_
  rw [getBody_withSrc h]
  exact raiseIn_map_withSrc m (s.loseSink s.snkSize.toNat) (getBody s)

theorem srcBlind_decBodyp : SrcBlind runDecBodyp := by
  have hpaged : SrcBlind (fun s => require reqDec s >>= fun _ => raiseIn s s.getBodyPaged) := by
    refine SrcBlind.require fun s m h => ?_
    rw [getBodyPaged_withSrc h]
    exact raiseIn_map_withSrc m s s.getBodyPaged
  intro s m h
  dsimp +instances only [runDecBodyp, withSrc_snkSize, withSrc_params]
  split
  · exact srcBlind_decBody s m h
  · exact hpaged s m h

/-! ### Every command -/

theorem srcBlind_runOf {i : Instr} (hi : isMacro i = false) : SrcBlind (runOf i) := by
  cases i with
  | nop | srst | ftClr => exact fun _ _ _ => rfl
  | bvZero len => exact fun s m _ => requireLen_withSrc _ len m s (k := fun s => .ok (s.setBv (bvZero len))) rfl
  | bvNext len => exact srcBlind_bvNext len
  | bvCopy => exact srcBlind_bvCopy
  | bvLdc v => exact SrcBlind.require (r := reqCode) fun _ _ _ => rfl
  | ftScan => exact srcBlind_ftScan
  | ftScanp => exact srcBlind_ftScanp
  | pmRun => exact srcBlind_pmRun
  | cbBuild => exact srcBlind_cbBuild
  | encAlloc => exact srcBlind_encAlloc
  | encHdr => exact srcBlind_encHdr
  | encBody => exact srcBlind_encBody
  | encBodyp => exact srcBlind_encBodyp
  | encPut v => exact srcBlind_encPut v
  | decHdr => exact srcBlind_decHdr
  | decTbl => exact srcBlind_decTbl
  | decAlloc => exact srcBlind_decAlloc
  | decBody => exact srcBlind_decBody
  | decBodyp => exact srcBlind_decBodyp
  | decGet => exact srcBlind_decGet
  | encode | encodep | decode | decodep => cases hi

/-- No effect of a command but that of `SRST` changes `SRC_SIZE`, and none changes SRC (R30, R61). -/
theorem Completes.source_eq {i : Instr} {s t : State} (h : Completes i s t) (hi : i ≠ .srst) :
    t.src = s.src ∧ t.srcSize = s.srcSize := by
  cases h
  case srst => exact absurd rfl hi
  all_goals exact ⟨rfl, rfl⟩

/-- Commands one after the other, none of them `SRST`. -/
theorem srcBlind_foldlM {is : List Instr} (his : ∀ i ∈ is, isMacro i = false ∧ i ≠ .srst) :
    SrcBlind (is.foldlM fun s i => runOf i s) := by
  induction is with
  | nil => exact fun _ _ _ => rfl
  | cons i is ih =>
    obtain ⟨⟨hmacro, hsrst⟩, his⟩ := List.forall_mem_cons.1 his
    intro s m h
    have hend := ends_runOf hmacro s
    simp only [List.foldlM_cons, srcBlind_runOf hmacro s m h]
    generalize runOf i s = r at hend
    cases hend with
    | sequence => rfl
    | raised => rfl
    | done _ hc =>
      obtain ⟨hsrc, hsize⟩ := hc.source_eq hsrst
      refine ih his _ m ?_
      rw [State.SameSource, hsrc, hsize]
      exact h

theorem srcBlind_runOf_any (i : Instr) : SrcBlind (runOf i) := by
  by_cases hsrst : i = .srst
  · subst hsrst
    exact srcBlind_runOf rfl
  · intro s m h
    rw [runOf_eq_foldlM, runOf_eq_foldlM]
    refine srcBlind_foldlM (fun j hj => ⟨isMacro_of_mem_expansion hj, fun e => ?_⟩) s m h
    exact srst_not_mem_expansion hsrst (e ▸ hj)

theorem finish_withSrcRun (m : Mem) {r : Run} {t : State} (h : finish r = .next t) : finish (withSrcRun m r) = .next (t.withSrc m) := by
  cases r
  all_goals
    cases h
    rfl

/-- Settles O24. -/
theorem sourceIsReadOnlyBelowItsSize : Obligations.SourceIsReadOnlyBelowItsSize := by
  unfold Obligations.SourceIsReadOnlyBelowItsSize
  intro i s t m hm h
  have hrun := srcBlind_runOf_any i s m hm
  rw [exec_eq_finish] at h
  calc exec i (s.withSrc m)
    _ = finish (withSrcRun m (runOf i s)) := by rw [exec_eq_finish, hrun]
    _ = .next (t.withSrc m) := finish_withSrcRun m h

end Sys2Proof.Machine
end
